-- ==== Sys2Proof/Word.lean ====
section
/-!
DEFINITION. The words the machine moves: bytes, the 16-bit status value, the 22-bit address operand and the 19-bit
location in the chip's array (00_scope R3; 20_memory R40, R53).
-/

namespace Sys2Proof

/-- One byte: an instruction code, a frame byte, a payload byte (R3). -/
abbrev Byte := BitVec 8

/-- A value of the chip's Status Register (R22): 16 bits, bit 0 the least significant. -/
abbrev StatusWord := BitVec 16

/-- The address operand of an array operation (R14): "22-bit unsigned offset". -/
abbrev Address := BitVec 22

/-- A location of the chip's array of 2^19 bytes (R40). -/
abbrev Location := BitVec 19

end Sys2Proof
end

