-- ==== Sys2Proof/Config.lean ====
section
/-!
DEFINITION. What an instance of PSS and its chip fix (00_scope R4) and the free values: constants WITHOUT a body, so that
nothing can be proved of their values and every theorem holds for all of them.
-/

namespace Sys2Proof

/-! ## Parameters of R4 -/

/-- CPOL: the level of SCK while idle (R110, D5; log 21). -/
opaque Config.cpol : Bool

/-- CPHA: false samples on the first edge of a bit, true on the second (R110, D5; log 21). -/
opaque Config.cpha : Bool

/-- FILL: the "don't-care output byte" of a receive (R78, D7; log 21). -/
opaque Config.fill : Byte

/-- DEV.next_ptr outside Sequential mode: how the chip's pointer moves in Byte and Page mode, from the MODE code, the
PAGE_SIZE code and the pointer (R61, D19, U5; log 11). -/
opaque Config.nextPtrOther (mode : BitVec 2) (page : BitVec 1) (p : Location) : Location

/-- Whether the chip stores what is written to the reserved status bits, or keeps its own (R64, D30, U6; log 16). -/
opaque Config.reservedStored : Bool

/-- DRIVE_PCT at the four codes the source gives no label, in tenths of a percent (R162, D36, U18; log 31). -/
opaque Config.drivePctOther : BitVec 3 → Nat

/-- LEN_MAX: absent, lengths are natural numbers without a bound, the default of R4 (D20, U20; log 22). -/
def Config.lenMax : Option Nat := none

/-- TIMEOUT: absent (R4, R109, D22). -/
def Config.timeout : Option Nat := none

/-- The four timing parameters of R4; no rule reads them (D29, U21). -/
inductive TimingName where
  | sck   -- T_SCK, the clock period
  | css   -- T_CSS, select to first clock edge
  | csh   -- T_CSH, last clock edge to deselect
  | gap   -- T_GAP, between bytes
  deriving DecidableEq, Repr

/-- A timing parameter less one: R4 makes them positive and says nothing else (D29). -/
opaque Config.timingLessOne : TimingName → Nat

/-- A timing parameter (R4). -/
def Config.timing (t : TimingName) : Nat := Config.timingLessOne t + 1

/-! ## Free values

Each takes the number of a draw (`State.draws`), so every draw is fresh (R56; log 7). -/

/-- A byte the environment chooses: a MISO byte no rule gives (R56 a), a location's content after a failed write (R68). -/
opaque Config.freeByte : Nat → Byte

/-- A whole Status Register nothing is known of: after a failed set_status (R141, D21) or an unspecified frame (R65). -/
opaque Config.freeStatus : Nat → StatusWord

/-- The ECS bit after a read of the array (R62, D31, U16). -/
opaque Config.freeEcs : Nat → BitVec 1

/-- The level of MOSI, and of MISO, outside an exchange (R111, U8; log 23). -/
opaque Config.freeMosi : Nat → Bool
@[inherit_doc Config.freeMosi] opaque Config.freeMiso : Nat → Bool

/-- What location `a` of the array holds when nothing is known of it since the draw numbered `gen`: one unknown byte for
each location (R35, R211, U7; log 8). -/
opaque Config.unknownByte (gen : Nat) (a : Nat) : Byte

end Sys2Proof
end

