-- ==== Sys2Proof/Syntax.lean ====
section
/-!
DEFINITION. The instructions: one constructor for each row of spec/opcode_table.json, in its three spaces (wire byte 0,
host operation, Transport primitive), and the two forms in which a request for one can be presented.
-/

namespace Sys2Proof

/-- The instructions of the opcode table. -/
inductive Instr where
  -- wire instructions (30_encoding R70), a frame each
  | write (addr : Address) (data : List Byte)            -- WRITE 0x02, format AW (R74)
  | read (addr : Address) (len : Nat)                    -- READ 0x03, format AR (R75)
  | readStatus                                           -- READ_STATUS 0x05, format SR (R76)
  | writeStatus (value : StatusWord)                     -- WRITE_STATUS 0x01, format SW (R77)
  | fastRead                                             -- FAST_READ 0x0B (R171)
  | enterDualIo                                          -- ENTER_DUAL_IO 0x3B (R172)
  | enterQuadIo                                          -- ENTER_QUAD_IO 0x38 (R173)
  | resetIo                                              -- RESET_IO 0xFF (R174)
  -- host operations (R88)
  | writeByte (addr : Address) (value : Byte)            -- 0x0 (R120)
  | sequentialWrite (addr : Address) (data : List Byte)  -- 0x1 (R121)
  | readByte (addr : Address)                            -- 0x2 (R122)
  | sequentialRead (addr : Address) (len : Nat)          -- 0x3 (R123)
  | getStatus                                            -- 0x4 (R140)
  | setStatus (value : StatusWord)                       -- 0x5 (R141)
  | setMode (arg : BitVec 3)                             -- 0x6 (R151)
  | setPageSize (arg : BitVec 3)                         -- 0x7 (R152)
  | setSlewRate (arg : BitVec 3)                         -- 0x8 (R153)
  | setDriveStrength (arg : BitVec 3)                    -- 0x9 (R154)
  | decodeStatus (value : StatusWord)                    -- 0xA (R160)
  | reservedOpB                                          -- 0xB (R89)
  | reservedOpCToF (low : BitVec 2)                      -- 0xC to 0xF, `low` is CMD.op[1:0] (R89)
  -- Transport primitives (40_transport R100 to R103), without a code
  | select
  | deselect
  | transfer (bytes : List Byte)
  | receive (len : Nat)
  deriving DecidableEq, Repr

/-- The tuple by which a host operation is presented to PSS (R87), and the command registers it is copied to (R14, R15). -/
structure Cmd where
  op : BitVec 4
  addr : Address
  len : Nat
  val8 : Byte
  val16 : StatusWord
  arg : BitVec 3
  wdata : List Byte
  deriving DecidableEq, Repr

/-- The tuple with every operand zero: an operation's unused operands are ignored (R14). -/
def Cmd.zero : Cmd := ⟨0, 0, 0, 0, 0, 0, []⟩

/-- A request as it is presented, before decoding: a tuple at the host port (R87), or the bytes of one wire frame from
`Sel` to `Desel` (R71; log 3). -/
inductive Code where
  | host (c : Cmd)
  | frame (bytes : List Byte)
  deriving DecidableEq, Repr

end Sys2Proof
end

