-- ==== Sys2Proof/WellFormed.lean ====
section
/-!
DEFINITION. Which instructions can be spelled in an encoding space. Operand widths are in the types; what remains is that
a Transport primitive "has no code in any encoding space and cannot be issued by the host" (30_encoding R89).
-/

namespace Sys2Proof

/-- The instruction has an encoding: it is a wire instruction (R70) or a host operation (R88), not a primitive (R89). -/
def Instr.wellFormed : Instr → Bool
  | .write _ _ | .read _ _ | .readStatus | .writeStatus _ => true
  | .fastRead | .enterDualIo | .enterQuadIo | .resetIo => true
  | .writeByte _ _ | .sequentialWrite _ _ | .readByte _ | .sequentialRead _ _ => true
  | .getStatus | .setStatus _ => true
  | .setMode _ | .setPageSize _ | .setSlewRate _ | .setDriveStrength _ => true
  | .decodeStatus _ | .reservedOpB | .reservedOpCToF _ => true
  | .select => false
  | .deselect => false
  | .transfer _ => false
  | .receive _ => false

end Sys2Proof
end

