-- ==== Sys2Proof/Decode.lean ====
section
/-!
DEFINITION. The decoder of requests, total and rejecting by name, and the encoder (30_encoding). The wire codes and the
splits of the address and the status value stand here, since PSS, the chip and the encoder share them.
-/

namespace Sys2Proof

/-! ## Codes of R70 -/

def codeWriteStatus : Byte := 0x01
def codeWrite : Byte := 0x02
def codeRead : Byte := 0x03
def codeReadStatus : Byte := 0x05
def codeFastRead : Byte := 0x0B
def codeEnterQuadIo : Byte := 0x38
def codeEnterDualIo : Byte := 0x3B
def codeResetIo : Byte := 0xFF

/-! ## Operand splits (R81 to R83) -/

/-- AH = {0b00, A[21:16]} (R81). -/
def addrHigh (a : Address) : Byte := (0 : BitVec 2) ++ a.extractLsb' 16 6

/-- AM = A[15:8] (R81). -/
def addrMid (a : Address) : Byte := a.extractLsb' 8 8

/-- AL = A[7:0] (R81). -/
def addrLow (a : Address) : Byte := a.extractLsb' 0 8

/-- Hdr(c, A) = [c, AH, AM, AL] (R82). -/
def header (c : Byte) (a : Address) : List Byte := [c, addrHigh a, addrMid a, addrLow a]

/-- The 24-bit address field a frame carries, most significant byte first (R44). -/
def joinAddress (ah am al : Byte) : BitVec 24 := ah ++ am ++ al

/-- SH = S[15:8] (R83). -/
def statusHigh (v : StatusWord) : Byte := v.extractLsb' 8 8

/-- SL = S[7:0] (R83). -/
def statusLow (v : StatusWord) : Byte := v.extractLsb' 0 8

/-- S = {r0, r1} (R83). -/
def joinStatus (r0 r1 : Byte) : StatusWord := r0 ++ r1

/-! ## Decoding -/

/-- Why a request is no instruction. -/
inductive DecodeError where
  /-- A frame without its instruction byte (R71). -/
  | emptyFrame
  /-- The first byte is none of the eight codes of R70. -/
  | unknownCode (c : Byte)
  /-- The bytes after the code have not the code's shape (R74 to R77); for an unimplemented code there is no shape (R170). -/
  | frameShape (c : Byte)
  /-- The two top bits of AH are not 0 (R81). -/
  | addressTopBits (ah : Byte)
  /-- CMD.wdata has not CMD.len bytes (R15). -/
  | payloadLength (len : Nat)
  deriving DecidableEq, Repr

/-- What decoding answers. -/
inductive Decoded where
  | instr (i : Instr)
  | bad (e : DecodeError)
  deriving DecidableEq, Repr

/-- The address operand of a frame: 22 significant bits in a 24-bit field, the top two 0 (R81). -/
def decodeAddress (ah am al : Byte) (k : Address → Instr) : Decoded :=
  if ah.extractLsb' 6 2 = 0 then .instr (k ((joinAddress ah am al).setWidth 22)) else .bad (.addressTopBits ah)

/-- A frame of format AW (R74). -/
def decodeWriteFrame (c : Byte) : List Byte → Decoded
  | ah :: am :: al :: data => decodeAddress ah am al fun a => .write a data
  | _ => .bad (.frameShape c)

/-- A frame of format AR (R75): each byte after the address is a fill byte, whatever its value (R78). -/
def decodeReadFrame (c : Byte) : List Byte → Decoded
  | ah :: am :: al :: fills => decodeAddress ah am al fun a => .read a fills.length
  | _ => .bad (.frameShape c)

/-- A frame of format SR (R76): two fill bytes. -/
def decodeReadStatusFrame (c : Byte) : List Byte → Decoded
  | [_, _] => .instr .readStatus
  | _ => .bad (.frameShape c)

/-- A frame of format SW (R77). -/
def decodeWriteStatusFrame (c : Byte) : List Byte → Decoded
  | [sh, sl] => .instr (.writeStatus (joinStatus sh sl))
  | _ => .bad (.frameShape c)

/-- An unimplemented code has no frame shape: only the bare code names it (R170). -/
def decodeBareCode (c : Byte) (i : Instr) : List Byte → Decoded
  | [] => .instr i
  | _ => .bad (.frameShape c)

/-- The wire space (R70): the first byte of the frame is the code, all eight bits of it. -/
def decodeFrame : List Byte → Decoded
  | [] => .bad .emptyFrame
  | c :: rest =>
    if c = codeWrite then decodeWriteFrame c rest
    else if c = codeRead then decodeReadFrame c rest
    else if c = codeReadStatus then decodeReadStatusFrame c rest
    else if c = codeWriteStatus then decodeWriteStatusFrame c rest
    else if c = codeFastRead then decodeBareCode c .fastRead rest
    else if c = codeEnterDualIo then decodeBareCode c .enterDualIo rest
    else if c = codeEnterQuadIo then decodeBareCode c .enterQuadIo rest
    else if c = codeResetIo then decodeBareCode c .resetIo rest
    else .bad (.unknownCode c)

/-- The host space (R88, R89): CMD.op selects, the operands the operation uses are taken. -/
def decodeHost (c : Cmd) : Decoded :=
  match c.op.toNat with
  | 0x0 => .instr (.writeByte c.addr c.val8)
  | 0x1 =>
    if c.wdata.length = c.len then .instr (.sequentialWrite c.addr c.wdata) else .bad (.payloadLength c.len)
  | 0x2 => .instr (.readByte c.addr)
  | 0x3 => .instr (.sequentialRead c.addr c.len)
  | 0x4 => .instr .getStatus
  | 0x5 => .instr (.setStatus c.val16)
  | 0x6 => .instr (.setMode c.arg)
  | 0x7 => .instr (.setPageSize c.arg)
  | 0x8 => .instr (.setSlewRate c.arg)
  | 0x9 => .instr (.setDriveStrength c.arg)
  | 0xA => .instr (.decodeStatus c.val16)
  | 0xB => .instr .reservedOpB
  | _ => .instr (.reservedOpCToF (c.op.extractLsb' 0 2))

/-- Decode a request. -/
def decode : Code → Decoded
  | .host c => decodeHost c
  | .frame bytes => decodeFrame bytes

/-! ## Encoding -/

/-- The request that spells an instruction, none for a Transport primitive (R89). A receive's fill bytes are FILL (R78). -/
def encode : Instr → Option Code
  | .write a data => some (.frame (header codeWrite a ++ data))
  | .read a n => some (.frame (header codeRead a ++ List.replicate n Config.fill))
  | .readStatus => some (.frame [codeReadStatus, Config.fill, Config.fill])
  | .writeStatus v => some (.frame [codeWriteStatus, statusHigh v, statusLow v])
  | .fastRead => some (.frame [codeFastRead])
  | .enterDualIo => some (.frame [codeEnterDualIo])
  | .enterQuadIo => some (.frame [codeEnterQuadIo])
  | .resetIo => some (.frame [codeResetIo])
  | .writeByte a v => some (.host { Cmd.zero with op := 0x0, addr := a, val8 := v })
  | .sequentialWrite a data =>
    some (.host { Cmd.zero with op := 0x1, addr := a, len := data.length, wdata := data })
  | .readByte a => some (.host { Cmd.zero with op := 0x2, addr := a })
  | .sequentialRead a n => some (.host { Cmd.zero with op := 0x3, addr := a, len := n })
  | .getStatus => some (.host { Cmd.zero with op := 0x4 })
  | .setStatus v => some (.host { Cmd.zero with op := 0x5, val16 := v })
  | .setMode x => some (.host { Cmd.zero with op := 0x6, arg := x })
  | .setPageSize x => some (.host { Cmd.zero with op := 0x7, arg := x })
  | .setSlewRate x => some (.host { Cmd.zero with op := 0x8, arg := x })
  | .setDriveStrength x => some (.host { Cmd.zero with op := 0x9, arg := x })
  | .decodeStatus v => some (.host { Cmd.zero with op := 0xA, val16 := v })
  | .reservedOpB => some (.host { Cmd.zero with op := 0xB })
  | .reservedOpCToF low => some (.host { Cmd.zero with op := (0b11 : BitVec 2) ++ low })
  | .select => none
  | .deselect => none
  | .transfer _ => none
  | .receive _ => none

/-! ## The opcode table's numbering of bits (log 25) -/

/-- Byte `k` of a word of the table: its bits `8k+7` to `8k`. -/
def tableByte (w k : Nat) : Byte := BitVec.ofNat 8 (w >>> (8 * k))

/-- How many bytes the shortest frame of a code has that moves everything its format can move: the header and one data
byte (R74, R75), three bytes (R76, R77), the bare code. -/
def shortestFrame (c : Byte) : Nat :=
  if c = codeWrite ∨ c = codeRead then 5 else if c = codeReadStatus ∨ c = codeWriteStatus then 3 else 1

/-- The wire frame a table word stands for: its bytes, then bytes of zeros up to the format's length. -/
def tableFrame (nbits w : Nat) : List Byte :=
  let given := (List.range (nbits / 8)).map (tableByte w)
  given ++ List.replicate (shortestFrame (tableByte w 0) - given.length) 0

/-- The request a table word stands for. A word shorter than a byte is a CMD.op selector; a byte is the code of a frame,
and where no wire instruction has it, a selector (the two spaces overlap, log 25). -/
def tableCode (nbits w : Nat) : Code :=
  if nbits < 8 then .host { Cmd.zero with op := BitVec.ofNat 4 w }
  else match decodeFrame (tableFrame nbits w) with
    | .instr _ => .frame (tableFrame nbits w)
    | .bad _ => if w < 16 then .host { Cmd.zero with op := BitVec.ofNat 4 w } else .frame (tableFrame nbits w)

/-- The instruction the decoder reads from a table word. -/
def decodeTableWord (nbits w : Nat) : Option Instr :=
  match decode (tableCode nbits w) with
  | .instr i => some i
  | .bad _ => none

end Sys2Proof
end

