-- ==== Sys2Proof/Machine/State.lean ====
section
/-!
DEFINITION. The state: all that 10_state gives PSS and its chip, what the environment and the host will do, and the model's
own counters, as plain data; the reasons a step can stop; the state after reset (10_state R35).
-/

namespace Sys2Proof.Machine

/-! ## PSS -/

/-- SES (R12). -/
inductive Session where
  | idle
  | selected
  deriving DecidableEq, Repr

/-- The phases of the sequencer (R18). -/
inductive Phase where
  | ready | check | sel1 | tx1 | rx1 | desel1 | modify | sel2 | tx2 | desel2 | done
  deriving DecidableEq, Repr

/-- SEQ = (phase, idx, bit) (R18). -/
structure Seq where
  phase : Phase
  idx : Nat
  bit : Fin 8
  deriving DecidableEq, Repr

/-- The levels of SCK, MOSI and MISO (R11) and the shift register SHR (R19). -/
structure Lines where
  sck : Bool
  mosi : Bool
  miso : Bool
  shr : Byte
  deriving DecidableEq, Repr

/-- The failure kinds in RES.err (60_exceptions R181), in the order of their codes. -/
inductive ErrKind where
  | success
  | shortTransfer
  | invalidArgument
  | timeoutReserved
  deriving DecidableEq, Repr

/-- The code of a failure kind in RES.err (R181). -/
def ErrKind.code : ErrKind → BitVec 2
  | .success => 0
  | .shortTransfer => 1
  | .invalidArgument => 2
  | .timeoutReserved => 3

/-- RES.fields (R16): the six fields decode_status extracts. -/
structure Fields where
  mode : BitVec 2
  ecs : BitVec 1
  protocol : BitVec 2
  pageSize : BitVec 1
  slew : BitVec 2
  drive : BitVec 3
  deriving DecidableEq, Repr

/-- The result registers (R16, R17). -/
structure Res where
  ok : Bool
  err : ErrKind
  count : Nat
  val8 : Byte
  val16 : StatusWord
  fields : Fields
  rbuf : List Byte
  deriving DecidableEq, Repr

/-- The sequencer's working values inside one operation. -/
structure Work where
  /-- The count of the last Transfer (R102). -/
  n : Nat
  /-- The bytes of the last Receive (R103). -/
  r : List Byte
  /-- The o bytes of the session's calls so far, sent or still to be sent (R71). -/
  out : List Byte
  /-- How many response bytes the frame in progress has beyond those calls (R73): a read whose header is still going out. -/
  due : Nat
  deriving DecidableEq, Repr

/-- An event of TRACE (00_scope 6.5, R20). -/
inductive BusEvent where
  | sel
  | x (o i : Byte)
  | desel
  deriving DecidableEq, Repr

/-! ## The chip -/

/-- The direction of an array frame. -/
inductive Dir where
  | write
  | read
  deriving DecidableEq, Repr

/-- DEV.FRM: what the chip expects next in the frame it is receiving (R33, 20_memory R57). -/
inductive FramePos where
  /-- No frame: chip-select is deasserted. -/
  | noFrame
  /-- Exchange 0: the instruction code. -/
  | code
  /-- Exchange 1 of an array frame: AH. -/
  | addrHigh (k : Dir)
  /-- Exchange 2: AM. -/
  | addrMid (k : Dir) (ah : Byte)
  /-- Exchange 3: AL. -/
  | addrLow (k : Dir) (ah am : Byte)
  /-- Exchange 4 onward: data at DEV.PTR. -/
  | data (k : Dir)
  /-- Exchange 1 of READ_STATUS. -/
  | statusOutHigh
  /-- Exchange 2 of READ_STATUS. -/
  | statusOutLow
  /-- Exchange 1 of WRITE_STATUS: SH. -/
  | statusInHigh
  /-- Exchange 2 of WRITE_STATUS: SL. -/
  | statusInLow (sh : Byte)
  /-- A status frame with all its exchanges done. -/
  | complete
  /-- PSS's Transfer or Receive fell short: the frame ends here. -/
  | cut
  /-- An array frame while MODE holds the reserved code (93 U4). -/
  | reservedMode
  /-- A frame the source defines nothing of (R65). -/
  | lost
  deriving DecidableEq, Repr

/-- What the frame in progress has fetched from the chip: it decides whether ECS may change when the frame ends (R51, R62;
log 9). -/
inductive Fetched where
  | nothing
  | array
  | status
  deriving DecidableEq, Repr

/-- What is known of DEV.MEM: the bytes of known locations, by rising address, none twice. An unlisted location holds an
unknown byte (R31, R35; log 8). -/
abbrev Memory := List Host.Cell

/-- DEV: the chip (R22, R31 to R33). -/
structure Dev where
  /-- DEV.STATUS less ECS, whose place (bit 13) holds 0 here (R22). -/
  config : StatusWord
  /-- ECS, bit 13 of DEV.STATUS (R24), in a place of its own: only the chip changes it. `Dev.status` is the whole register. -/
  ecs : BitVec 1
  /-- DEV.MEM (R31). -/
  mem : Memory
  /-- The draw that gave the unlisted locations their unknown bytes (log 8). -/
  gen : Nat
  /-- DEV.PTR (R32). -/
  ptr : Location
  /-- DEV.FRM (R33). -/
  frm : FramePos
  /-- What the frame in progress has fetched (R51, R62). -/
  fetched : Fetched
  deriving DecidableEq, Repr

/-! ## The environment and the host -/

/-- What the environment chooses for one Transfer or Receive call (R56 b): it is fault-free, it ends after at most `n`
bytes, or it stalls in the exchange after `n` bytes with `bits` bits done (R109). -/
inductive CallDraw where
  | full
  | short (n : Nat)
  | stall (n : Nat) (bits : Fin 8)
  deriving DecidableEq, Repr

/-- The environment's choices to come, as plain data. -/
structure Env where
  /-- For the coming Transfer and Receive calls; when none is left, a call is fault-free (R56 b; log 5). -/
  calls : List CallDraw
  /-- Whether the reference device answers (R56 a, R37; log 6). -/
  plugged : Bool
  /-- With no device plugged in, the coming MISO bytes; when none is left, a free value (R56 a; log 6). -/
  miso : List Byte
  /-- ECS after the coming reads of the array; when none is left, a free value (R62; log 9). -/
  ecs : List (BitVec 1)
  /-- ECS after the coming reads of the Status Register; when none is left, it stays (R51, R140; log 9). -/
  ecsAfterStatus : List (BitVec 1)
  deriving DecidableEq, Repr

/-- What comes from outside (R36, R210, R211; log 2). -/
inductive Input where
  /-- A request: the host offers an operation (R36), or a bare frame is asked of TR (log 3). -/
  | request (c : Code)
  /-- The host fills RES.rbuf, which it owns between operations (R17, R36). -/
  | buffer (bytes : List Byte)
  /-- The reset input of PSS is asserted (R210). -/
  | reset
  /-- The chip is powered up (R211). -/
  | powerUp
  deriving DecidableEq, Repr

end Sys2Proof.Machine

namespace Sys2Proof.Machine

/-- The state of PSS, of its chip, and of what drives them. -/
structure State where
  /-- CS_n, active low (R11). -/
  csN : Bool
  /-- SCK, MOSI, MISO and SHR (R11, R19). -/
  lines : Lines
  /-- SES (R12). -/
  ses : Session
  /-- BUSY (R13). -/
  busy : Bool
  /-- An exchange has stalled; nothing more happens before a reset (R109). -/
  stalled : Bool
  /-- CMD.* (R14, R15). -/
  cmd : Cmd
  /-- RES.* (R16, R17). -/
  res : Res
  /-- SEQ (R18). -/
  seq : Seq
  /-- Working values of the running operation (R102, R103). -/
  work : Work
  /-- TRACE, oldest first (R20). -/
  trace : List BusEvent
  /-- DEV (R22, R31 to R33). -/
  dev : Dev
  /-- The environment's choices (R56). -/
  env : Env
  /-- The model's own: the number of the next free value (log 7). -/
  draws : Nat
  /-- What the host and the environment will do, oldest first (log 2). -/
  inputs : List Input
  deriving DecidableEq, Repr

/-- Why the machine stops in a state the spec says never arises: PSS guarantees the preconditions of the primitives (R105),
and the spec gives a primitive no effect outside them. Raised by the primitives, and by an operation begun while the
session is open; safe. -/
inductive Fault where
  /-- `Select()` with `SES = Selected` (R100, R105 a). -/
  | selectWhileSelected
  /-- `Deselect()` with `SES = Idle` (R101, R105 c). -/
  | deselectWhileIdle
  /-- `Transfer` or `Receive` with `SES = Idle` (R102, R103, R105 b). -/
  | exchangeWhileIdle
  deriving DecidableEq, Repr

/-- Why a request is not run. -/
inductive Refusal where
  /-- An instruction without a meaning yet; raised by `exec` alone; safe. -/
  | notModelled (mnemonic : String)
  /-- "A model must not give them a meaning: a request to perform one is refused" (R170): the code of an unimplemented wire
  instruction; raised by FAST_READ, ENTER_DUAL_IO, ENTER_QUAD_IO and RESET_IO; safe. -/
  | unimplementedCode (c : Byte)
  /-- The request spells no instruction; raised by `step`; safe (log 26). -/
  | undecodable (e : DecodeError)
  deriving DecidableEq, Repr

/-- The chip right after power-up (R211): the register at its default 0x4014, the array unknown since draw `gen`. -/
def Dev.powerUp (gen : Nat) : Dev := ⟨0x4014, 0, [], gen, 0, .noFrame, .nothing⟩

/-- SEQ = (Ready, 0, 7) (R35). -/
def Seq.ready : Seq := ⟨.ready, 0, 7⟩

/-- The machine right after reset of PSS and power-up of the chip (R35). The registers R35 leaves unspecified hold zero
(log 19); no input is pending. -/
def State.reset : State where
  csN := true
  lines := ⟨Config.cpol, false, false, 0⟩
  ses := .idle
  busy := false
  stalled := false
  cmd := Cmd.zero
  res := ⟨false, .success, 0, 0, 0, ⟨0, 0, 0, 0, 0, 0⟩, []⟩
  seq := Seq.ready
  work := ⟨0, [], [], 0⟩
  trace := []
  dev := Dev.powerUp 0
  env := ⟨[], true, [], [], []⟩
  draws := 1
  inputs := []

end Sys2Proof.Machine
end

