-- ==== Sys2Proof/Machine/Memory.lean ====
section
/-!
DEFINITION. What is known of the chip's array (20_memory R40), as a list of cells in one canonical form: addresses strictly
rising, all below 2^19. A cell that is not listed has no known byte (log 8), so no cell equals what an unlisted one reads as.
-/

namespace Sys2Proof.Machine

/-- The number of locations of the array (R40). -/
def arraySize : Nat := 524288

/-- The cells from address `lo` on are in canonical form. -/
def Memory.wfFrom (lo : Nat) : Memory → Bool
  | [] => true
  | c :: m => decide (lo ≤ c.1) && decide (c.1 < arraySize) && Memory.wfFrom (c.1 + 1) m

/-- The canonical form. -/
def Memory.wf (m : Memory) : Bool := Memory.wfFrom 0 m

/-- The known byte at an address, none where nothing is known. -/
def Memory.read (m : Memory) (a : Nat) : Option Byte :=
  match m with
  | [] => none
  | c :: m => if a = c.1 then some c.2 else Memory.read m a

/-- Write one byte, keeping the cells in order. -/
def Memory.write (m : Memory) (a : Nat) (b : Byte) : Memory :=
  match m with
  | [] => [(a, b)]
  | c :: m => if a < c.1 then (a, b) :: c :: m else if a = c.1 then (a, b) :: m else c :: Memory.write m a b

end Sys2Proof.Machine
end

