-- ==== Sys2Proof/Machine/Operands.lean ====
section
/-!
DEFINITION. The operand forms: the fields of the Status Register with their extract and insert (SRB; 30_encoding R84, R85),
the argument check of the field setters (42_status_ops R149), and the frames of the four formats (R73 to R77).
-/

namespace Sys2Proof.Machine

/-- The named fields of the Status Register (10_state R22). -/
inductive Field where
  | mode
  | ecs
  | protocol
  | pageSize
  | slew
  | drive
  deriving DecidableEq, Repr

/-- MASK_F (R22). -/
def Field.mask : Field → StatusWord
  | .mode => 0xC000
  | .ecs => 0x2000
  | .protocol => 0x1800
  | .pageSize => 0x0100
  | .slew => 0x0018
  | .drive => 0x0007

/-- SH_F (R22). -/
def Field.shift : Field → Nat
  | .mode => 14
  | .ecs => 13
  | .protocol => 11
  | .pageSize => 8
  | .slew => 3
  | .drive => 0

/-- The width of a field in bits (R22). -/
def Field.width : Field → Nat
  | .mode => 2
  | .ecs => 1
  | .protocol => 2
  | .pageSize => 1
  | .slew => 2
  | .drive => 3

/-- Extract(F, S) = (S & MASK_F) >> SH_F (R84). -/
def extractField (f : Field) (s : StatusWord) : StatusWord := (s &&& f.mask) >>> f.shift

/-- Insert(F, S, v) = (S & ~MASK_F) | ((zext_16(v) << SH_F) & MASK_F) (R85). -/
def insertField (f : Field) (s v : StatusWord) : StatusWord := (s &&& ~~~f.mask) ||| ((v <<< f.shift) &&& f.mask)

/-- The reserved bits 10:9 and 7:5 (R22, R92). -/
def reservedMask : StatusWord := 0x06E0

/-- The five writable fields (R64). -/
def writableMask : StatusWord := 0xD91F

/-- All six fields as decode_status reports them (R160). -/
def fieldsOf (s : StatusWord) : Fields where
  mode := (extractField .mode s).setWidth 2
  ecs := (extractField .ecs s).setWidth 1
  protocol := (extractField .protocol s).setWidth 2
  pageSize := (extractField .pageSize s).setWidth 1
  slew := (extractField .slew s).setWidth 2
  drive := (extractField .drive s).setWidth 3

/-- MODE of a status value (R23). -/
def modeOf (s : StatusWord) : BitVec 2 := (fieldsOf s).mode

/-- PROTOCOL of a status value (R25). -/
def protocolOf (s : StatusWord) : BitVec 2 := (fieldsOf s).protocol

/-- PAGE_SIZE of a status value (R27). -/
def pageSizeOf (s : StatusWord) : BitVec 1 := (fieldsOf s).pageSize

/-- MODE = Sequential (R23). -/
def modeSequential : BitVec 2 := 0b01

/-- The code of MODE outside the enumeration (R23, R91). -/
def modeReserved : BitVec 2 := 0b11

/-- PROTOCOL = SPI (R25). -/
def protocolSpi : BitVec 2 := 0b00

/-- The check of a setter's `CMD.arg` (R149): the bits above the field's width are 0, and the value is in the field's
enumeration; MODE has no value 11 (R91). -/
def argValid (f : Field) (arg : BitVec 3) : Bool :=
  decide (arg.toNat < 2 ^ f.width) && !(decide (f = .mode) && decide (arg = 0b011))

/-! ## Frames -/

/-- The WRITE frame of format AW (R74). -/
def writeFrame (a : Address) (data : List Byte) : List Byte := header codeWrite a ++ data

/-- The sent part of the READ frame of format AR (R75). -/
def readHeader (a : Address) : List Byte := header codeRead a

/-- The sent part of the READ_STATUS frame of format SR (R76). -/
def readStatusHeader : List Byte := [codeReadStatus]

/-- The WRITE_STATUS frame of format SW (R77). -/
def writeStatusFrame (v : StatusWord) : List Byte := [codeWriteStatus, statusHigh v, statusLow v]

/-- The value returned for a byte that may not have been received: 0x00 (R122, R140). -/
def receivedByte (r : List Byte) (j : Nat) : Byte := r.getD j 0x00

/-- The status value assembled from what arrived (R140). -/
def receivedStatus (r : List Byte) : StatusWord := joinStatus (receivedByte r 0) (receivedByte r 1)

/-- RES.rbuf after `r` arrived: the first bytes replaced, the others unchanged (R17, R123). -/
def fillBuffer (r rbuf : List Byte) : List Byte := r ++ rbuf.drop r.length

end Sys2Proof.Machine
end

