-- ==== Sys2Proof/Machine/Device.lean ====
section
/-!
DEFINITION. The reference device DEV (20_memory R57 to R65): what the chip answers on MISO, what each completed exchange does
to it, and what becomes of it when a frame is cut.
-/

namespace Sys2Proof.Machine

/-- The byte at a location of the array; unknown until something is written there (R31, R35; log 8). -/
def Dev.byteAt (d : Dev) (a : Nat) : Byte := (d.mem.read a).getD (Config.unknownByte d.gen a)

/-- `DEV.MEM[p] <- b`. -/
def Dev.setByte (d : Dev) (p : Location) (b : Byte) : Dev := { d with mem := d.mem.write p.toNat b }

/-- DEV.next_ptr (R60, R61): plus one modulo 2^19 in Sequential mode, uninterpreted in Byte and Page mode (logs 10, 11). -/
def nextPtr (mode : BitVec 2) (page : BitVec 1) (p : Location) : Location :=
  if mode = modeSequential then p + 1 else Config.nextPtrOther mode page p

/-- DEV.STATUS, all 16 bits (R22). -/
def Dev.status (d : Dev) : StatusWord := insertField .ecs d.config (d.ecs.setWidth 16)

/-- `DEV.STATUS <- v`, ECS included; only where the whole register holds any value (R65, R141). -/
def Dev.setStatus (v : StatusWord) (d : Dev) : Dev :=
  { d with config := v &&& ~~~Field.ecs.mask, ecs := (fieldsOf v).ecs }

/-- `DEV.PTR <- DEV.next_ptr(MODE, PAGE_SIZE, DEV.PTR)` (R58, R59). -/
def Dev.advance (d : Dev) : Dev := { d with ptr := nextPtr (modeOf d.config) (pageSizeOf d.config) d.ptr }

/-- R, the reserved bits after a status write of `w` over `old` (R64): `w`'s if the chip stores them, else its own; where the
two agree the parameter does not matter (D30; log 16). -/
def reservedAfter (w old : StatusWord) : StatusWord :=
  if w &&& reservedMask = old &&& reservedMask then old &&& reservedMask
  else if Config.reservedStored then w &&& reservedMask else old &&& reservedMask

/-- The Status Register, less ECS, after a completed WRITE_STATUS of `w` (R64): ECS keeps its value, since it is none of the
bits written. -/
def configAfterWrite (w old : StatusWord) : StatusWord := (w &&& writableMask) ||| reservedAfter w old

/-- The location a 24-bit address field reaches: `{AH, AM, AL}[18:0]` (R53, R57; log 15). -/
def locationOf (ah am al : Byte) : Location := (joinAddress ah am al).setWidth 19

/-- A `Sel` event (R57): a new frame starts, one the source defines only while PROTOCOL is SPI (R65). -/
def Dev.startFrame (d : Dev) : Dev :=
  { d with frm := if protocolOf d.config = protocolSpi then .code else .lost, fetched := .nothing }

/-- The position after the code of an array frame; the reserved MODE leaves what follows unspecified (93 U4; log 12). -/
def Dev.arrayFrame (d : Dev) (k : Dir) : FramePos :=
  if modeOf d.config = modeReserved then .reservedMode else .addrHigh k

/-- The position after the instruction code `o` (R57, R65). -/
def Dev.afterCode (d : Dev) (o : Byte) : FramePos :=
  if o = codeWrite then d.arrayFrame .write
  else if o = codeRead then d.arrayFrame .read
  else if o = codeReadStatus then .statusOutHigh
  else if o = codeWriteStatus then .statusInHigh
  else .lost

/-- The byte DEV puts on MISO in the exchange now starting: the array's byte at the pointer (R59), a byte of the Status
Register (R63), in every other place any byte, the free value numbered `n` (R57 to R65). -/
def Dev.answer (d : Dev) (n : Nat) : Byte :=
  match d.frm with
  | .data .read => d.byteAt d.ptr.toNat
  | .statusOutHigh => statusHigh d.status
  | .statusOutLow => statusLow d.status
  | _ => Config.freeByte n

/-- An exchange that put `o` on MOSI completes (R57 to R65). -/
def Dev.exchange (o : Byte) (d : Dev) : Dev :=
  match d.frm with
  | .noFrame => d
  | .code => { d with frm := d.afterCode o }
  | .addrHigh k => { d with frm := .addrMid k o }
  | .addrMid k ah => { d with frm := .addrLow k ah o }
  | .addrLow k ah am => { d with ptr := locationOf ah am o, frm := .data k }
  | .data .write => (d.setByte d.ptr o).advance
  | .data .read => { d.advance with fetched := .array }
  | .statusOutHigh => { d with frm := .statusOutLow, fetched := .status }
  | .statusOutLow => { d with frm := .complete }
  | .statusInHigh => { d with frm := .statusInLow o }
  | .statusInLow sh => { d with config := configAfterWrite (joinStatus sh o) d.config, frm := .complete }
  | .complete => { d with frm := .lost }
  | .cut => { d with frm := .lost }
  | .reservedMode => d
  | .lost => d

/-- Nothing is known of any location of the array any more. -/
def Dev.forgetArray (d : Dev) (n : Nat) : Dev := { d with mem := [], gen := n }

/-- The completed exchanges of some bytes, one after the other. -/
def Dev.exchanges (os : List Byte) (d : Dev) : Dev := os.foldl (fun d o => d.exchange o) d

/-- A `Desel` event (R57): the frame ends. ECS is drawn afresh after a frame that fetched from the array, and may
change after one that fetched from the register (R51, R62; log 9); `ecs` is the draw, `n` numbers the free values. After a
frame the source defines nothing of, the array and the register hold any value (R65); after an array frame in the reserved
MODE, the array and ECS (93 U4; logs 12, 13). -/
def Dev.endFrame (n : Nat) (ecs : BitVec 1) (d : Dev) : Dev :=
  match d.frm with
  | .lost => { (d.forgetArray n).setStatus (Config.freeStatus n) with frm := .noFrame, fetched := .nothing }
  | .reservedMode => { d.forgetArray n with ecs := ecs, frm := .noFrame, fetched := .nothing }
  | _ => { d with ecs := if d.fetched = .nothing then d.ecs else ecs, frm := .noFrame, fetched := .nothing }

/-- A byte `o` that was to be exchanged may have reached the chip in part: the location, or the register, it was meant for
holds any value afterwards (R68, R141, U10, U11; log 17). -/
def Dev.garbleByte (o : Byte) (n : Nat) (d : Dev) : Dev :=
  match d.frm with
  | .data .write => (d.setByte d.ptr (Config.freeByte n)).advance
  | .data .read => { (d.setByte d.ptr (Config.freeByte n)).advance with fetched := .array }
  | .statusOutHigh => { d.setStatus (Config.freeStatus n) with frm := .statusOutLow }
  | .statusOutLow => { d.setStatus (Config.freeStatus n) with frm := .complete }
  | .statusInLow _ => { d.setStatus (Config.freeStatus n) with frm := .complete }
  | _ => d.exchange o

/-- `Dev.garbleByte` for each byte of a list, with fresh free values. -/
def Dev.garble : List Byte → Nat → Dev → Dev
  | [], _, d => d
  | o :: os, n, d => Dev.garble os (n + 1) (d.garbleByte o n)

/-- The position of a frame that fell short; where the source defines nothing it stays so. -/
def FramePos.cutShort : FramePos → FramePos
  | .lost => .lost
  | .reservedMode => .reservedMode
  | .noFrame => .noFrame
  | _ => .cut

/-- A Transfer fell short and `rest` was not sent (R68, R141; log 17). -/
def Dev.fallShort (rest : List Byte) (n : Nat) (d : Dev) : Dev :=
  let g := Dev.garble rest n d
  { g with frm := g.frm.cutShort }

/-- Chip-select rises in the middle of the frame `out` because PSS is reset (R210, U10; log 18): any value for the locations
and the register the frame addressed. -/
def Dev.abandon (out : List Byte) (n : Nat) (ecs : BitVec 1) (d : Dev) : Dev :=
  match d.frm with
  | .lost => d.endFrame n ecs
  | .reservedMode => d.endFrame n ecs
  | .noFrame => d
  | _ => (Dev.garble out n { d with frm := .code }).endFrame (n + out.length) ecs

end Sys2Proof.Machine
end

