-- ==== Sys2Proof/Machine/Flags.lean ====
section
/-!
DEFINITION. The flag-like results (10_state R34): RES.ok and RES.err, written once by every operation at completion, and the
tests by which an operation succeeds (41_memory_ops R120 to R123, 42_status_ops R140, R141, R150).
-/

namespace Sys2Proof.Machine

/-- RES.ok <- 1, RES.err <- None. -/
def Res.succeed (r : Res) : Res := { r with ok := true, err := .success }

/-- RES.ok <- 0, RES.err <- K (60_exceptions R186 b). -/
def Res.fail (k : ErrKind) (r : Res) : Res := { r with ok := false, err := k }

/-- A write frame succeeded: all its bytes were transmitted (R120, R121, R141). -/
def sentAll (frame : List Byte) (w : Work) : Bool := decide (w.n = frame.length)

/-- A read frame succeeded: its header was transmitted and all `len` bytes were received (R122, R123, R140). -/
def receivedAll (hdr : List Byte) (len : Nat) (w : Work) : Bool :=
  decide (w.n = hdr.length) && decide (w.r.length = len)

end Sys2Proof.Machine
end

