-- ==== Sys2Proof/Machine/Ops.lean ====
section
/-!
DEFINITION. The named operations over the state: the byte exchange with its bits (40_transport R104, R110), the four
Transport primitives (R100 to R103), sessions (R105, R106, 41_memory_ops R125), acceptance and completion of an operation
(10_state R13, R37), and `raise`, the one exit of a failing operation (60_exceptions R186). PSS has no return from a trap
(R187).
-/

namespace Sys2Proof.Machine

/-! ## One bit (R104, R110) -/

/-- What happens on the wires within one bit. -/
inductive WireAct where
  /-- MOSI and MISO take the bit's levels. -/
  | drive (mosi miso : Bool)
  /-- The first edge of SCK. -/
  | lead
  /-- The second edge of SCK. -/
  | trail
  /-- MISO is sampled into the bottom of SHR. -/
  | sample
  deriving DecidableEq, Repr

/-- The order of a bit's acts in a clock mode (R110): with CPHA = 0 data stand before the first edge and are sampled on it,
with CPHA = 1 they change on the first edge and are sampled on the second. -/
def bitActs (cpha mosi miso : Bool) : List WireAct :=
  if cpha then [.lead, .drive mosi miso, .trail, .sample] else [.drive mosi miso, .lead, .sample, .trail]

/-- One act on the wires. -/
def WireAct.apply (l : Lines) : WireAct → Lines
  | .drive mosi miso => { l with mosi := mosi, miso := miso }
  | .lead => { l with sck := !Config.cpol }
  | .trail => { l with sck := Config.cpol }
  | .sample => { l with shr := (l.shr <<< 1) ||| (BitVec.ofBool l.miso).setWidth 8 }

/-- One clock cycle in which the chip's bit is `q` (R104). -/
def clockBit (q : Bool) (l : Lines) : Lines := (bitActs Config.cpha l.shr.msb q).foldl WireAct.apply l

/-- `k` clock cycles in which the chip shifts out `i`, most significant bit first (R45, D6; log 29). -/
def clockBits : Nat → Byte → Lines → Lines
  | 0, _, l => l
  | k + 1, i, l => clockBits k (i <<< 1) (clockBit i.msb l)

/-- MOSI and MISO outside an exchange: any level (R111, U8; log 23). -/
def Lines.release (n : Nat) (l : Lines) : Lines := { l with mosi := Config.freeMosi n, miso := Config.freeMiso n }

/-- `SHR <- o`, then `k` of the eight cycles (R104). -/
def shiftByte (k : Nat) (o i : Byte) (l : Lines) : Lines := clockBits k i { l with shr := o }

/-! ## One byte exchange (R104) -/

/-- The byte that comes in on MISO in the exchange now starting (R56 a): the reference device's, or with no device plugged in
the environment's (log 6). -/
def answer (s : State) : Byte :=
  if s.env.plugged then s.dev.answer s.draws else s.env.miso.headD (Config.freeByte s.draws)

/-- The environment after it has given a MISO byte. -/
def Env.answered (e : Env) : Env := if e.plugged then e else { e with miso := e.miso.tail }

/-- ECS as the environment leaves it at the end of the frame `d` is in (R51, R62; log 9): after a read of the Status Register
what the environment chooses, else as it is; after a read of the array a draw, `n` numbering the free value. -/
def Env.ecsAfter (e : Env) (d : Dev) (n : Nat) : BitVec 1 :=
  if d.fetched = .status then e.ecsAfterStatus.headD d.ecs else e.ecs.headD (Config.freeEcs n)

/-- The ECS draw that now comes. -/
def ecsDraw (s : State) : BitVec 1 := s.env.ecsAfter s.dev s.draws

/-- The environment after the frame `d` was in has ended: the ECS choice that was used is gone. -/
def Env.frameEnded (d : Dev) (e : Env) : Env :=
  if !e.plugged || decide (d.frm = .lost) then e
  else if d.frm = .reservedMode ∨ d.fetched = .array then { e with ecs := e.ecs.tail }
  else if d.fetched = .status then { e with ecsAfterStatus := e.ecsAfterStatus.tail }
  else e

/-- The chip after `f`, where the reference device is plugged in (R56 a; log 6). -/
def onDevice (f : Dev → Dev) (s : State) : Dev := if s.env.plugged then f s.dev else s.dev

/-- `Xchg(o)` completes: eight cycles, the event `X(o, i)`, idx plus one (R104, R107), and the chip's side. -/
def xchg (o : Byte) (s : State) : State :=
  { s with
    lines := (shiftByte 8 o (answer s) s.lines).release s.draws
    seq := { s.seq with idx := s.seq.idx + 1, bit := 7 }
    trace := s.trace ++ [.x o (answer s)]
    dev := onDevice (Dev.exchange o) s
    env := s.env.answered
    draws := s.draws + 1 }

/-- An exchange of `o` stalls with `bits` bits done: no event, no completion, and nothing after it (R109). That a stall falls
between two whole bits, so that SCK rests at CPOL in a hung machine, is the model's choice (log 33). -/
def stallIn (o : Byte) (bits : Fin 8) (s : State) : State :=
  { s with
    lines := (shiftByte bits.val o (answer s) s.lines).release s.draws
    seq := { s.seq with bit := 7 - bits }
    stalled := true
    draws := s.draws + 1 }

/-! ## The environment's choice for a call (R56 b) -/

/-- The choice for the coming call; fault-free when none is left (log 5). -/
def callDraw (s : State) : CallDraw := s.env.calls.headD .full

/-- How many bytes of `len` complete (R102, R103). -/
def CallDraw.limit (c : CallDraw) (len : Nat) : Nat :=
  match c with
  | .full => len
  | .short n => min n len
  | .stall n _ => min n len

/-- The chip's side of a call that fell short: what was not sent may have reached it in part (R68, R141; log 17). No bit of the
byte at which it fell short is clocked, and the lines stay as they are: the model's choice (93 U3; log 34). -/
def fallShort (rest : List Byte) (s : State) : State :=
  { s with dev := onDevice (Dev.fallShort rest s.draws) s, draws := s.draws + rest.length }

/-- The end of a call that stopped before the bytes `rest`; those of them that PSS itself supplies are `payload`. -/
def endCall (c : CallDraw) (rest payload : List Byte) (s : State) : State :=
  match rest, c with
  | [], _ => s
  | o :: _, .stall _ bits => stallIn o bits s
  | _ :: _, _ => fallShort payload s

/-! ## The Transport primitives (R100 to R103)

Each is defined for the state its precondition describes; in a stalled state nothing happens. -/

/-- `Select()` (R100). -/
def select (s : State) : State :=
  { s with
    csN := false
    ses := .selected
    work := { s.work with out := [], due := 0 }
    trace := s.trace ++ [.sel]
    dev := onDevice Dev.startFrame s }

/-- `Deselect()` (R101): it ends the frame for the chip whatever was sent. -/
def deselect (s : State) : State :=
  { s with
    csN := true
    ses := .idle
    work := { s.work with out := [], due := 0 }
    trace := s.trace ++ [.desel]
    dev := onDevice (Dev.endFrame s.draws (ecsDraw s)) s
    env := s.env.frameEnded s.dev
    draws := s.draws + 1 }

/-- The start of a call that is to exchange `out`: idx and bit at their start (R107), the choice taken. -/
def beginCall (out : List Byte) (s : State) : State :=
  { s with
    seq := { s.seq with idx := 0, bit := 7 }
    env := { s.env with calls := s.env.calls.tail }
    work := { s.work with out := s.work.out ++ out } }

/-- Send bytes one after the other, discarding what comes back (R102). -/
def send : List Byte → State → State
  | [], s => s
  | o :: os, s => send os { xchg o s with work := { s.work with n := s.work.n + 1 } }

/-- Send `k` times FILL, keeping what comes back (R103). -/
def collect : Nat → State → State
  | 0, s => s
  | k + 1, s => collect k { xchg Config.fill s with work := { s.work with r := s.work.r ++ [answer s] } }

/-- `n = Transfer(bytes)` (R102); `n` is left in `work.n`. -/
def transfer (bytes : List Byte) (s : State) : State :=
  if s.stalled then s
  else
    let c := callDraw s
    let b := beginCall bytes s
    let sent := send (bytes.take (c.limit bytes.length)) { b with work := { b.work with n := 0 } }
    endCall c (bytes.drop (c.limit bytes.length)) (bytes.drop (c.limit bytes.length)) sent

/-- `(r, m) = Receive(len)` (R103); `r` is left in `work.r`. -/
def receive (len : Nat) (s : State) : State :=
  if s.stalled then s
  else
    let c := callDraw s
    let b := beginCall (List.replicate len Config.fill) s
    let got := collect (c.limit len) { b with work := { b.work with r := [], due := b.work.due - len } }
    endCall c (List.replicate (len - c.limit len) Config.fill) [] got

/-! ## Sessions (R105, R106, 41_memory_ops R125) -/

/-- Enter a phase of the operation (R18, R107). -/
def enter (p : Phase) (s : State) : State := if s.stalled then s else { s with seq := ⟨p, 0, 7⟩ }

/-- `Deselect()` at the end of a session: on every exit path, and never after a stall (R106, R109). -/
def release (s : State) : State := if s.stalled then s else deselect s

/-- The session of a write frame: select, one Transfer, deselect. -/
def writeSession (sel tx desel : Phase) (frame : List Byte) (s : State) : State :=
  release (enter desel (transfer frame (enter tx (select (enter sel s)))))

/-- The receive part of a read frame, skipped after a short header (R125). -/
def receivePart (hdr : List Byte) (len : Nat) (s : State) : State :=
  if s.stalled then s
  else if s.work.n = hdr.length then receive len (enter .rx1 s)
  else { s with work := { s.work with r := [] } }

/-- A frame with `len` response bytes has begun (R71, R73). -/
def announce (len : Nat) (s : State) : State := { s with work := { s.work with due := len } }

/-- The session of a read frame: select, Transfer of the header, Receive, deselect. -/
def readSession (hdr : List Byte) (len : Nat) (s : State) : State :=
  release (enter .desel1 (receivePart hdr len (transfer hdr (announce len (enter .tx1 (select (enter .sel1 s)))))))

/-- All o bytes of the frame in progress, sent or still to be sent, the response part's FILL among them (R71, R78). -/
def Work.frame (w : Work) : List Byte := w.out ++ List.replicate w.due Config.fill

/-! ## Acceptance and completion (R13, R37) -/

/-- An operation is running, or the machine hangs in one (R13, R109). -/
def State.heldOff (s : State) : Bool := s.busy || s.stalled

/-- PSS takes a request: BUSY <- 1, and the operands the operation uses go to the command registers (R13, R36). -/
def accept (operands : Cmd → Cmd) (s : State) : State := { s with busy := true, cmd := operands s.cmd }

/-- SEQ <- Ready, BUSY <- 0 (R37). -/
def finish (s : State) : State := { s with seq := Seq.ready, busy := false }

/-- `raise K` (60_exceptions R186): release chip-select if it is asserted, write RES.ok and RES.err, SEQ Ready, BUSY 0.
Nothing is saved, no mode changes, control goes nowhere. -/
def raise (k : ErrKind) (s : State) : State :=
  let d := if s.ses = .selected then deselect s else s
  finish { d with res := d.res.fail k }

/-- A successful operation completes. -/
def complete (s : State) : State := finish { s with res := s.res.succeed }

/-- The end of an operation: complete, or raise ShortTransfer (R182); after a stall there is no end (R109). -/
def settle (ok : Bool) (s : State) : State :=
  if s.stalled then s else if ok then complete s else raise .shortTransfer s

/-- Phase Done: write result registers (R18); not after a stall. -/
def putRes (f : Work → Res → Res) (s : State) : State :=
  if s.stalled then s else { s with res := f s.work s.res, seq := ⟨.done, 0, 7⟩ }

/-- What a request that uses the bus comes to. While an operation runs it "is not accepted and has no effect" (R13); with the
session open and no operation running, a state PSS never is in (R105 d), `Select()` has no meaning. -/
def onBus (operands : Cmd → Cmd) (run : State → State) (s : State) : Host.Outcome State Fault Refusal :=
  if s.heldOff then .next s
  else if s.ses = .selected then .fault .selectWhileSelected
  else .next (run (accept operands s))

/-- What a request that uses no bus comes to. -/
def offBus (operands : Cmd → Cmd) (run : State → State) (s : State) : Host.Outcome State Fault Refusal :=
  if s.heldOff then .next s else .next (run (accept operands s))

end Sys2Proof.Machine
end

