-- ==== Sys2Proof/Machine/Array.lean ====
section
/-!
DEFINITION. The array operations (41_memory_ops R120 to R123): write_byte, sequential_write, read_byte, sequential_read, each
one bracketed session.
-/

namespace Sys2Proof.Machine

/-- The session and the results of a write operation: RES.count is the frame bytes sent, header included (R120, R121). -/
def runWrite (frame : List Byte) (s : State) : State :=
  let t := putRes (fun w r => { r with count := w.n }) (writeSession .sel1 .tx1 .desel1 frame s)
  settle (sentAll frame t.work) t

/-- The session and the results of a read operation; `f` writes the registers the operation has (R122, R123, R140). -/
def runRead (hdr : List Byte) (len : Nat) (f : Work → Res → Res) (s : State) : State :=
  let t := putRes f (readSession hdr len s)
  settle (receivedAll hdr len t.work) t

/-- write_byte(A, V) (R120). -/
def execWriteByte (a : Address) (v : Byte) (s : State) : Host.Outcome State Fault Refusal :=
  onBus (fun c => { c with op := 0x0, addr := a, val8 := v }) (runWrite (writeFrame a [v])) s

/-- sequential_write(A, D) (R121). -/
def execSequentialWrite (a : Address) (data : List Byte) (s : State) : Host.Outcome State Fault Refusal :=
  onBus (fun c => { c with op := 0x1, addr := a, len := data.length, wdata := data }) (runWrite (writeFrame a data)) s

/-- read_byte(A) (R122): RES.val8 is 0x00 when nothing was received (D10). -/
def execReadByte (a : Address) (s : State) : Host.Outcome State Fault Refusal :=
  onBus (fun c => { c with op := 0x2, addr := a })
    (runRead (readHeader a) 1 fun w r => { r with count := w.r.length, val8 := receivedByte w.r 0 }) s

/-- sequential_read(A, L) (R123): the buffer from the count on is untouched (D35). -/
def execSequentialRead (a : Address) (len : Nat) (s : State) : Host.Outcome State Fault Refusal :=
  onBus (fun c => { c with op := 0x3, addr := a, len := len })
    (runRead (readHeader a) len fun w r => { r with count := w.r.length, rbuf := fillBuffer w.r r.rbuf }) s

end Sys2Proof.Machine
end

