-- ==== Sys2Proof/Machine/StatusOps.lean ====
section
/-!
DEFINITION. The Status Register operations (42_status_ops): get_status (R140), set_status (R141), the four field setters
(R149 to R154), decode_status (R160), and the reserved selectors (30_encoding R89).
-/

namespace Sys2Proof.Machine

/-- get_status() (R140): a byte not received reads as 0x00 (D10). -/
def execGetStatus (s : State) : Host.Outcome State Fault Refusal :=
  onBus (fun c => { c with op := 0x4 })
    (runRead readStatusHeader 2 fun w r => { r with count := w.r.length, val16 := receivedStatus w.r }) s

/-- set_status(S) (R141): no validation. -/
def execSetStatus (v : StatusWord) (s : State) : Host.Outcome State Fault Refusal :=
  onBus (fun c => { c with op := 0x5, val16 := v }) (runWrite (writeStatusFrame v)) s

/-- The rejection of an argument or a selector: InvalidArgument, RES.count 0, no bus activity (R89, R149, R184). -/
def reject (s : State) : State :=
  raise .invalidArgument (putRes (fun _ r => { r with count := 0 }) (enter .check s))

/-- The second session of a setter, which writes `v` back (R150). -/
def runWriteBack (v : StatusWord) (s : State) : State :=
  let t := putRes (fun w r => { r with count := w.n, val16 := v })
    (writeSession .sel2 .tx2 .desel2 (writeStatusFrame v) (enter .modify s))
  settle (sentAll (writeStatusFrame v) t.work) t

/-- The read-modify-write template (R150): a failed read writes nothing back (D11). -/
def runSetter (f : Field) (arg : BitVec 3) (s : State) : State :=
  let t := readSession readStatusHeader 2 (enter .check s)
  if t.stalled then t
  else if receivedAll readStatusHeader 2 t.work then
    runWriteBack (insertField f (receivedStatus t.work.r) (arg.setWidth 16)) t
  else settle false (putRes (fun w r => { r with count := 0, val16 := receivedStatus w.r }) t)

/-- A field setter: the argument is checked before any bus activity (R149). -/
def setter (op : BitVec 4) (f : Field) (arg : BitVec 3) (s : State) : Host.Outcome State Fault Refusal :=
  if argValid f arg then onBus (fun c => { c with op := op, arg := arg }) (runSetter f arg) s
  else offBus (fun c => { c with op := op, arg := arg }) reject s

/-- set_mode(m) (R151). -/
def execSetMode (arg : BitVec 3) (s : State) : Host.Outcome State Fault Refusal := setter 0x6 .mode arg s

/-- set_page_size(p) (R152). -/
def execSetPageSize (arg : BitVec 3) (s : State) : Host.Outcome State Fault Refusal := setter 0x7 .pageSize arg s

/-- set_slew_rate(r) (R153). -/
def execSetSlewRate (arg : BitVec 3) (s : State) : Host.Outcome State Fault Refusal := setter 0x8 .slew arg s

/-- set_drive_strength(d) (R154). -/
def execSetDriveStrength (arg : BitVec 3) (s : State) : Host.Outcome State Fault Refusal := setter 0x9 .drive arg s

/-- decode_status(S) (R160): pure; RES.count is not among the registers it writes (R16). -/
def execDecodeStatus (v : StatusWord) (s : State) : Host.Outcome State Fault Refusal :=
  offBus (fun c => { c with op := 0xA, val16 := v })
    (fun t => complete (putRes (fun _ r => { r with fields := fieldsOf v }) t)) s

/-- CMD.op = 0xB (R89). -/
def execReservedOpB (s : State) : Host.Outcome State Fault Refusal :=
  offBus (fun c => { c with op := 0xB }) reject s

/-- CMD.op = 0xC to 0xF (R89). -/
def execReservedOpCToF (low : BitVec 2) (s : State) : Host.Outcome State Fault Refusal :=
  offBus (fun c => { c with op := (0b11 : BitVec 2) ++ low }) reject s

end Sys2Proof.Machine
end

