-- ==== Sys2Proof/Machine/Transport.lean ====
section
/-!
DEFINITION. The Transport primitives alone (40_transport R100 to R103). They have no code and `step` never fetches one
(30_encoding R89): the sequencer runs them inside operations. Outside their preconditions the spec gives them no effect
(R105; log 4). In a stalled state nothing happens (R109).
-/

namespace Sys2Proof.Machine

/-- `Select()` (R100). -/
def execSelect (s : State) : Host.Outcome State Fault Refusal :=
  if s.stalled then .next s else if s.ses = .selected then .fault .selectWhileSelected else .next (select s)

/-- `Deselect()` (R101). -/
def execDeselect (s : State) : Host.Outcome State Fault Refusal :=
  if s.stalled then .next s else if s.ses = .idle then .fault .deselectWhileIdle else .next (deselect s)

/-- `Transfer(bytes)` (R102): the count is left in `work.n`. -/
def execTransfer (bytes : List Byte) (s : State) : Host.Outcome State Fault Refusal :=
  if s.ses = .idle then .fault .exchangeWhileIdle else .next (transfer bytes s)

/-- `Receive(len)` (R103): the bytes are left in `work.r`. -/
def execReceive (len : Nat) (s : State) : Host.Outcome State Fault Refusal :=
  if s.ses = .idle then .fault .exchangeWhileIdle else .next (receive len s)

end Sys2Proof.Machine
end

