-- ==== Sys2Proof/Machine/Wire.lean ====
section
/-!
DEFINITION. The wire instructions alone (30_encoding R70 to R77; 20_memory R58, R59, R63, R64): one session with the
instruction's frame, answered by the chip. No command or result register is involved; the received bytes are in TRACE (R20)
and in `work.r`. No host operation asks for a bare frame (R89): it is the model's own door to these rows (log 3).
-/

namespace Sys2Proof.Machine

/-- The end of a bare session. -/
def endSession (s : State) : State := if s.stalled then s else finish s

/-- WRITE (R58, R74). -/
def execWrite (a : Address) (data : List Byte) (s : State) : Host.Outcome State Fault Refusal :=
  onBus id (fun t => endSession (writeSession .sel1 .tx1 .desel1 (writeFrame a data) t)) s

/-- READ (R59, R75). -/
def execRead (a : Address) (len : Nat) (s : State) : Host.Outcome State Fault Refusal :=
  onBus id (fun t => endSession (readSession (readHeader a) len t)) s

/-- READ_STATUS (R63, R76). -/
def execReadStatus (s : State) : Host.Outcome State Fault Refusal :=
  onBus id (fun t => endSession (readSession readStatusHeader 2 t)) s

/-- WRITE_STATUS (R64, R77). -/
def execWriteStatus (v : StatusWord) (s : State) : Host.Outcome State Fault Refusal :=
  onBus id (fun t => endSession (writeSession .sel1 .tx1 .desel1 (writeStatusFrame v) t)) s

/-- A request for an unimplemented wire instruction (R170): "A model must not give them a meaning: a request to perform one is
refused". -/
def unimplemented (c : Byte) : State → Host.Outcome State Fault Refusal := fun _ => .refused (.unimplementedCode c)

/-- FAST_READ (R171). -/
def execFastRead (s : State) : Host.Outcome State Fault Refusal := unimplemented codeFastRead s

/-- ENTER_DUAL_IO (R172). -/
def execEnterDualIo (s : State) : Host.Outcome State Fault Refusal := unimplemented codeEnterDualIo s

/-- ENTER_QUAD_IO (R173). -/
def execEnterQuadIo (s : State) : Host.Outcome State Fault Refusal := unimplemented codeEnterQuadIo s

/-- RESET_IO (R174). -/
def execResetIo (s : State) : Host.Outcome State Fault Refusal := unimplemented codeResetIo s

end Sys2Proof.Machine
end

