-- ==== Sys2Proof/Machine/Dispatch.lean ====
section
/-!
DEFINITION. One arm for each instruction of the opcode table.
-/

namespace Sys2Proof.Machine

def exec (i : Instr) (s : State) : Host.Outcome State Fault Refusal :=
  match i with
  -- wire instructions
  | .write addr data => Sys2Proof.Machine.execWrite addr data s
  | .read addr len => Sys2Proof.Machine.execRead addr len s
  | .readStatus => Sys2Proof.Machine.execReadStatus s
  | .writeStatus value => Sys2Proof.Machine.execWriteStatus value s
  | .fastRead => Sys2Proof.Machine.execFastRead s
  | .enterDualIo => Sys2Proof.Machine.execEnterDualIo s
  | .enterQuadIo => Sys2Proof.Machine.execEnterQuadIo s
  | .resetIo => Sys2Proof.Machine.execResetIo s
  -- host operations
  | .writeByte addr value => Sys2Proof.Machine.execWriteByte addr value s
  | .sequentialWrite addr data => Sys2Proof.Machine.execSequentialWrite addr data s
  | .readByte addr => Sys2Proof.Machine.execReadByte addr s
  | .sequentialRead addr len => Sys2Proof.Machine.execSequentialRead addr len s
  | .getStatus => Sys2Proof.Machine.execGetStatus s
  | .setStatus value => Sys2Proof.Machine.execSetStatus value s
  | .setMode arg => Sys2Proof.Machine.execSetMode arg s
  | .setPageSize arg => Sys2Proof.Machine.execSetPageSize arg s
  | .setSlewRate arg => Sys2Proof.Machine.execSetSlewRate arg s
  | .setDriveStrength arg => Sys2Proof.Machine.execSetDriveStrength arg s
  | .decodeStatus value => Sys2Proof.Machine.execDecodeStatus value s
  | .reservedOpB => Sys2Proof.Machine.execReservedOpB s
  | .reservedOpCToF low => Sys2Proof.Machine.execReservedOpCToF low s
  -- Transport primitives
  | .select => Sys2Proof.Machine.execSelect s
  | .deselect => Sys2Proof.Machine.execDeselect s
  | .transfer bytes => Sys2Proof.Machine.execTransfer bytes s
  | .receive len => Sys2Proof.Machine.execReceive len s

end Sys2Proof.Machine
end

