-- ==== Sys2Proof/Machine/Inputs.lean ====
section
/-!
DEFINITION. What comes from outside besides requests: the reset of PSS (70_reset_and_hazards R210), the power-up of the chip
(R211), the host's buffer (10_state R17, R36), and taking the next input (log 2).
-/

namespace Sys2Proof.Machine

/-- The reset input of PSS (R210): PSS as after reset, whatever it was doing; the chip is not reset, and a frame in progress
is cut (U10; log 18). The registers R35 leaves unspecified hold the values of `State.reset` (log 20). -/
def pssReset (s : State) : State :=
  { State.reset with
    dev := if s.ses = .selected then onDevice (Dev.abandon s.work.frame s.draws (Config.freeEcs s.draws)) s else s.dev
    env := s.env
    draws := s.draws + s.work.frame.length + 1
    inputs := s.inputs }

/-- The chip is powered up (R211): register at its default, every byte of the array unknown. PSS is not concerned. (log 32) -/
def powerUp (s : State) : State := { s with dev := Dev.powerUp s.draws, draws := s.draws + 1 }

/-- The host fills RES.rbuf (R17, R36). -/
def loadBuffer (bytes : List Byte) (s : State) : State := { s with res := { s.res with rbuf := bytes } }

/-- The oldest input is taken. -/
def dropInput (s : State) : State := { s with inputs := s.inputs.tail }

/-- Put a request before all other inputs, so that the next step takes it. -/
def presentRequest (c : Code) (s : State) : State := { s with inputs := .request c :: s.inputs }

end Sys2Proof.Machine
end

