-- ==== Sys2Proof/Machine/Step.lean ====
section
/-!
DEFINITION. One step: the oldest input is taken and done (logs 1, 2). A request is decoded and its instruction runs to its
end, unless an exchange stalls.
-/

namespace Sys2Proof.Machine

/-- One step. Without an input nothing happens: PSS "is either running an operation or ready for one" (60_exceptions R201). A
request, or the host's buffer, that comes while an operation runs is held off, neither taken nor dropped (10_state R13,
R36); since an operation still running between steps is one that has stalled, the machine then hangs (R109; log 27). -/
def step (s : State) : Host.Outcome State Fault Refusal :=
  match s.inputs with
  | [] => .next s
  | .request c :: _ =>
    if s.heldOff then .next s
    else match decode c with
      | .instr i => exec i (dropInput s)
      | .bad e => .refused (.undecodable e)
  | .buffer bytes :: _ => if s.heldOff then .next s else .next (loadBuffer bytes (dropInput s))
  | .reset :: _ => .next (pssReset (dropInput s))
  | .powerUp :: _ => .next (powerUp (dropInput s))

/-- The state with the request a table word stands for presented next (log 2, log 25). -/
def State.withFetchWord (s : State) (nbits w : Nat) : State := presentRequest (tableCode nbits w) s

end Sys2Proof.Machine
end

