-- ==== Sys2Proof/Machine/Labels.lean ====
section
/-!
DEFINITION. The labels a diagnostic print attaches to field codes (42_status_ops R162). "they are not state and no
operation's behaviour depends on them".
-/

namespace Sys2Proof.Machine

/-- Labels of MODE. -/
inductive ModeLabel where
  | byte | sequential | page | reserved
  deriving DecidableEq, Repr

/-- Labels of ECS. -/
inductive EcsLabel where
  | off | on
  deriving DecidableEq, Repr

/-- Labels of PROTOCOL. -/
inductive ProtocolLabel where
  | spi | sdi | sqi | reserved
  deriving DecidableEq, Repr

/-- The label of a MODE code (R23, R162). -/
def modeLabel (c : BitVec 2) : ModeLabel :=
  if c = 0b00 then .byte else if c = 0b01 then .sequential else if c = 0b10 then .page else .reserved

/-- The label of an ECS code (R24, R162). -/
def ecsLabel (c : BitVec 1) : EcsLabel := if c = 0 then .off else .on

/-- The label of a PROTOCOL code (R25, R162). -/
def protocolLabel (c : BitVec 2) : ProtocolLabel :=
  if c = 0b00 then .spi else if c = 0b01 then .sdi else if c = 0b10 then .sqi else .reserved

/-- The bytes a PAGE_SIZE code names (R27). -/
def pageSizeBytes (c : BitVec 1) : Nat := if c = 0 then 32 else 256

/-- The slew rate a SLEW code names, in hundredths of a V/ns (R29). -/
def slewHundredths (c : BitVec 2) : Nat :=
  if c = 0b00 then 144 else if c = 0b01 then 288 else if c = 0b10 then 433 else 600

/-- DRIVE_PCT (R4, R30, R162), in tenths of a percent: four codes have a label, the others a value nothing is known of. -/
def drivePct (c : BitVec 3) : Nat :=
  if c = 0b000 then 125 else if c = 0b100 then 500 else if c = 0b110 then 750 else if c = 0b111 then 1000
  else Config.drivePctOther c

end Sys2Proof.Machine
end

