-- ==== Sys2Proof/Safety.lean ====
section
/-!
DEFINITION. What every state of a run satisfies: the session discipline of TRACE (40_transport R105, R106) and the codes it may
hold (30_encoding R90), the coherence of the pins and the sequencer (10_state R12, R13, R37), and the memory's form.
-/

namespace Sys2Proof.Machine

/-- Where an observer of TRACE stands: between sessions, right after `Sel`, or inside a frame. -/
inductive TracePoint where
  | between
  | opened
  | inFrame
  deriving DecidableEq, Repr

/-- The four first bytes PSS emits (R90). -/
def implementedCode (o : Byte) : Bool :=
  o = codeWriteStatus || o = codeWrite || o = codeRead || o = codeReadStatus

/-- One event, none where the discipline forbids it: `Sel` and `Desel` alternate, every `X` lies between them, and the first
`X` of a frame carries an implemented code. -/
def TracePoint.next : TracePoint → BusEvent → Option TracePoint
  | .between, .sel => some .opened
  | .opened, .x o _ => if implementedCode o then some .inFrame else none
  | .inFrame, .x _ _ => some .inFrame
  | .opened, .desel => some .between
  | .inFrame, .desel => some .between
  | _, _ => none

/-- Where a trace leads from a point, none where it breaks the discipline. -/
def TracePoint.after : TracePoint → List BusEvent → Option TracePoint
  | p, [] => some p
  | p, e :: es => match p.next e with
    | some q => q.after es
    | none => none

/-- TRACE keeps the discipline, and its end agrees with the session state. -/
def State.traceOk (s : State) : Prop :=
  ∃ p, TracePoint.after .between s.trace = some p ∧ (p = .between ↔ s.ses = .idle)

/-- The invariant every step keeps. -/
structure State.Inv (s : State) : Prop where
  /-- The memory's canonical form. -/
  memory : s.dev.mem.wf = true
  /-- ECS has one home (R22). -/
  ecsHome : s.dev.config &&& Field.ecs.mask = 0
  /-- `SES = Idle` exactly when `CS_n = 1` (R12). -/
  chipSelect : s.csN = true ↔ s.ses = .idle
  /-- Between steps an operation is running only if it has stalled. -/
  running : s.busy = s.stalled
  /-- A stalled operation holds chip-select (R109, R189). -/
  hang : s.stalled = true → s.ses = .selected
  /-- With no operation running the session is idle (R105 d) and the sequencer ready (R37). -/
  rest : s.stalled = false → s.ses = .idle ∧ s.seq = Seq.ready
  /-- SCK rests at CPOL (R111), in a hung machine by the model's choice of where a stall falls (log 33). -/
  clock : s.lines.sck = Config.cpol
  /-- The discipline of TRACE (R105, R106, R90). -/
  discipline : s.traceOk
  /-- With chip-select deasserted, or no device plugged in, the chip is in no frame (R33). -/
  noFrame : s.ses = .idle ∨ s.env.plugged = false → s.dev.frm = .noFrame
  /-- No operation writes the reserved failure code (R181); at a reset, where the spec leaves RES unspecified, it is the model's
  choice (logs 19, 20). -/
  kinds : s.res.err ≠ .timeoutReserved

/-- The session is idle and nothing runs: PSS accepts an operation (R13, R105 d). -/
def State.ready (s : State) : Prop := s.busy = false ∧ s.stalled = false ∧ s.ses = .idle

/-- No transport fault: every coming call completes and none stalls (R56 b). -/
def State.faultFree (s : State) : Prop := ∀ c ∈ s.env.calls, c = .full

/-- The reference device is plugged in and speaks SPI (R57). -/
def State.spi (s : State) : Prop := s.env.plugged = true ∧ protocolOf s.dev.config = protocolSpi

/-- The chip's MODE is in the enumeration (R23). -/
def State.modeNamed (s : State) : Prop := modeOf s.dev.config ≠ modeReserved

/-- The chip's MODE is Sequential (R23, R213). -/
def State.sequential (s : State) : Prop := modeOf s.dev.config = modeSequential

/-! ## The words statements are written in -/

/-- A host operation, reserved selectors among them (30_encoding R88, R89). -/
def isHostOp : Instr → Bool
  | .writeByte _ _ | .sequentialWrite _ _ | .readByte _ | .sequentialRead _ _ => true
  | .getStatus | .setStatus _ | .setMode _ | .setPageSize _ | .setSlewRate _ | .setDriveStrength _ => true
  | .decodeStatus _ | .reservedOpB | .reservedOpCToF _ => true
  | .write _ _ | .read _ _ | .readStatus | .writeStatus _ => false
  | .fastRead | .enterDualIo | .enterQuadIo | .resetIo => false
  | .select | .deselect | .transfer _ | .receive _ => false

/-- An implemented wire instruction (R70). -/
def isFrame : Instr → Bool
  | .write _ _ | .read _ _ | .readStatus | .writeStatus _ => true
  | .writeByte _ _ | .sequentialWrite _ _ | .readByte _ | .sequentialRead _ _ => false
  | .getStatus | .setStatus _ | .setMode _ | .setPageSize _ | .setSlewRate _ | .setDriveStrength _ => false
  | .decodeStatus _ | .reservedOpB | .reservedOpCToF _ => false
  | .fastRead | .enterDualIo | .enterQuadIo | .resetIo => false
  | .select | .deselect | .transfer _ | .receive _ => false

/-- `i` is the setter of field `f` with the argument `arg` (42_status_ops R151 to R154). -/
def isSetter (f : Field) (arg : BitVec 3) (i : Instr) : Prop :=
  (f = .mode ∧ i = .setMode arg) ∨ (f = .pageSize ∧ i = .setPageSize arg) ∨
  (f = .slew ∧ i = .setSlewRate arg) ∨ (f = .drive ∧ i = .setDriveStrength arg)

/-- The CMD.op value of the setter of a field (R88). -/
def setterOp : Field → BitVec 4
  | .mode => 0x6
  | .pageSize => 0x7
  | .slew => 0x8
  | .drive => 0x9
  | .ecs => 0
  | .protocol => 0

/-- Which result registers beside RES.ok and RES.err an operation writes (10_state R16, R17). -/
structure Writes where
  count : Bool
  val8 : Bool
  val16 : Bool
  fields : Bool
  rbuf : Bool
  deriving DecidableEq, Repr

/-- A rejected setter writes RES.count alone (42_status_ops R149). -/
def writesOf : Instr → Writes
  | .writeByte _ _ => ⟨true, false, false, false, false⟩
  | .sequentialWrite _ _ => ⟨true, false, false, false, false⟩
  | .readByte _ => ⟨true, true, false, false, false⟩
  | .sequentialRead _ _ => ⟨true, false, false, false, true⟩
  | .getStatus => ⟨true, false, true, false, false⟩
  | .setStatus _ => ⟨true, false, false, false, false⟩
  | .setMode arg => ⟨true, false, argValid .mode arg, false, false⟩
  | .setPageSize arg => ⟨true, false, argValid .pageSize arg, false, false⟩
  | .setSlewRate arg => ⟨true, false, argValid .slew arg, false, false⟩
  | .setDriveStrength arg => ⟨true, false, argValid .drive arg, false, false⟩
  | .decodeStatus _ => ⟨false, false, false, true, false⟩
  | .reservedOpB => ⟨true, false, false, false, false⟩
  | .reservedOpCToF _ => ⟨true, false, false, false, false⟩
  | .write _ _ | .read _ _ | .readStatus | .writeStatus _ => ⟨false, false, false, false, false⟩
  | .fastRead | .enterDualIo | .enterQuadIo | .resetIo => ⟨false, false, false, false, false⟩
  | .select | .deselect | .transfer _ | .receive _ => ⟨false, false, false, false, false⟩

/-- The result registers operation `i` writes hold the same values; of RES.rbuf, the first RES.count bytes (R16, R17, R21). -/
structure SameReport (i : Instr) (r r' : Res) : Prop where
  ok : r'.ok = r.ok
  err : r'.err = r.err
  count : (writesOf i).count = true → r'.count = r.count
  val8 : (writesOf i).val8 = true → r'.val8 = r.val8
  val16 : (writesOf i).val16 = true → r'.val16 = r.val16
  fields : (writesOf i).fields = true → r'.fields = r.fields
  rbuf : (writesOf i).rbuf = true → r'.rbuf.take r.count = r.rbuf.take r.count

/-- Two states agree on all that can decide what comes next on the wire and at the chip (R21): the chip, the environment, the
coming inputs, the next free value, the session, whether an operation runs or hangs, and the frame in progress. -/
structure Agree (s t : State) : Prop where
  dev : t.dev = s.dev
  env : t.env = s.env
  draws : t.draws = s.draws
  inputs : t.inputs = s.inputs
  csN : t.csN = s.csN
  ses : t.ses = s.ses
  busy : t.busy = s.busy
  stalled : t.stalled = s.stalled
  frame : t.work.frame = s.work.frame

/-- The most byte exchanges a request makes (40_transport R113). -/
def maxExchanges : Instr → Nat
  | .writeByte _ _ => 5
  | .sequentialWrite _ data => 4 + data.length
  | .readByte _ => 5
  | .sequentialRead _ len => 4 + len
  | .getStatus => 3
  | .setStatus _ => 3
  | .setMode _ => 6
  | .setPageSize _ => 6
  | .setSlewRate _ => 6
  | .setDriveStrength _ => 6
  | .decodeStatus _ => 0
  | .reservedOpB => 0
  | .reservedOpCToF _ => 0
  | .write _ data => 4 + data.length
  | .read _ len => 4 + len
  | .readStatus => 3
  | .writeStatus _ => 3
  | .fastRead => 0
  | .enterDualIo => 0
  | .enterQuadIo => 0
  | .resetIo => 0
  | .select => 0
  | .deselect => 0
  | .transfer bytes => bytes.length
  | .receive len => len

/-- How many sessions a trace opens. -/
def sessionsOpened (es : List BusEvent) : Nat := es.count .sel

/-- The o bytes of the exchanges in a trace (R20). -/
def outBytes : List BusEvent → List Byte
  | [] => []
  | .x o _ :: es => o :: outBytes es
  | _ :: es => outBytes es

/-- The i bytes of the exchanges in a trace (R20). -/
def inBytes : List BusEvent → List Byte
  | [] => []
  | .x _ i :: es => i :: inBytes es
  | _ :: es => inBytes es

/-- The acts on the wires of the exchange in which `o` goes out while `i` comes in, bit 7 first (R104, R110). -/
def byteActs (cpha : Bool) (o i : Byte) : List WireAct :=
  (List.range 8).flatMap fun k => bitActs cpha (o.getLsbD (7 - k)) (i.getLsbD (7 - k))

/-- The clock cycles of a trace (R230): the leading edges of SCK in its exchanges. -/
def clockCycles : List BusEvent → Nat
  | [] => 0
  | .sel :: es => clockCycles es
  | .x o i :: es => (byteActs Config.cpha o i).count .lead + clockCycles es
  | .desel :: es => clockCycles es

/-- The events of one session in which `out` went out while `inc` came in (R20). -/
def sessionEvents (out inc : List Byte) : List BusEvent := .sel :: (List.zipWith .x out inc ++ [.desel])

/-- `t` is PSS ready again after a request that `s` took and that did not stall (R37, R187): chip-select released, BUSY 0,
SEQ Ready, SCK at rest, inputs and plug as they were. -/
structure Ended (s t : State) : Prop where
  csN : t.csN = true
  ses : t.ses = .idle
  busy : t.busy = false
  stalled : t.stalled = false
  seq : t.seq = Seq.ready
  sck : s.lines.sck = Config.cpol → t.lines.sck = Config.cpol
  inputs : t.inputs = s.inputs
  plugged : t.env.plugged = s.env.plugged

/-- The Status Register and the array are as they were (the pointer and the frame position have no meaning between frames). -/
structure SameChip (d e : Dev) : Prop where
  status : e.status = d.status
  array : ∀ a, e.byteAt a = d.byteAt a

/-- The Status Register but ECS, and the array, are as they were: what a read of the array may leave (R51, R62). -/
structure SameButEcs (d e : Dev) : Prop where
  config : e.config = d.config
  array : ∀ a, e.byteAt a = d.byteAt a

/-- What a read of the Status Register may leave (R51, R63, R140; log 9): the array and the register but ECS as they were, and
ECS too where the environment makes no choice for it. -/
structure SameAfterStatusRead (s t : State) : Prop where
  rest : SameButEcs s.dev t.dev
  ecs : s.env.ecsAfterStatus = [] → t.dev.ecs = s.dev.ecs

/-- The locations a payload of `len` bytes reaches in Sequential mode: from `A[18:0]` on, modulo 2^19 (R60, R121). -/
def sequentialLocation (a : Address) (j : Nat) : Nat := (a.toNat + j) % arraySize

/-- The locations a payload reaches in every mode: `j` pointer advances from `p` on (R58 to R61). -/
def pointerRun (mode : BitVec 2) (page : BitVec 1) : Nat → Location → Location
  | 0, p => p
  | j + 1, p => pointerRun mode page j (nextPtr mode page p)

/-- The location of payload byte `j` of an array access at `a`, by the chip's MODE and PAGE_SIZE (R53, R57 to R61). -/
def payloadLocation (d : Dev) (a : Address) (j : Nat) : Nat :=
  (pointerRun (modeOf d.config) (pageSizeOf d.config) j (a.setWidth 19)).toNat

/-- The array after a payload was written in Sequential mode, byte after byte (R58, R60, R121). -/
def writtenRun (a : Address) : Nat → List Byte → Memory → Memory
  | _, [], m => m
  | j, b :: bs, m => writtenRun a (j + 1) bs (m.write (sequentialLocation a j) b)

end Sys2Proof.Machine
end

