-- ==== Sys2Proof/Certificates/Slice0/Obligations.lean ====
section
/-!
DEFINITION. The statements for the provers, from the spec's numbered rules. Each docstring names the rule or section it
formalises; `log n` is notes/assumptions/n.md.

Throughout: `s.ready` says PSS is idle (R13, R105 d); `s.faultFree` is the premise "assuming no transport fault" of R56; a
statement about the chip has the premise that the reference device is plugged in and speaks SPI (`s.spi`, R57), and where the
array is reached, that MODE holds a named code (`s.modeNamed`, 93 U4; log 12). `Ended s t` says that PSS is ready again, with
its inputs and plug as they were.
-/

open Sys2Proof Sys2Proof.Machine

/-! ## Encoding -/

/-- R81: AH, AM, AL of every 22-bit address, by slices of A and of zext_24(A), the top bits of AH 0, no bit changed; and the
rule's examples. -/
def Obligations.AddressSplitBigEndian : Prop :=
  (∀ A : Address,
    addrHigh A = (0 : BitVec 2) ++ A.extractLsb' 16 6 ∧ addrMid A = A.extractLsb' 8 8 ∧ addrLow A = A.extractLsb' 0 8 ∧
    addrHigh A = (A.setWidth 24).extractLsb' 16 8 ∧ addrMid A = (A.setWidth 24).extractLsb' 8 8 ∧
    addrLow A = (A.setWidth 24).extractLsb' 0 8 ∧ (addrHigh A).toNat < 64 ∧
    (addrHigh A).toNat * 65536 + (addrMid A).toNat * 256 + (addrLow A).toNat = A.toNat) ∧
  writeFrame 0x001337 [0x42] = [0x02, 0x00, 0x13, 0x37, 0x42] ∧
  header 0x02 0x3FFFFF = [0x02, 0x3F, 0xFF, 0xFF] ∧ header 0x02 0x07FFFF = [0x02, 0x07, 0xFF, 0xFF] ∧
  header 0x02 0 = [0x02, 0x00, 0x00, 0x00]

/-- R83: the status value is split and assembled high byte first; and the rule's example. -/
def Obligations.StatusSplitHighByteFirst : Prop :=
  (∀ S : StatusWord, statusHigh S = S.extractLsb' 8 8 ∧ statusLow S = S.extractLsb' 0 8 ∧
    writeStatusFrame S = [0x01, statusHigh S, statusLow S] ∧ joinStatus (statusHigh S) (statusLow S) = S) ∧
  (∀ r0 r1 : Byte, joinStatus r0 r1 = (r0.setWidth 16 <<< 8) ||| r1.setWidth 16) ∧
  writeStatusFrame 0x4014 = [0x01, 0x40, 0x14] ∧ joinStatus 0x40 0x14 = 0x4014

/-- Words written out from the encodings of 30_encoding (R70, R74 to R77, R81, R88, R89) decode to the instructions they
stand for: the source's own frame S1, one word of each other wire code, and one tuple of each kind of operand. -/
def Obligations.SpelledWordsDecode : Prop :=
  decode (.frame [0x02, 0x00, 0x13, 0x37, 0x42]) = .instr (.write 0x001337 [0x42]) ∧
  decode (.frame [0x03, 0x3F, 0xFF, 0xFE, 0xAA, 0x55]) = .instr (.read 0x3FFFFE 2) ∧
  decode (.frame [0x05, 0xFF, 0x00]) = .instr .readStatus ∧
  decode (.frame [0x01, 0x40, 0x14]) = .instr (.writeStatus 0x4014) ∧
  decode (.frame [0x0B]) = .instr .fastRead ∧ decode (.frame [0x3B]) = .instr .enterDualIo ∧
  decode (.frame [0x38]) = .instr .enterQuadIo ∧ decode (.frame [0xFF]) = .instr .resetIo ∧
  decode (.host ⟨0x0, 0x001337, 0, 0x42, 0, 0, []⟩) = .instr (.writeByte 0x001337 0x42) ∧
  decode (.host ⟨0x1, 0x10, 3, 0, 0, 0, [0x41, 0x42, 0x43]⟩) = .instr (.sequentialWrite 0x10 [0x41, 0x42, 0x43]) ∧
  decode (.host ⟨0x3, 0x10, 3, 0, 0, 0, []⟩) = .instr (.sequentialRead 0x10 3) ∧
  decode (.host ⟨0x5, 0, 0, 0, 0x8114, 0, []⟩) = .instr (.setStatus 0x8114) ∧
  decode (.host ⟨0x9, 0, 0, 0, 0, 0b111, []⟩) = .instr (.setDriveStrength 0b111) ∧
  decode (.host ⟨0xE, 0, 0, 0, 0, 0, []⟩) = .instr (.reservedOpCToF 0b10)

/-- Decode and encode agree: every instruction that has an encoding (every row but the four primitives, R89) is what its own
encoding decodes to, with every operand at every value. -/
def Obligations.DecodeOfEncodeIsIdentity : Prop :=
  ∀ i : Instr, i.wellFormed = true → ∃ c, encode i = some c ∧ decode c = .instr i

/-- R70, R90: a frame whose first byte is none of the eight codes is no instruction, whatever follows
(rejected under a name of the model's: log 26). -/
def Obligations.OtherFirstBytesAreNoInstruction : Prop :=
  ∀ (c : Byte) (rest : List Byte), c ∉ [(0x01 : Byte), 0x02, 0x03, 0x05, 0x0B, 0x38, 0x3B, 0xFF] →
    decode (.frame (c :: rest)) = .bad (.unknownCode c)

/-- Log 26 (the model's choice), from 30_encoding R71, R74 to R77, R81, R170 and 10_state R15: a frame of no shape (no byte; a
WRITE or READ without three address bytes; a status frame without exactly two bytes after its code; an unimplemented code with
anything after it), a 1 in the two top bits of AH, and a payload whose length is not CMD.len are no instruction; and a step
refuses, by name, a request that is none. -/
def Obligations.MalformedRequestsAreRefused : Prop :=
  decode (.frame []) = .bad .emptyFrame ∧
  (∀ (c : Byte) (rest : List Byte), c = 0x02 ∨ c = 0x03 → rest.length < 3 →
    decode (.frame (c :: rest)) = .bad (.frameShape c)) ∧
  (∀ (c ah am al : Byte) (rest : List Byte), c = 0x02 ∨ c = 0x03 → 64 ≤ ah.toNat →
    decode (.frame (c :: ah :: am :: al :: rest)) = .bad (.addressTopBits ah)) ∧
  (∀ (c : Byte) (rest : List Byte), c = 0x01 ∨ c = 0x05 → rest.length ≠ 2 →
    decode (.frame (c :: rest)) = .bad (.frameShape c)) ∧
  (∀ (c : Byte) (rest : List Byte), c ∈ [(0x0B : Byte), 0x3B, 0x38, 0xFF] → rest ≠ [] →
    decode (.frame (c :: rest)) = .bad (.frameShape c)) ∧
  (∀ c : Cmd, c.op = 0x1 → c.wdata.length ≠ c.len → decode (.host c) = .bad (.payloadLength c.len)) ∧
  (∀ (s : State) (c : Code) (rest : List Input) (e : DecodeError), s.inputs = .request c :: rest → s.heldOff = false →
    decode c = .bad e → step s = .refused (.undecodable e))

/-! ## Fields of the Status Register -/

/-- R84: Extract is mask and shift, and so the slice of the rule for each of the six fields. -/
def Obligations.FieldExtractIsSlice : Prop :=
  ∀ S : StatusWord,
    (∀ f : Field, extractField f S = (S &&& f.mask) >>> f.shift) ∧
    extractField .mode S = (S.extractLsb' 14 2).setWidth 16 ∧
    extractField .ecs S = (S.extractLsb' 13 1).setWidth 16 ∧
    extractField .protocol S = (S.extractLsb' 11 2).setWidth 16 ∧
    extractField .pageSize S = (S.extractLsb' 8 1).setWidth 16 ∧
    extractField .slew S = (S.extractLsb' 3 2).setWidth 16 ∧
    extractField .drive S = (S.extractLsb' 0 3).setWidth 16

/-- R85: what Insert is, its four laws, and the rule's two examples. The laws are stated for all six fields, ECS too. -/
def Obligations.FieldInsertLaws : Prop :=
  (∀ (f : Field) (S v : StatusWord), insertField f S v = (S &&& ~~~f.mask) ||| ((v <<< f.shift) &&& f.mask) ∧
    insertField f S v &&& ~~~f.mask = S &&& ~~~f.mask ∧
    insertField f S (extractField f S) = S ∧
    (v.toNat < 2 ^ f.width → extractField f (insertField f S v) = v)) ∧
  (∀ (f g : Field) (S v w : StatusWord), f ≠ g →
    insertField g (insertField f S v) w = insertField f (insertField g S w) v) ∧
  insertField .slew 0x4014 0b11 = 0x401C ∧ insertField .mode 0x4014 0b00 = 0x0014

/-! ## The chip -/

/-- 20_memory R60 (the wrap at the top is the spec's general knowledge GK4; log 10): in Sequential mode the pointer goes on by
one, modulo 2^19, whatever PAGE_SIZE is. -/
def Obligations.SequentialPointerAdvances : Prop :=
  ∀ (page : BitVec 1) (p : Location), (nextPtr modeSequential page p).toNat = (p.toNat + 1) % arraySize

/-- 20_memory section 7, R57 with R53: the chip takes in a WRITE or READ header and loads its pointer with the low 19 bits of
the three address bytes, their top bits ignored (D18; log 15); the array and the register do not change. -/
def Obligations.HeaderLoadsPointer : Prop :=
  ∀ (d : Dev) (k : Dir) (ah am al : Byte), protocolOf d.config = protocolSpi → modeOf d.config ≠ modeReserved →
    let c : Byte := match k with | .write => 0x02 | .read => 0x03
    let e := d.startFrame.exchanges [c, ah, am, al]
    e.ptr.toNat = (ah.toNat * 65536 + am.toNat * 256 + al.toNat) % arraySize ∧ e.frm = .data k ∧ SameChip d e

/-- R64: what a completed WRITE_STATUS leaves in the register, reserved bits by the parameter; and a frame that ends before
its third exchange changes nothing. -/
def Obligations.StatusWriteAtChip : Prop :=
  (∀ (d : Dev) (sh sl : Byte), d.frm = .statusInLow sh →
    (d.exchange sl).status = (joinStatus sh sl &&& 0xD91F) ||| (d.status &&& 0x2000) |||
      (if Config.reservedStored then joinStatus sh sl &&& 0x06E0 else d.status &&& 0x06E0)) ∧
  (∀ (d : Dev) (n : Nat) (e : BitVec 1), protocolOf d.config = protocolSpi →
    (d.startFrame.exchanges [0x01]).endFrame n e = { d with frm := .noFrame, fetched := .nothing } ∧
    ∀ sh : Byte, (d.startFrame.exchanges [0x01, sh]).endFrame n e = { d with frm := .noFrame, fetched := .nothing })

/-! ## The Transport primitives -/

/-- R100: Select asserts chip-select, opens the session, appends Sel, and leaves everything else, SCK with it. -/
def Obligations.SelectOpensSession : Prop :=
  ∀ s : State, s.stalled = false → s.ses = .idle → ∃ t, exec .select s = .next t ∧
    t.csN = false ∧ t.ses = .selected ∧ t.trace = s.trace ++ [.sel] ∧
    t.lines = s.lines ∧ t.busy = s.busy ∧ t.stalled = s.stalled ∧ t.cmd = s.cmd ∧ t.res = s.res ∧ t.seq = s.seq ∧
    t.env = s.env ∧ t.inputs = s.inputs ∧ SameChip s.dev t.dev

/-- R101: Deselect releases chip-select, closes the session, appends Desel, and ends the frame for the chip: after a frame
that has a meaning (R57) the register but ECS and the array are as they were (R62; log 9). -/
def Obligations.DeselectClosesSession : Prop :=
  ∀ s : State, s.stalled = false → s.ses = .selected → ∃ t, exec .deselect s = .next t ∧
    t.csN = true ∧ t.ses = .idle ∧ t.trace = s.trace ++ [.desel] ∧
    t.lines = s.lines ∧ t.busy = s.busy ∧ t.stalled = s.stalled ∧ t.cmd = s.cmd ∧ t.res = s.res ∧ t.seq = s.seq ∧
    t.env.calls = s.env.calls ∧ t.env.plugged = s.env.plugged ∧ t.inputs = s.inputs ∧
    (s.env.plugged = true → t.dev.frm = .noFrame) ∧
    (s.dev.frm ≠ .lost → s.dev.frm ≠ .reservedMode → SameButEcs s.dev t.dev)

/-- R102: Transfer sends the first `n` bytes in order, `n` as the environment draws it (log 5), discards what comes back,
returns `n`, and does nothing else; the chip takes in what was sent, and what was not sent leaves its targets unspecified
(R68; log 17). For every draw that does not stall the call. Where the call falls short, SEQ's bit is 7 since no bit of the next
byte is clocked (log 34). -/
def Obligations.TransferSendsPrefix : Prop :=
  ∀ (bytes : List Byte) (s : State), s.stalled = false → s.ses = .selected →
    (∀ n b, callDraw s = .stall n b → bytes.length ≤ n) →
    let n := (callDraw s).limit bytes.length
    n ≤ bytes.length ∧ ∃ t inc, exec (.transfer bytes) s = .next t ∧ t.work.n = n ∧ inc.length = n ∧
      t.trace = s.trace ++ List.zipWith .x (bytes.take n) inc ∧ t.seq = ⟨s.seq.phase, n, 7⟩ ∧
      t.work.r = s.work.r ∧ t.csN = s.csN ∧ t.ses = s.ses ∧ t.busy = s.busy ∧ t.stalled = s.stalled ∧ t.cmd = s.cmd ∧
      t.res = s.res ∧ t.inputs = s.inputs ∧ t.env.calls = s.env.calls.tail ∧ t.env.plugged = s.env.plugged ∧
      (s.env.plugged = false → t.dev = s.dev) ∧
      (s.env.plugged = true → n = bytes.length → t.dev = s.dev.exchanges bytes) ∧
      (s.env.plugged = true → n < bytes.length →
        t.dev = (s.dev.exchanges (bytes.take n)).fallShort (bytes.drop n) (s.draws + n))

/-- R103: Receive sends FILL for each byte it keeps, returns the bytes that came in, in order, `m` of them as the environment
draws it (log 5), and does nothing else. For every draw that does not stall the call. Where the call falls short, SEQ's bit is
7 since no bit of the next byte is clocked (log 34). -/
def Obligations.ReceiveCollectsPrefix : Prop :=
  ∀ (len : Nat) (s : State), s.stalled = false → s.ses = .selected →
    (∀ n b, callDraw s = .stall n b → len ≤ n) →
    let m := (callDraw s).limit len
    m ≤ len ∧ ∃ t, exec (.receive len) s = .next t ∧ t.work.r.length = m ∧
      t.trace = s.trace ++ t.work.r.map (.x Config.fill) ∧ t.seq = ⟨s.seq.phase, m, 7⟩ ∧
      t.work.n = s.work.n ∧ t.csN = s.csN ∧ t.ses = s.ses ∧ t.busy = s.busy ∧ t.stalled = s.stalled ∧ t.cmd = s.cmd ∧
      t.res = s.res ∧ t.inputs = s.inputs ∧ t.env.calls = s.env.calls.tail ∧ t.env.plugged = s.env.plugged ∧
      (s.env.plugged = false → t.dev = s.dev) ∧
      (s.env.plugged = true → m = len → t.dev = s.dev.exchanges (List.replicate len Config.fill))

/-- 40_transport R105 (log 4): the model stops, by name, where a primitive is called outside the session state it needs. -/
def Obligations.PrimitivesStopOutsideTheirSession : Prop :=
  ∀ s : State, s.stalled = false →
    (s.ses = .selected → exec .select s = .fault .selectWhileSelected) ∧
    (s.ses = .idle → exec .deselect s = .fault .deselectWhileIdle ∧
      (∀ bytes, exec (.transfer bytes) s = .fault .exchangeWhileIdle) ∧
      ∀ len, exec (.receive len) s = .fault .exchangeWhileIdle)

/-- 40_transport R104, R110, at the bit level, in every clock mode (the modes and MISO's bit order are the spec's general
knowledge GK1; log 29): after the eight cycles of an exchange SHR holds the byte that came in and SCK rests; in cycle `k` MOSI
carries bit 7-k of the byte sent, and MISO bit 7-k of the byte received. The acts of an exchange are eight leading edges of SCK,
eight trailing ones and eight samples; the exchange of a byte is exactly these acts, and the byte it puts in TRACE is the one
SHR then holds. -/
def Obligations.ExchangeShiftsBothBytesMsbFirst : Prop :=
  (∀ (o i : Byte) (l : Lines), (shiftByte 8 o i l).shr = i ∧ (shiftByte 8 o i l).sck = Config.cpol ∧
    ∀ k : Nat, k < 8 → (shiftByte (k + 1) o i l).mosi = o.getLsbD (7 - k) ∧
      (shiftByte (k + 1) o i l).miso = i.getLsbD (7 - k)) ∧
  (∀ (cpha : Bool) (o i : Byte), (byteActs cpha o i).count .lead = 8 ∧ (byteActs cpha o i).count .trail = 8 ∧
    (byteActs cpha o i).count .sample = 8) ∧
  (∀ (o : Byte) (s : State), ∃ i, (xchg o s).trace = s.trace ++ [.x o i] ∧ (xchg o s).lines.shr = i ∧
    (xchg o s).lines =
      ((byteActs Config.cpha o i).foldl WireAct.apply { s.lines with shr := o }).release s.draws)

/-- 40_transport R109: a call in which the environment stalls leaves the machine hung in it: the completed exchanges are in
TRACE, chip-select and BUSY stay, no result is written, and the sequencer stands at the exchange and the bit that stalled
(a stall falls between two whole bits: log 33). -/
def Obligations.StalledCallHangs : Prop :=
  ∀ (s : State) (n : Nat) (b : Fin 8), s.stalled = false → s.ses = .selected → callDraw s = .stall n b →
    (∀ bytes : List Byte, n < bytes.length → ∃ t inc, exec (.transfer bytes) s = .next t ∧ t.stalled = true ∧
      t.csN = s.csN ∧ t.ses = .selected ∧ t.busy = s.busy ∧ t.res = s.res ∧ t.seq = ⟨s.seq.phase, n, 7 - b⟩ ∧
      inc.length = n ∧ t.trace = s.trace ++ List.zipWith .x (bytes.take n) inc) ∧
    (∀ len : Nat, n < len → ∃ t inc, exec (.receive len) s = .next t ∧ t.stalled = true ∧
      t.csN = s.csN ∧ t.ses = .selected ∧ t.busy = s.busy ∧ t.res = s.res ∧ t.seq = ⟨s.seq.phase, n, 7 - b⟩ ∧
      inc.length = n ∧ t.trace = s.trace ++ List.zipWith .x (List.replicate n Config.fill) inc)

/-- 10_state R13, R36: what the host offers while an operation runs has no effect and is not dropped; so a hung machine stays
as it is until a reset or a power-up comes (R109, R227; log 27). -/
def Obligations.OffersWhileBusyAreHeldOff : Prop :=
  ∀ s : State, s.heldOff = true →
    (∀ i : Instr, isHostOp i = true ∨ isFrame i = true → exec i s = .next s) ∧
    (s.inputs = [] ∨ (∃ c rest, s.inputs = .request c :: rest) ∨ (∃ b rest, s.inputs = .buffer b :: rest) →
      step s = .next s)

/-! ## The array operations -/

/-- 41_memory_ops R120: a fault-free write_byte completes: results, the five exchanges, and the byte at A[18:0], in every
named mode; every other location, the register (ECS in it: log 9) and every other register of PSS are as they were. -/
def Obligations.WriteByteCompletes : Prop :=
  ∀ (A : Address) (V : Byte) (s : State), s.ready → s.faultFree →
    ∃ t inc, exec (.writeByte A V) s = .next t ∧ Ended s t ∧
      t.res = { s.res with ok := true, err := .success, count := 5 } ∧
      t.cmd = { s.cmd with op := 0x0, addr := A, val8 := V } ∧
      inc.length = 5 ∧ t.trace = s.trace ++ sessionEvents [0x02, addrHigh A, addrMid A, addrLow A, V] inc ∧
      t.env.calls = s.env.calls.drop 1 ∧ (s.env.plugged = false → t.dev = s.dev) ∧
      (s.spi → t.dev.config = s.dev.config) ∧
      (s.spi → s.modeNamed → t.dev.status = s.dev.status ∧ t.dev.byteAt (sequentialLocation A 0) = V ∧
        ∀ a, a ≠ sequentialLocation A 0 → t.dev.byteAt a = s.dev.byteAt a)

/-- 41_memory_ops R120, 20_memory R68: a write_byte whose Transfer falls short reports ShortTransfer with the bytes sent, and
chip-select is released; every location but A[18:0] keeps its value (log 17), and the register (ECS in it: log 9). -/
def Obligations.ShortWriteByteFails : Prop :=
  ∀ (A : Address) (V : Byte) (s : State) (n : Nat), s.ready → callDraw s = .short n → n < 5 →
    ∃ t inc, exec (.writeByte A V) s = .next t ∧ Ended s t ∧
      t.res = { s.res with ok := false, err := .shortTransfer, count := n } ∧
      t.cmd = { s.cmd with op := 0x0, addr := A, val8 := V } ∧ inc.length = n ∧
      t.trace = s.trace ++ sessionEvents ([0x02, addrHigh A, addrMid A, addrLow A, V].take n) inc ∧
      (s.spi → s.modeNamed → t.dev.status = s.dev.status ∧
        ∀ a, a ≠ sequentialLocation A 0 → t.dev.byteAt a = s.dev.byteAt a)

/-- 41_memory_ops R121: a fault-free sequential_write completes, for every length (0 too): results, the `4 + L` exchanges; in
Sequential mode byte `D[j]` goes to `(A[18:0] + j) mod 2^19`, in that order (the wrap: log 10); in every named mode the
locations off the pointer's run (in Byte and Page mode the parameter's, log 11), the register (ECS in it: log 9) and the other
registers of PSS are as they were. -/
def Obligations.SequentialWriteCompletes : Prop :=
  ∀ (A : Address) (D : List Byte) (s : State), s.ready → s.faultFree →
    ∃ t inc, exec (.sequentialWrite A D) s = .next t ∧ Ended s t ∧
      t.res = { s.res with ok := true, err := .success, count := 4 + D.length } ∧
      t.cmd = { s.cmd with op := 0x1, addr := A, len := D.length, wdata := D } ∧
      inc.length = 4 + D.length ∧
      t.trace = s.trace ++ sessionEvents ([0x02, addrHigh A, addrMid A, addrLow A] ++ D) inc ∧
      t.env.calls = s.env.calls.drop 1 ∧ (s.env.plugged = false → t.dev = s.dev) ∧
      (s.spi → t.dev.config = s.dev.config) ∧
      (s.spi → s.modeNamed → t.dev.status = s.dev.status ∧
        ∀ a, (∀ j, j < D.length → a ≠ payloadLocation s.dev A j) → t.dev.byteAt a = s.dev.byteAt a) ∧
      (s.spi → s.sequential → t.dev.mem = writtenRun A 0 D s.dev.mem ∧
        (∀ j, payloadLocation s.dev A j = sequentialLocation A j) ∧
        (D.length ≤ arraySize → ∀ j b, D[j]? = some b → t.dev.byteAt (sequentialLocation A j) = b))

/-- 41_memory_ops R121, 20_memory R68 (log 17): a sequential_write whose Transfer falls short reports ShortTransfer with the
frame bytes sent; in every named mode every location off the pointer's run (in Byte and Page mode the parameter's, log 11) and
the register (ECS in it: log 9) keep their values; in Sequential mode the run is `(A[18:0] + j) mod 2^19` (log 10) and the bytes
sent are in the array. -/
def Obligations.ShortSequentialWriteFails : Prop :=
  ∀ (A : Address) (D : List Byte) (s : State) (n : Nat), s.ready → callDraw s = .short n → n < 4 + D.length →
    ∃ t inc, exec (.sequentialWrite A D) s = .next t ∧ Ended s t ∧
      t.res = { s.res with ok := false, err := .shortTransfer, count := n } ∧
      t.cmd = { s.cmd with op := 0x1, addr := A, len := D.length, wdata := D } ∧ inc.length = n ∧
      t.trace = s.trace ++ sessionEvents (([0x02, addrHigh A, addrMid A, addrLow A] ++ D).take n) inc ∧
      (s.env.plugged = false → t.dev = s.dev) ∧
      (s.spi → s.modeNamed → t.dev.status = s.dev.status ∧
        ∀ a, (∀ j, j < D.length → a ≠ payloadLocation s.dev A j) → t.dev.byteAt a = s.dev.byteAt a) ∧
      (s.spi → s.sequential → (∀ j, payloadLocation s.dev A j = sequentialLocation A j) ∧
        (D.length ≤ arraySize → ∀ j b, 4 + j < n → D[j]? = some b → t.dev.byteAt (sequentialLocation A j) = b))

/-- 41_memory_ops R122: a fault-free read_byte completes: the byte that came in is RES.val8, with the reference device the
array's byte at A[18:0] in every named mode; the array and the register but ECS are as they were (R51, R62). -/
def Obligations.ReadByteCompletes : Prop :=
  ∀ (A : Address) (s : State), s.ready → s.faultFree →
    ∃ t inc v, exec (.readByte A) s = .next t ∧ Ended s t ∧
      t.res = { s.res with ok := true, err := .success, count := 1, val8 := v } ∧
      t.cmd = { s.cmd with op := 0x2, addr := A } ∧ inc.length = 4 ∧
      t.trace = s.trace ++ sessionEvents [0x03, addrHigh A, addrMid A, addrLow A, Config.fill] (inc ++ [v]) ∧
      t.env.calls = s.env.calls.drop 2 ∧ (s.env.plugged = false → t.dev = s.dev) ∧
      (s.spi → t.dev.config = s.dev.config) ∧
      (s.spi → s.modeNamed → v = s.dev.byteAt (sequentialLocation A 0) ∧ SameButEcs s.dev t.dev)

/-- 41_memory_ops R122, R125: a read_byte that falls short, in its header or in its receive, reports ShortTransfer with value
0x00 and count 0 (D10); after a short header nothing is received (D9). With the reference device the array and
the register, ECS in it, are as they were (that a read cut short changes nothing at the chip is the model's choice, log 17). -/
def Obligations.ShortReadByteReturnsZero : Prop :=
  ∀ (A : Address) (s : State) (n : Nat) (rest : List CallDraw), s.ready →
    (s.env.calls = .short n :: rest ∧ n < 4) ∨ (s.env.calls = .full :: .short 0 :: rest ∧ n = 4) →
    ∃ t inc, exec (.readByte A) s = .next t ∧ Ended s t ∧
      t.res = { s.res with ok := false, err := .shortTransfer, count := 0, val8 := 0x00 } ∧
      inc.length = n ∧
      t.trace = s.trace ++ sessionEvents ([0x03, addrHigh A, addrMid A, addrLow A].take n) inc ∧
      (s.spi → s.modeNamed → SameChip s.dev t.dev)

/-- 41_memory_ops R123: a fault-free sequential_read completes, for every length (0 too): the bytes that came in stand at the
start of RES.rbuf, whose rest is untouched; with the reference device they are the array's along the pointer's run, in
Sequential mode from A[18:0] on, modulo 2^19 (logs 10, 11). -/
def Obligations.SequentialReadCompletes : Prop :=
  ∀ (A : Address) (L : Nat) (s : State), s.ready → s.faultFree →
    ∃ t inc data, exec (.sequentialRead A L) s = .next t ∧ Ended s t ∧
      t.res = { s.res with ok := true, err := .success, count := L, rbuf := data ++ s.res.rbuf.drop L } ∧
      t.cmd = { s.cmd with op := 0x3, addr := A, len := L } ∧ inc.length = 4 ∧ data.length = L ∧
      t.trace = s.trace ++
        sessionEvents ([0x03, addrHigh A, addrMid A, addrLow A] ++ List.replicate L Config.fill) (inc ++ data) ∧
      t.env.calls = s.env.calls.drop 2 ∧ (s.env.plugged = false → t.dev = s.dev) ∧
      (s.spi → t.dev.config = s.dev.config) ∧
      (s.spi → s.modeNamed → SameButEcs s.dev t.dev ∧
        ∀ j, j < L → data[j]? = some (s.dev.byteAt (payloadLocation s.dev A j))) ∧
      (s.spi → s.sequential → ∀ j, payloadLocation s.dev A j = sequentialLocation A j)

/-- 41_memory_ops R123, R125: a sequential_read that gets `m < L` bytes reports ShortTransfer with count `m` and leaves the
buffer from `m` on untouched (D35); one whose header falls short receives nothing and has count 0. With the reference device
what came in is the array's along the pointer's run (logs 10, 11), the array keeps its bytes (R51), and the register too, but
for ECS where a byte of the array was read (R62; log 9); that a read cut short changes nothing else at the chip is the model's
choice (log 17). -/
def Obligations.ShortSequentialReadKeepsTail : Prop :=
  ∀ (A : Address) (L : Nat) (s : State) (rest : List CallDraw), s.ready →
    (∀ m, s.env.calls = .full :: .short m :: rest → m < L →
      ∃ t inc data, exec (.sequentialRead A L) s = .next t ∧ Ended s t ∧ data.length = m ∧ inc.length = 4 ∧
        t.res = { s.res with ok := false, err := .shortTransfer, count := m, rbuf := data ++ s.res.rbuf.drop m } ∧
        t.cmd = { s.cmd with op := 0x3, addr := A, len := L } ∧
        t.trace = s.trace ++
          sessionEvents ([0x03, addrHigh A, addrMid A, addrLow A] ++ List.replicate m Config.fill) (inc ++ data) ∧
        (s.env.plugged = false → t.dev = s.dev) ∧
        (s.spi → t.dev.config = s.dev.config) ∧
        (s.spi → s.modeNamed → SameButEcs s.dev t.dev ∧ (m = 0 → SameChip s.dev t.dev) ∧
          ∀ j, j < m → data[j]? = some (s.dev.byteAt (payloadLocation s.dev A j))) ∧
        (s.spi → s.sequential → ∀ j, payloadLocation s.dev A j = sequentialLocation A j)) ∧
    (∀ n, s.env.calls = .short n :: rest → n < 4 →
      ∃ t inc, exec (.sequentialRead A L) s = .next t ∧ Ended s t ∧ inc.length = n ∧
        t.res = { s.res with ok := false, err := .shortTransfer, count := 0 } ∧
        t.cmd = { s.cmd with op := 0x3, addr := A, len := L } ∧
        t.trace = s.trace ++ sessionEvents ([0x03, addrHigh A, addrMid A, addrLow A].take n) inc ∧
        (s.env.plugged = false → t.dev = s.dev) ∧
        (s.spi → t.dev.config = s.dev.config) ∧
        (s.spi → s.modeNamed → SameChip s.dev t.dev))

/-- 20_memory R56 a (log 6): with no device plugged in, a fault-free sequential_read returns the bytes the environment puts
on MISO after the four header exchanges. -/
def Obligations.UnpluggedReadReturnsEnvironmentBytes : Prop :=
  ∀ (A : Address) (s : State) (skipped data rest : List Byte), s.ready → s.faultFree → s.env.plugged = false →
    skipped.length = 4 → s.env.miso = skipped ++ data ++ rest →
    ∃ t, exec (.sequentialRead A data.length) s = .next t ∧ t.res.ok = true ∧
      t.res.rbuf = data ++ s.res.rbuf.drop data.length ∧ t.env.miso = rest ∧ t.dev = s.dev

/-! ## The Status Register operations -/

/-- 42_status_ops R140: a fault-free get_status completes: the two bytes that came in, high byte first, are RES.val16, with
the reference device the register's value; the array and the register but ECS are as they were (ECS: log 9; in
MODE 11 too: log 12). -/
def Obligations.GetStatusCompletes : Prop :=
  ∀ s : State, s.ready → s.faultFree →
    ∃ t x h l, exec .getStatus s = .next t ∧ Ended s t ∧
      t.res = { s.res with ok := true, err := .success, count := 2, val16 := joinStatus h l } ∧
      t.cmd = { s.cmd with op := 0x4 } ∧
      t.trace = s.trace ++ sessionEvents [0x05, Config.fill, Config.fill] [x, h, l] ∧
      t.env.calls = s.env.calls.drop 2 ∧ (s.env.plugged = false → t.dev = s.dev) ∧
      (s.spi → joinStatus h l = s.dev.status ∧ SameAfterStatusRead s t)

/-- 42_status_ops R140: a get_status that falls short reports ShortTransfer; the bytes not received read as 0x00 (D10), and the
chip is as it was (that a read cut short leaves it so is the model's choice, log 17; in MODE 11 too: log 12), but for ECS where
a byte was received (log 9), which is the register's high byte (20_memory R63). -/
def Obligations.ShortGetStatusFails : Prop :=
  ∀ (s : State) (rest : List CallDraw), s.ready →
    (s.env.calls = .short 0 :: rest →
      ∃ t, exec .getStatus s = .next t ∧ Ended s t ∧ t.trace = s.trace ++ [.sel, .desel] ∧
        t.res = { s.res with ok := false, err := .shortTransfer, count := 0, val16 := 0x0000 } ∧
        (s.spi → SameChip s.dev t.dev)) ∧
    (s.env.calls = .full :: .short 0 :: rest →
      ∃ t x, exec .getStatus s = .next t ∧ Ended s t ∧ t.trace = s.trace ++ [.sel, .x 0x05 x, .desel] ∧
        t.res = { s.res with ok := false, err := .shortTransfer, count := 0, val16 := 0x0000 } ∧
        (s.spi → SameChip s.dev t.dev)) ∧
    (s.env.calls = .full :: .short 1 :: rest →
      ∃ t x h, exec .getStatus s = .next t ∧ Ended s t ∧
        t.trace = s.trace ++ [.sel, .x 0x05 x, .x Config.fill h, .desel] ∧
        t.res = { s.res with ok := false, err := .shortTransfer, count := 1, val16 := joinStatus h 0x00 } ∧
        (s.spi → h = statusHigh s.dev.status ∧ SameAfterStatusRead s t))

/-- 42_status_ops R141, 20_memory R64: a fault-free set_status of any value completes: three exchanges; the register takes the
writable fields, keeps ECS, and stores or keeps the reserved bits by the parameter (log 16); the array is as it was. In MODE 11
too (log 12). -/
def Obligations.SetStatusCompletes : Prop :=
  ∀ (S : StatusWord) (s : State), s.ready → s.faultFree →
    ∃ t inc, exec (.setStatus S) s = .next t ∧ Ended s t ∧
      t.res = { s.res with ok := true, err := .success, count := 3 } ∧
      t.cmd = { s.cmd with op := 0x5, val16 := S } ∧ inc.length = 3 ∧
      t.trace = s.trace ++ sessionEvents [0x01, statusHigh S, statusLow S] inc ∧
      t.env.calls = s.env.calls.drop 1 ∧ (s.env.plugged = false → t.dev = s.dev) ∧
      (s.spi → t.dev.status = (S &&& 0xD91F) ||| (s.dev.status &&& 0x2000) |||
          (if Config.reservedStored then S &&& 0x06E0 else s.dev.status &&& 0x06E0) ∧
        ∀ a, t.dev.byteAt a = s.dev.byteAt a)

/-- 42_status_ops R141: a set_status that falls short reports ShortTransfer with the bytes sent; the array is as it was (the
register is unspecified, D21, log 17). In MODE 11 too (log 12). -/
def Obligations.ShortSetStatusFails : Prop :=
  ∀ (S : StatusWord) (s : State) (n : Nat), s.ready → callDraw s = .short n → n < 3 →
    ∃ t inc, exec (.setStatus S) s = .next t ∧ Ended s t ∧
      t.res = { s.res with ok := false, err := .shortTransfer, count := n } ∧ inc.length = n ∧
      t.trace = s.trace ++ sessionEvents ([0x01, statusHigh S, statusLow S].take n) inc ∧
      (s.spi → ∀ a, t.dev.byteAt a = s.dev.byteAt a)

/-- 42_status_ops R150 to R154: a fault-free field setter with a valid argument completes: it reads S, writes back
`S2 = Insert(F, S, v)` in a session of its own, and reports S2; with the reference device S is the register, and the register
becomes S2, with ECS as the chip has it after the read (R155; log 9). In MODE 11 too (log 12); reserved bits: log 16. -/
def Obligations.FieldSetterCompletes : Prop :=
  ∀ (f : Field) (arg : BitVec 3) (i : Instr) (s : State), isSetter f arg i → arg.toNat < 2 ^ f.width →
    (f = .mode → arg ≠ 0b011) → s.ready → s.faultFree →
    ∃ t x h l inc, exec i s = .next t ∧ Ended s t ∧
      let S2 := insertField f (joinStatus h l) (arg.setWidth 16)
      t.res = { s.res with ok := true, err := .success, count := 3, val16 := S2 } ∧
      t.cmd = { s.cmd with op := setterOp f, arg := arg } ∧ inc.length = 3 ∧
      t.trace = s.trace ++ sessionEvents [0x05, Config.fill, Config.fill] [x, h, l] ++
        sessionEvents [0x01, statusHigh S2, statusLow S2] inc ∧
      t.env.calls = s.env.calls.drop 3 ∧ (s.env.plugged = false → t.dev = s.dev) ∧
      (s.spi → joinStatus h l = s.dev.status ∧
        t.dev.status &&& ~~~Field.ecs.mask = insertField f s.dev.status (arg.setWidth 16) &&& ~~~Field.ecs.mask ∧
        (s.env.ecsAfterStatus = [] → t.dev.status = insertField f s.dev.status (arg.setWidth 16)) ∧
        ∀ a, t.dev.byteAt a = s.dev.byteAt a)

/-- R149: which arguments a setter takes, and that any other is rejected before any bus activity: InvalidArgument, RES.count 0,
TRACE, the pins and the chip untouched. -/
def Obligations.FieldSetterRejectsInvalidArgument : Prop :=
  (∀ arg : BitVec 3,
    (argValid .mode arg = true ↔ arg.getLsbD 2 = false ∧ arg.extractLsb' 0 2 ∈ [(0b00 : BitVec 2), 0b01, 0b10]) ∧
    (argValid .pageSize arg = true ↔ arg.extractLsb' 1 2 = 0b00) ∧
    (argValid .slew arg = true ↔ arg.getLsbD 2 = false) ∧ argValid .drive arg = true) ∧
  (∀ (f : Field) (arg : BitVec 3) (i : Instr) (s : State), isSetter f arg i → argValid f arg = false → s.ready →
    ∃ t, exec i s = .next t ∧ t.busy = false ∧ t.stalled = false ∧ t.seq = Seq.ready ∧
      t.res = { s.res with ok := false, err := .invalidArgument, count := 0 } ∧
      t.cmd = { s.cmd with op := setterOp f, arg := arg } ∧
      t.csN = s.csN ∧ t.ses = s.ses ∧ t.lines = s.lines ∧ t.trace = s.trace ∧ t.dev = s.dev ∧ t.env = s.env ∧
      t.inputs = s.inputs)

/-- 42_status_ops R150 (D11): a setter whose read falls short writes nothing back: ShortTransfer, RES.count 0, RES.val16 what
arrived (D10), one session only. With the reference device the chip is as it was (that a read cut short leaves it so is the
model's choice, log 17; in MODE 11 too: log 12), but for ECS where a byte was received (log 9). The three cases: code not sent;
code sent, nothing received; code sent, one byte received. -/
def Obligations.FieldSetterFailedReadWritesNothing : Prop :=
  ∀ (f : Field) (arg : BitVec 3) (i : Instr) (s : State) (rest : List CallDraw), isSetter f arg i →
    argValid f arg = true → s.ready →
    (s.env.calls = .short 0 :: rest →
      ∃ t, exec i s = .next t ∧ Ended s t ∧ t.trace = s.trace ++ [.sel, .desel] ∧
        t.res = { s.res with ok := false, err := .shortTransfer, count := 0, val16 := 0x0000 } ∧
        t.cmd = { s.cmd with op := setterOp f, arg := arg } ∧ (s.env.plugged = false → t.dev = s.dev) ∧
        (s.spi → SameChip s.dev t.dev)) ∧
    (s.env.calls = .full :: .short 0 :: rest →
      ∃ t x, exec i s = .next t ∧ Ended s t ∧ t.trace = s.trace ++ [.sel, .x 0x05 x, .desel] ∧
        t.res = { s.res with ok := false, err := .shortTransfer, count := 0, val16 := 0x0000 } ∧
        t.cmd = { s.cmd with op := setterOp f, arg := arg } ∧ (s.env.plugged = false → t.dev = s.dev) ∧
        (s.spi → SameChip s.dev t.dev)) ∧
    (s.env.calls = .full :: .short 1 :: rest →
      ∃ t x h, exec i s = .next t ∧ Ended s t ∧
        t.trace = s.trace ++ [.sel, .x 0x05 x, .x Config.fill h, .desel] ∧
        t.res = { s.res with ok := false, err := .shortTransfer, count := 0, val16 := joinStatus h 0x00 } ∧
        t.cmd = { s.cmd with op := setterOp f, arg := arg } ∧ (s.env.plugged = false → t.dev = s.dev) ∧
        (s.spi → h = statusHigh s.dev.status ∧ SameAfterStatusRead s t))

/-- 42_status_ops R150: a setter whose write falls short reports ShortTransfer with the bytes of the second session and the
value it meant to write; the array is as it was (the register is unspecified, D21, log 17). In MODE
11 too (log 12). -/
def Obligations.FieldSetterFailedWriteReported : Prop :=
  ∀ (f : Field) (arg : BitVec 3) (i : Instr) (s : State) (n : Nat) (rest : List CallDraw), isSetter f arg i →
    argValid f arg = true → s.ready → s.env.calls = .full :: .full :: .short n :: rest → n < 3 →
    ∃ t x h l inc, exec i s = .next t ∧ Ended s t ∧ inc.length = n ∧
      let S2 := insertField f (joinStatus h l) (arg.setWidth 16)
      t.res = { s.res with ok := false, err := .shortTransfer, count := n, val16 := S2 } ∧
      t.trace = s.trace ++ sessionEvents [0x05, Config.fill, Config.fill] [x, h, l] ++
        sessionEvents ([0x01, statusHigh S2, statusLow S2].take n) inc ∧
      (s.spi → ∀ a, t.dev.byteAt a = s.dev.byteAt a)

/-- 42_status_ops R155, the isolation law, of the register itself: a fault-free setter leaves every bit outside its field's
mask as it was, but for ECS, which a read of the register may change (log 9), puts the argument into the field, and so never
changes PROTOCOL (R224); the value it reports differs from the one it read in the field alone. In MODE 11 too
(log 12); reserved bits: log 16. -/
def Obligations.FieldSetterIsolation : Prop :=
  ∀ (f : Field) (arg : BitVec 3) (i : Instr) (s : State), isSetter f arg i → argValid f arg = true → s.ready →
    s.faultFree → s.spi → ∃ t, exec i s = .next t ∧
      t.dev.status &&& ~~~(f.mask ||| Field.ecs.mask) = s.dev.status &&& ~~~(f.mask ||| Field.ecs.mask) ∧
      (s.env.ecsAfterStatus = [] → t.dev.status &&& ~~~f.mask = s.dev.status &&& ~~~f.mask) ∧
      t.res.val16 &&& ~~~f.mask = s.dev.status &&& ~~~f.mask ∧
      extractField f t.dev.status = arg.setWidth 16 ∧ protocolOf t.dev.config = protocolSpi

/-- R160: decode_status completes for every value, with the six slices of its operand in RES.fields, RES.ok 1 and RES.err None;
no pin moves, TRACE is unchanged, the chip is not consulted. -/
def Obligations.DecodeStatusCompletes : Prop :=
  ∀ (S : StatusWord) (s : State), s.busy = false → s.stalled = false → ∃ t, exec (.decodeStatus S) s = .next t ∧
    t.res = { s.res with
      ok := true
      err := .success
      fields := ⟨S.extractLsb' 14 2, S.extractLsb' 13 1, S.extractLsb' 11 2, S.extractLsb' 8 1, S.extractLsb' 3 2,
        S.extractLsb' 0 3⟩ } ∧
    t.cmd = { s.cmd with op := 0xA, val16 := S } ∧ t.busy = false ∧ t.stalled = false ∧ t.seq = Seq.ready ∧
    t.csN = s.csN ∧ t.ses = s.ses ∧ t.lines = s.lines ∧ t.trace = s.trace ∧ t.dev = s.dev ∧ t.env = s.env ∧
    t.inputs = s.inputs

/-- R161: the fixture 0x4014, with the labels of R162. -/
def Obligations.DefaultStatusDecodes : Prop :=
  fieldsOf 0x4014 = ⟨0b01, 0, 0b00, 0, 0b10, 0b100⟩ ∧
  modeLabel (fieldsOf 0x4014).mode = .sequential ∧ ecsLabel (fieldsOf 0x4014).ecs = .off ∧
  protocolLabel (fieldsOf 0x4014).protocol = .spi ∧ pageSizeBytes (fieldsOf 0x4014).pageSize = 32 ∧
  slewHundredths (fieldsOf 0x4014).slew = 433 ∧ drivePct (fieldsOf 0x4014).drive = 500

/-- R89: every CMD.op from 0xB on is a reserved selector, and presenting one ends at once with InvalidArgument and no bus
activity; no value of CMD.op selects an unimplemented wire instruction, a bare frame or a Transport primitive. -/
def Obligations.ReservedSelectorsAreRejected : Prop :=
  (∀ c : Cmd, 0xB ≤ c.op.toNat →
    decode (.host c) = .instr .reservedOpB ∨ ∃ low, decode (.host c) = .instr (.reservedOpCToF low)) ∧
  (∀ (c : Cmd) (i : Instr), decode (.host c) = .instr i → isHostOp i = true) ∧
  (∀ (i : Instr) (s : State), (i = .reservedOpB ∨ ∃ low, i = .reservedOpCToF low) → s.ready →
    ∃ t op, exec i s = .next t ∧ t.busy = false ∧ t.stalled = false ∧ t.seq = Seq.ready ∧
      t.res = { s.res with ok := false, err := .invalidArgument, count := 0 } ∧ t.cmd = { s.cmd with op := op } ∧
      11 ≤ op.toNat ∧ t.csN = s.csN ∧ t.ses = s.ses ∧ t.lines = s.lines ∧ t.trace = s.trace ∧ t.dev = s.dev ∧
      t.env = s.env ∧ t.inputs = s.inputs)

/-! ## The wire instructions -/

/-- 30_encoding R74, 20_memory R58, R60: a fault-free WRITE frame completes, for every payload: its exchanges; in Sequential
mode, and for one byte in every named mode, its bytes from A[18:0] on; nothing off the pointer's run (log 11), nor the
register (ECS in it: log 9); no register of
PSS but the working values. The bare frame is the model's own door (log 3). -/
def Obligations.WriteFrameCompletes : Prop :=
  ∀ (A : Address) (D : List Byte) (s : State), s.ready → s.faultFree →
    ∃ t inc, exec (.write A D) s = .next t ∧ Ended s t ∧ t.res = s.res ∧ t.cmd = s.cmd ∧ inc.length = 4 + D.length ∧
      t.work.n = 4 + D.length ∧
      t.trace = s.trace ++ sessionEvents ([0x02, addrHigh A, addrMid A, addrLow A] ++ D) inc ∧
      (s.env.plugged = false → t.dev = s.dev) ∧
      (s.spi → t.dev.config = s.dev.config) ∧
      (s.spi → s.modeNamed → t.dev.status = s.dev.status ∧
        (∀ a, (∀ j, j < D.length → a ≠ payloadLocation s.dev A j) → t.dev.byteAt a = s.dev.byteAt a) ∧
        (s.sequential ∨ D.length ≤ 1 → t.dev.mem = writtenRun A 0 D s.dev.mem ∧
          ∀ j, j < D.length → payloadLocation s.dev A j = sequentialLocation A j))

/-- 30_encoding R75, 20_memory R59, R60: a fault-free READ frame completes, for every length: the response stands in `work.r`
and in TRACE; it is the array's bytes along the pointer's run (log 11), in Sequential mode, and for one byte in every named mode,
from A[18:0] on. -/
def Obligations.ReadFrameCompletes : Prop :=
  ∀ (A : Address) (L : Nat) (s : State), s.ready → s.faultFree →
    ∃ t inc, exec (.read A L) s = .next t ∧ Ended s t ∧ t.res = s.res ∧ t.cmd = s.cmd ∧ inc.length = 4 ∧
      t.work.r.length = L ∧
      t.trace = s.trace ++
        sessionEvents ([0x03, addrHigh A, addrMid A, addrLow A] ++ List.replicate L Config.fill) (inc ++ t.work.r) ∧
      (s.env.plugged = false → t.dev = s.dev) ∧
      (s.spi → t.dev.config = s.dev.config) ∧
      (s.spi → s.modeNamed → SameButEcs s.dev t.dev ∧
        (∀ j, j < L → t.work.r[j]? = some (s.dev.byteAt (payloadLocation s.dev A j))) ∧
        (s.sequential ∨ L ≤ 1 → ∀ j, j < L → payloadLocation s.dev A j = sequentialLocation A j))

/-- 30_encoding R76, R77, 20_memory R63, R64: a fault-free READ_STATUS frame returns the register, a fault-free WRITE_STATUS
frame writes it (log 16); the array is as it was. In MODE 11 too (log 12). -/
def Obligations.StatusFramesComplete : Prop :=
  ∀ s : State, s.ready → s.faultFree →
    (∃ t x h l, exec .readStatus s = .next t ∧ Ended s t ∧ t.res = s.res ∧ t.cmd = s.cmd ∧ t.work.r = [h, l] ∧
      t.trace = s.trace ++ sessionEvents [0x05, Config.fill, Config.fill] [x, h, l] ∧
      (s.spi → joinStatus h l = s.dev.status ∧ SameAfterStatusRead s t)) ∧
    (∀ S : StatusWord, ∃ t inc, exec (.writeStatus S) s = .next t ∧ Ended s t ∧ t.res = s.res ∧ t.cmd = s.cmd ∧
      inc.length = 3 ∧ t.trace = s.trace ++ sessionEvents [0x01, statusHigh S, statusLow S] inc ∧
      (s.spi → t.dev.status = (S &&& 0xD91F) ||| (s.dev.status &&& 0x2000) |||
          (if Config.reservedStored then S &&& 0x06E0 else s.dev.status &&& 0x06E0) ∧
        ∀ a, t.dev.byteAt a = s.dev.byteAt a))

/-- 43_unimplemented_instructions R170: "a request to perform one is refused", in every state. -/
def Obligations.UnimplementedCodesAreRefused : Prop :=
  ∀ s : State, exec .fastRead s = .refused (.unimplementedCode 0x0B) ∧
    exec .enterDualIo s = .refused (.unimplementedCode 0x3B) ∧ exec .enterQuadIo s = .refused (.unimplementedCode 0x38) ∧
    exec .resetIo s = .refused (.unimplementedCode 0xFF)

/-- 30_encoding R79: on the wire write_byte(A, V) and sequential_write(A, [V]) are the same frame, and read_byte(A) and
sequential_read(A, 1); whatever the environment does, short and stalled calls too, TRACE, the chip and the results
(41_memory_ops R120 to R123) end the same. Both runs draw the same free values, since both start from one state: that is the
model's coupling (log 7), not a law of two runs of the hardware. -/
def Obligations.OneByteOperationsShareTheirFrame : Prop :=
  ∀ (A : Address) (s : State), s.ready →
    (∀ V : Byte, ∃ t u, exec (.writeByte A V) s = .next t ∧ exec (.sequentialWrite A [V]) s = .next u ∧
      t.trace = u.trace ∧ t.dev = u.dev ∧ t.res = u.res ∧ t.stalled = u.stalled) ∧
    (∃ t u, exec (.readByte A) s = .next t ∧ exec (.sequentialRead A 1) s = .next u ∧
      t.trace = u.trace ∧ t.dev = u.dev ∧ t.res.ok = u.res.ok ∧ t.res.count = u.res.count ∧ t.stalled = u.stalled ∧
      (t.stalled = false → t.res.ok = true → u.res.rbuf = t.res.val8 :: s.res.rbuf.drop 1))

/-! ## Whole-machine rules -/

/-- R126, the round-trip law, with its premises: what a sequential_write wrote, a sequential_read of the same address and
length returns; also beyond 256 bytes, up to the size of the array (the wrap: log 10). -/
def Obligations.RoundTripReturnsPayload : Prop :=
  ∀ (A : Address) (P : List Byte) (s : State), s.ready → s.faultFree → s.spi → s.sequential → P.length ≤ arraySize →
    ∃ t u, exec (.sequentialWrite A P) s = .next t ∧ exec (.sequentialRead A P.length) t = .next u ∧
      t.res.ok = true ∧ u.res.ok = true ∧ u.res.count = P.length ∧ u.res.rbuf.take P.length = P

/-- 10_state R13, R36 (log 2): a step runs the decoded instruction: when the oldest input is a request that decodes to `i` and
no operation runs, the step is `exec i`, the input taken. -/
def Obligations.StepRunsTheDecodedInstruction : Prop :=
  ∀ (s : State) (c : Code) (rest : List Input) (i : Instr), s.inputs = .request c :: rest → s.heldOff = false →
    decode c = .instr i → step s = exec i { s with inputs := rest }

/-- 10_state R17, R36, 60_exceptions R201 (logs 2, 24): the host's buffer is loaded between operations and changes nothing else;
without an input nothing happens. -/
def Obligations.HostBufferAndIdleStep : Prop :=
  (∀ (s : State) (bytes : List Byte) (rest : List Input), s.inputs = .buffer bytes :: rest → s.heldOff = false →
    step s = .next { s with res := { s.res with rbuf := bytes }, inputs := rest }) ∧
  (∀ s : State, s.inputs = [] → step s = .next s)

/-- 10_state R35: the invariant of Safety.lean holds at reset. Its clause on RES.err rests on the value the model gives RES at
reset, which R35 leaves unspecified (log 19), its clause on the memory on the model's form of it (log 8). -/
def Obligations.InvariantHoldsAtReset : Prop := State.reset.Inv

/-- 40_transport R105, R106, R109, 30_encoding R90, 10_state R12, R13, 60_exceptions R181: every step keeps the invariant of
Safety.lean: the discipline of TRACE and of the codes in it, pins, session, BUSY and sequencer in step with each other, SCK
at rest (in a hung machine by log 33), no frame at the chip between sessions, the memory's form (log 8), no reserved
failure code (after a reset input by the model's value of RES, which R35 and R210 leave unspecified: log 20). A step is a
whole operation, so that between steps only a hung one is running (log 1). For every input and every choice of the
environment. -/
def Obligations.StepKeepsInvariant : Prop :=
  ∀ s t : State, s.Inv → step s = .next t → t.Inv

/-- 10_state R21, R16: no state of PSS carries meaning from one operation to the next: from two ready states that agree on the
chip, on the environment's choices and on the number of the next free value (the model's coupling of the two runs, log 7), an
operation or frame does the same on the wire and to the chip and leaves the two agreeing again; and a host operation that ends
has put the same values in every result register it writes (`SameReport`). -/
def Obligations.NothingCarriesOverBetweenOperations : Prop :=
  ∀ (i : Instr) (s t : State), isHostOp i = true ∨ isFrame i = true → s.ready → t.ready →
    t.dev = s.dev → t.env = s.env → t.draws = s.draws →
    ∃ s' t' es, exec i s = .next s' ∧ exec i t = .next t' ∧ t'.dev = s'.dev ∧ t'.env = s'.env ∧ t'.draws = s'.draws ∧
      t'.stalled = s'.stalled ∧ s'.trace = s.trace ++ es ∧ t'.trace = t.trace ++ es ∧
      (s'.stalled = false → s'.ready ∧ t'.ready) ∧
      (isHostOp i = true → s'.stalled = false → SameReport i s'.res t'.res)

/-- 10_state R21, R37 (log 1), step by step and in every state: two states of PSS that agree in all but its command and result
registers, its trace so far, its lines, its sequencer and what its last calls returned (`Agree`) do the same: if one takes a step
so does the other, to states that agree again, with the same events on the wire (a reset empties both traces: log 20). Both draw
the same free values, the model's coupling of the two runs (log 7). -/
def Obligations.StepKeepsAgreement : Prop :=
  ∀ s t s' : State, Agree s t → step s = .next s' → ∃ t', step t = .next t' ∧ Agree s' t' ∧
    ((∃ es, s'.trace = s.trace ++ es ∧ t'.trace = t.trace ++ es) ∨ (s'.trace = [] ∧ t'.trace = []))

/-- 40_transport R106, R109, 60_exceptions R187: whatever the environment does, an operation or frame either ends with PSS
ready again, chip-select released, or hangs with chip-select and BUSY asserted. -/
def Obligations.EveryOperationEndsOrHangs : Prop :=
  ∀ (i : Instr) (s : State), isHostOp i = true ∨ isFrame i = true → s.ready → s.csN = true →
    ∃ t, exec i s = .next t ∧
      (Ended s t ∨ (t.stalled = true ∧ t.busy = true ∧ t.csN = false ∧ t.ses = .selected ∧ t.res = s.res))

/-- 40_transport R113: whatever the environment does, an operation or frame makes no more exchanges than its bound, and opens
at most two sessions. -/
def Obligations.ExchangesAreBounded : Prop :=
  ∀ (i : Instr) (s : State), isHostOp i = true ∨ isFrame i = true → s.ready →
    ∃ t es, exec i s = .next t ∧ t.trace = s.trace ++ es ∧ (outBytes es).length ≤ maxExchanges i ∧
      sessionsOpened es ≤ 2

/-- 70_reset_and_hazards R230: the clock cycles of a fault-free operation, eight for each byte: write_byte 40,
sequential_write 32 + 8L, read_byte 40, sequential_read 32 + 8L, get_status and set_status 24, a setter 48, decode_status 0.
Counted are the leading edges of SCK in the exchanges of TRACE (`clockCycles`); that an exchange makes exactly those edges is a
clause of ExchangeShiftsBothBytesMsbFirst (the clock modes: log 29). -/
def Obligations.ClockCyclesOfOperations : Prop :=
  ∀ (i : Instr) (s : State), isHostOp i = true ∨ isFrame i = true →
    (∀ f arg, isSetter f arg i → argValid f arg = true) → s.ready → s.faultFree →
    ∃ t es, exec i s = .next t ∧ t.trace = s.trace ++ es ∧ clockCycles es = 8 * maxExchanges i

/-- 10_state R25, 70_reset_and_hazards R224: without a transport fault only set_status, and the WRITE_STATUS frame, can take the
chip's PROTOCOL away from SPI (a setter whose write falls short leaves the whole register any value: log 17). That an array frame
leaves PROTOCOL in MODE 11 too is the model's choice (log 12). -/
def Obligations.OnlyStatusWritesChangeProtocol : Prop :=
  ∀ (i : Instr) (s t : State), isHostOp i = true ∨ isFrame i = true → (∀ v, i ≠ .setStatus v) →
    (∀ v, i ≠ .writeStatus v) →
    s.ready → s.faultFree → s.spi → exec i s = .next t → t.spi

/-! ## Reset -/

/-- 10_state R35: the values the spec gives for reset; unspecified ones are not stated. -/
def Obligations.ResetValues : Prop :=
  State.reset.dev.status = 0x4014 ∧ State.reset.dev.frm = .noFrame ∧ State.reset.ses = .idle ∧ State.reset.csN = true ∧
  State.reset.lines.sck = Config.cpol ∧ State.reset.busy = false ∧ State.reset.seq = ⟨.ready, 0, 7⟩ ∧
  State.reset.trace = []

/-- 70_reset_and_hazards R210: a reset of PSS at any time: PSS is idle with chip-select released and TRACE empty, and the chip
is not reset: with no frame in progress it is as it was. That TRACE begins anew is log 20; how a reset meets a running
operation: log 1. -/
def Obligations.PssResetAbandonsOperation : Prop :=
  ∀ (s : State) (rest : List Input), s.inputs = .reset :: rest → ∃ t, step s = .next t ∧
    t.ses = .idle ∧ t.csN = true ∧ t.lines.sck = Config.cpol ∧ t.busy = false ∧ t.stalled = false ∧
    t.seq = ⟨.ready, 0, 7⟩ ∧ t.trace = [] ∧ t.inputs = rest ∧ t.env = s.env ∧ (s.ses = .idle → t.dev = s.dev)

/-- 70_reset_and_hazards R210, 93 U10 (log 18): a reset that cuts an SPI frame, however much of it was sent: of an array frame in
a named mode, `out` being its payload or response part, every location off the pointer's run (log 11; in
Sequential mode `(A[18:0] + j) mod 2^19`, whose wrap is log 10) and the register but ECS are as they were, and every location on
it holds a free value; of a status frame, every location is as it was, and the register but ECS is a free value, in MODE 11 too
(log 12). `s.work.frame` is the whole frame, the part still to be sent in it. (After a power-up in the hung machine the chip is in
no frame: log 32.) -/
def Obligations.PssResetSparesOtherLocations : Prop :=
  ∀ (s : State) (rest : List Input), s.inputs = .reset :: rest → s.ses = .selected → s.spi →
    s.dev.frm ≠ .lost → s.dev.frm ≠ .reservedMode →
    ∃ t, step s = .next t ∧
      (∀ (A : Address) (k : Dir) (out : List Byte), s.modeNamed →
        s.work.frame = [(match k with | .write => 0x02 | .read => 0x03 : Byte), addrHigh A, addrMid A, addrLow A] ++ out →
        t.dev.config = s.dev.config ∧
        (∀ a, (∀ j, j < out.length → a ≠ payloadLocation s.dev A j) → t.dev.byteAt a = s.dev.byteAt a) ∧
        (s.dev.frm ≠ .noFrame → ∀ j, j < out.length →
          ∃ n, t.dev.byteAt (payloadLocation s.dev A j) = Config.freeByte n) ∧
        (s.sequential → ∀ j, payloadLocation s.dev A j = sequentialLocation A j)) ∧
      (∀ c b1 b2 : Byte, c = 0x01 ∨ c = 0x05 → s.work.frame = [c, b1, b2] →
        (∀ a, t.dev.byteAt a = s.dev.byteAt a) ∧
        (s.dev.frm ≠ .noFrame → ∃ n, t.dev.config = Config.freeStatus n &&& ~~~Field.ecs.mask))

/-- 70_reset_and_hazards R211: a power-up of the chip gives its register the default 0x4014; PSS is not concerned. That it
ends a frame in progress, chip-select asserted, is the model's choice (log 32); the literal 0x4014: log 28. -/
def Obligations.ChipPowerUpRestoresDefault : Prop :=
  ∀ (s : State) (rest : List Input), s.inputs = .powerUp :: rest → ∃ t, step s = .next t ∧
    t.dev.status = 0x4014 ∧ t.dev.frm = .noFrame ∧ t.inputs = rest ∧ t.csN = s.csN ∧ t.ses = s.ses ∧ t.busy = s.busy ∧
    t.stalled = s.stalled ∧ t.cmd = s.cmd ∧ t.res = s.res ∧ t.seq = s.seq ∧ t.trace = s.trace ∧ t.env = s.env ∧
    t.lines = s.lines
end

