-- ==== Sys2Proof/Laws/Bits.lean ====
section
/-!
SUPPORT. The laws of bits: splits and joins of the address and the status value, fields, and the eight cycles of an exchange.
-/

namespace Sys2Proof

/-- The bits of a joined status value. -/
theorem joinStatus_getLsbD (a b : Byte) (i : Nat) :
    (joinStatus a b).getLsbD i = if i < 8 then b.getLsbD i else a.getLsbD (i - 8) := by
  simp only [joinStatus, BitVec.getLsbD_append]

/-- The status value put together again from its two bytes (R83). -/
@[simp] theorem joinStatus_split (v : StatusWord) : joinStatus (statusHigh v) (statusLow v) = v := by
  apply BitVec.eq_of_getLsbD_eq
  intro i h
  simp only [joinStatus_getLsbD, statusHigh, statusLow, BitVec.getLsbD_extractLsb']
  split
  · simp [*]
  · have e : 8 + (i - 8) = i := by omega
    have e2 : i - 8 < 8 := by omega
    simp [e, e2]

/-- The two bytes of a joined status value (R83). -/
@[simp] theorem statusHigh_join (a b : Byte) : statusHigh (joinStatus a b) = a := by
  apply BitVec.eq_of_getLsbD_eq
  intro i h
  simp only [statusHigh, BitVec.getLsbD_extractLsb', joinStatus_getLsbD]
  simp [h]

@[simp] theorem statusLow_join (a b : Byte) : statusLow (joinStatus a b) = b := by
  apply BitVec.eq_of_getLsbD_eq
  intro i h
  simp only [statusLow, BitVec.getLsbD_extractLsb', joinStatus_getLsbD]
  simp [h]

/-- The bits of the address field of a frame that carries `a` (R81). -/
theorem joinAddress_getLsbD (a : Address) (i : Nat) :
    (joinAddress (addrHigh a) (addrMid a) (addrLow a)).getLsbD i = a.getLsbD i := by
  simp only [joinAddress, addrHigh, addrMid, addrLow, BitVec.getLsbD_append, BitVec.getLsbD_extractLsb']
  by_cases h1 : i < 8
  · simp [h1]
  · by_cases h2 : i - 8 < 8
    · have e : 8 + (i - 8) = i := by omega
      simp [h1, h2, e]
    · by_cases h3 : i - 8 - 8 < 6
      · have e : 16 + (i - 8 - 8) = i := by omega
        simp [h1, h2, h3, e]
      · have e : a.getLsbD i = false := BitVec.getLsbD_of_ge _ _ (by omega)
        simp [h1, h2, h3, e]

/-- The address field of a frame that carries `a` is `a` (R81). -/
@[simp] theorem joinAddress_split (a : Address) :
    (joinAddress (addrHigh a) (addrMid a) (addrLow a)).setWidth 22 = a := by
  apply BitVec.eq_of_getLsbD_eq
  intro i h
  simp only [BitVec.getLsbD_setWidth, joinAddress_getLsbD, h, decide_true, Bool.true_and]

/-- The two top bits of AH are 0 (R81). -/
@[simp] theorem addrHigh_top (a : Address) : (addrHigh a).extractLsb' 6 2 = 0 := by
  ext i h
  simp only [addrHigh, BitVec.getElem_extractLsb', BitVec.getLsbD_append, BitVec.getLsbD_extractLsb']
  simp

end Sys2Proof

namespace Sys2Proof.Machine

/-- The location a frame that carries `a` reaches is `a[18:0]` (R53). -/
@[simp] theorem locationOf_split (a : Address) :
    locationOf (addrHigh a) (addrMid a) (addrLow a) = a.setWidth 19 := by
  apply BitVec.eq_of_getLsbD_eq
  intro i h
  simp [locationOf, BitVec.getLsbD_setWidth, joinAddress_getLsbD]

/-! ## The clock cycles of an exchange -/

/-- What one clock cycle does, in either clock mode (R104, R110). -/
theorem clockBit_eq (q : Bool) (l : Lines) :
    clockBit q l = ⟨Config.cpol, l.shr.msb, q, (l.shr <<< 1) ||| (BitVec.ofBool q).setWidth 8⟩ := by
  unfold clockBit bitActs
  cases Config.cpha <;> rfl

/-- SHR after some cycles. -/
theorem clockBits_shr_add (k : Nat) (i : Byte) (l : Lines) :
    (clockBits (k + 1) i l).shr = (clockBits k (i <<< 1) (clockBit i.msb l)).shr := rfl

/-- SCK is at rest after the cycles, if it was before (R104, R111). -/
theorem clockBits_sck (k : Nat) (i : Byte) (l : Lines) (h : l.sck = Config.cpol) : (clockBits k i l).sck = Config.cpol := by
  induction k generalizing i l with
  | zero => exact h
  | succ k ih => exact ih _ _ (by rw [clockBit_eq])

/-- SCK is at rest after at least one cycle. -/
theorem clockBits_sck_succ (k : Nat) (i : Byte) (l : Lines) : (clockBits (k + 1) i l).sck = Config.cpol :=
  clockBits_sck k _ _ (by rw [clockBit_eq])

/-- SCK is at rest after an exchange. -/
@[simp] theorem shiftByte_sck (o i : Byte) (l : Lines) : (shiftByte 8 o i l).sck = Config.cpol := clockBits_sck_succ 7 _ _

theorem shiftByte_sck_of (k : Nat) (o i : Byte) (l : Lines) (h : l.sck = Config.cpol) :
    (shiftByte k o i l).sck = Config.cpol := clockBits_sck k _ _ h

/-- One bit's acts, in either clock mode (R110). -/
theorem bitActs_apply (m q : Bool) (l : Lines) :
    (bitActs Config.cpha m q).foldl WireAct.apply l = ⟨Config.cpol, m, q, (l.shr <<< 1) ||| (BitVec.ofBool q).setWidth 8⟩ := by
  unfold bitActs
  cases Config.cpha <;> rfl

/-- The cycles of a trace, by its exchanges (R104, R230). -/
theorem clockCycles_eq (es : List BusEvent) : clockCycles es = 8 * (outBytes es).length := by
  have h : ∀ o i : Byte, (byteActs Config.cpha o i).count .lead = 8 := by
    intro o i; cases Config.cpha <;> rfl
  induction es with
  | nil => rfl
  | cons e es ih => cases e <;> simp [clockCycles, outBytes, ih, h, Nat.mul_add, Nat.add_comm]

end Sys2Proof.Machine
end

