-- ==== Sys2Proof/Laws/Memory.lean ====
section
/-!
SUPPORT. The laws of the memory: a read after a write, and that a write keeps the canonical form.
-/

namespace Sys2Proof.Machine

/-- Reading where one just wrote gives the byte written. -/
@[simp] theorem Memory.read_write_same (m : Memory) (a : Nat) (b : Byte) : (m.write a b).read a = some b := by
  induction m with
  | nil => simp [Memory.write, Memory.read]
  | cons c m ih =>
    by_cases h1 : a < c.1
    · simp [Memory.write, h1, Memory.read]
    · by_cases h2 : a = c.1
      · simp [Memory.write, h2, Memory.read]
      · simp [Memory.write, h1, h2, Memory.read, ih]

/-- A write leaves every other address alone. -/
theorem Memory.read_write_other (m : Memory) {a a' : Nat} (b : Byte) (h : a' ≠ a) :
    (m.write a b).read a' = m.read a' := by
  induction m with
  | nil => simp [Memory.write, Memory.read, h]
  | cons c m ih =>
    by_cases h1 : a < c.1
    · simp [Memory.write, h1, Memory.read, h]
    · by_cases h2 : a = c.1
      · subst h2; simp [Memory.write, Memory.read, h]
      · simp [Memory.write, h1, h2, Memory.read, ih]

/-- A canonical memory is canonical from any lower address. -/
theorem Memory.wfFrom_mono {lo hi : Nat} (h : lo ≤ hi) {m : Memory} (w : m.wfFrom hi = true) : m.wfFrom lo = true := by
  cases m with
  | nil => rfl
  | cons c m =>
    simp only [Memory.wfFrom, Bool.and_eq_true, decide_eq_true_eq] at w ⊢
    exact ⟨⟨by omega, w.1.2⟩, w.2⟩

/-- A write inside the array keeps the canonical form. -/
theorem Memory.wfFrom_write {lo a : Nat} (ha : lo ≤ a) (hs : a < arraySize) (b : Byte) (m : Memory)
    (w : m.wfFrom lo = true) : (m.write a b).wfFrom lo = true := by
  induction m generalizing lo with
  | nil => simp [Memory.write, Memory.wfFrom, ha, hs]
  | cons c m ih =>
    simp only [Memory.wfFrom, Bool.and_eq_true, decide_eq_true_eq] at w
    by_cases h1 : a < c.1
    · simp only [Memory.write, h1, if_true, Memory.wfFrom, Bool.and_eq_true, decide_eq_true_eq]
      exact ⟨⟨ha, hs⟩, ⟨by omega, w.1.2⟩, w.2⟩
    · by_cases h2 : a = c.1
      · subst h2
        simp only [Memory.write, lt_irrefl, if_false, if_true, Memory.wfFrom, Bool.and_eq_true, decide_eq_true_eq]
        exact ⟨⟨ha, hs⟩, w.2⟩
      · simp only [Memory.write, h1, h2, if_false, Memory.wfFrom, Bool.and_eq_true, decide_eq_true_eq]
        exact ⟨w.1, ih (by omega) w.2⟩

/-- A write inside the array keeps the canonical form. -/
theorem Memory.wf_write {m : Memory} (w : m.wf = true) {a : Nat} (h : a < arraySize) (b : Byte) : (m.write a b).wf = true :=
  Memory.wfFrom_write (Nat.zero_le a) h b m w

/-- The memory in which nothing is known is canonical. -/
@[simp] theorem Memory.wf_nil : Memory.wf [] = true := rfl

/-- The reset memory is canonical. -/
theorem reset_memory_wf : State.reset.dev.mem.wf = true := rfl

end Sys2Proof.Machine
end

