-- ==== Sys2Proof/Laws/Device.lean ====
section
/-!
SUPPORT. The laws of the chip: what its operations do to the array, that they keep the memory's form and ECS's home, and how
a frame's header is taken in.
-/

namespace Sys2Proof.Machine

/-! ## The array -/

/-- The byte at the location written. -/
@[simp] theorem Dev.byteAt_setByte_same (d : Dev) (p : Location) (b : Byte) : (d.setByte p b).byteAt p.toNat = b := by
  simp [Dev.byteAt, Dev.setByte]

/-- The byte at every other location. -/
theorem Dev.byteAt_setByte_other (d : Dev) (p : Location) (b : Byte) {a : Nat} (h : a ≠ p.toNat) :
    (d.setByte p b).byteAt a = d.byteAt a := by
  simp [Dev.byteAt, Dev.setByte, Memory.read_write_other _ _ h]

/-- Two chips with the same memory and the same unknown bytes read alike. -/
theorem Dev.byteAt_congr {d e : Dev} (hm : e.mem = d.mem) (hg : e.gen = d.gen) (a : Nat) : e.byteAt a = d.byteAt a := by
  simp [Dev.byteAt, hm, hg]

/-! ## The form of the chip's data -/

/-- The memory is canonical and ECS has one home. -/
def Dev.Ok (d : Dev) : Prop := d.mem.wf = true ∧ d.config &&& Field.ecs.mask = 0

theorem Dev.Ok.setByte {d : Dev} (h : d.Ok) (p : Location) (b : Byte) : (d.setByte p b).Ok :=
  ⟨Memory.wf_write h.1 p.isLt b, h.2⟩

theorem Dev.Ok.advance {d : Dev} (h : d.Ok) : d.advance.Ok := h

theorem Dev.setStatus_ecsHome (v : StatusWord) : (v &&& ~~~Field.ecs.mask) &&& Field.ecs.mask = 0 := by
  simp [Field.mask, BitVec.and_assoc]

theorem Dev.Ok.setStatus {d : Dev} (h : d.Ok) (v : StatusWord) : (d.setStatus v).Ok :=
  ⟨h.1, Dev.setStatus_ecsHome v⟩

/-- A status write leaves ECS's place 0 (R64). -/
theorem configAfterWrite_ecsHome (w old : StatusWord) : configAfterWrite w old &&& Field.ecs.mask = 0 := by
  have h : ∀ a b : StatusWord, ((a &&& writableMask) ||| (b &&& reservedMask)) &&& Field.ecs.mask = 0 := by
    intro a b
    rw [BitVec.and_or_distrib_right, BitVec.and_assoc, BitVec.and_assoc]
    simp [writableMask, reservedMask, Field.mask]
  unfold configAfterWrite reservedAfter
  split
  · exact h _ _
  · split <;> exact h _ _

/-- A completed exchange keeps the form. -/
theorem Dev.Ok.exchange {d : Dev} (h : d.Ok) (o : Byte) : (d.exchange o).Ok := by
  unfold Dev.exchange
  split <;> first | exact h | exact (h.setByte _ _) | exact ⟨h.1, configAfterWrite_ecsHome _ _⟩

/-- The end of a frame keeps the form. -/
theorem Dev.Ok.endFrame {d : Dev} (h : d.Ok) (n : Nat) (e : BitVec 1) : (d.endFrame n e).Ok := by
  unfold Dev.endFrame
  split
  · exact ⟨rfl, Dev.setStatus_ecsHome _⟩
  · exact ⟨rfl, h.2⟩
  · exact h

/-- A frame ends in no frame. -/
@[simp] theorem Dev.endFrame_frm (d : Dev) (n : Nat) (e : BitVec 1) : (d.endFrame n e).frm = .noFrame := by
  unfold Dev.endFrame; split <;> rfl

theorem Dev.Ok.garbleByte {d : Dev} (h : d.Ok) (o : Byte) (n : Nat) : (d.garbleByte o n).Ok := by
  unfold Dev.garbleByte
  split <;> first | exact h.setByte _ _ | exact h.setStatus _ | exact h.exchange o

theorem Dev.Ok.garble {d : Dev} (h : d.Ok) (os : List Byte) (n : Nat) : (Dev.garble os n d).Ok := by
  induction os generalizing n d with
  | nil => exact h
  | cons o os ih => exact ih (h.garbleByte o n) (n + 1)

theorem Dev.Ok.fallShort {d : Dev} (h : d.Ok) (os : List Byte) (n : Nat) : (Dev.fallShort os n d).Ok := h.garble os n

theorem Dev.Ok.startFrame {d : Dev} (h : d.Ok) : d.startFrame.Ok := h

theorem Dev.Ok.abandon {d : Dev} (h : d.Ok) (out : List Byte) (n : Nat) (e : BitVec 1) : (d.abandon out n e).Ok := by
  unfold Dev.abandon
  split
  · exact h.endFrame n e
  · exact h.endFrame n e
  · exact h
  · exact Dev.Ok.endFrame (Dev.Ok.garble (d := { d with frm := .code }) h out n) _ _

/-- An abandoned frame ends in no frame. -/
@[simp] theorem Dev.abandon_frm (d : Dev) (out : List Byte) (n : Nat) (e : BitVec 1) :
    (d.abandon out n e).frm = .noFrame := by
  unfold Dev.abandon
  split
  · exact Dev.endFrame_frm _ _ _
  · exact Dev.endFrame_frm _ _ _
  · assumption
  · exact Dev.endFrame_frm _ _ _

theorem Dev.powerUp_ok (gen : Nat) : (Dev.powerUp gen).Ok :=
  ⟨rfl, show (0x4014 : StatusWord) &&& Field.ecs.mask = 0 by decide⟩

/-! ## A frame's bytes one after the other -/

@[simp] theorem Dev.exchanges_nil (d : Dev) : d.exchanges [] = d := rfl
@[simp] theorem Dev.exchanges_cons (o : Byte) (os : List Byte) (d : Dev) :
    d.exchanges (o :: os) = (d.exchange o).exchanges os := rfl
theorem Dev.exchanges_append (as bs : List Byte) (d : Dev) :
    d.exchanges (as ++ bs) = (d.exchanges as).exchanges bs := by simp [Dev.exchanges]

theorem Dev.Ok.exchanges {d : Dev} (h : d.Ok) (os : List Byte) : (d.exchanges os).Ok := by
  induction os generalizing d with
  | nil => exact h
  | cons o os ih => exact ih (h.exchange o)

/-- A started SPI frame takes in an array header: the pointer is loaded, data come next (R57). -/
theorem Dev.exchanges_header (d : Dev) (k : Dir) (c : Byte) (a : Address)
    (hc : c = (match k with | .write => codeWrite | .read => codeRead))
    (hp : protocolOf d.config = protocolSpi) (hm : modeOf d.config ≠ modeReserved) :
    d.startFrame.exchanges (header c a) =
      { d with frm := .data k, fetched := .nothing, ptr := locationOf (addrHigh a) (addrMid a) (addrLow a) } := by
  subst hc
  cases k <;>
    simp [header, Dev.startFrame, hp, Dev.exchange, Dev.afterCode, Dev.arrayFrame, hm, codeWrite, codeRead]

/-- A started SPI frame takes in the code of a status read (R57). -/
theorem Dev.exchanges_readStatus (d : Dev) (hp : protocolOf d.config = protocolSpi) :
    d.startFrame.exchanges readStatusHeader = { d with frm := .statusOutHigh, fetched := .nothing } := by
  simp [readStatusHeader, Dev.startFrame, hp, Dev.exchange, Dev.afterCode, codeWrite, codeRead, codeReadStatus]

/-- A started SPI frame takes in a whole status write (R57, R64). -/
theorem Dev.exchanges_writeStatus (d : Dev) (v : StatusWord) (hp : protocolOf d.config = protocolSpi) :
    d.startFrame.exchanges (writeStatusFrame v) =
      { d with config := configAfterWrite (joinStatus (statusHigh v) (statusLow v)) d.config, frm := .complete, fetched := .nothing } := by
  simp [writeStatusFrame, Dev.startFrame, hp, Dev.exchange, Dev.afterCode, codeWrite, codeRead, codeReadStatus,
    codeWriteStatus]

end Sys2Proof.Machine
end

