-- ==== Sys2Proof/Laws/State.lean ====
section
/-!
SUPPORT. For every named update of the state, what each field is afterwards, so that no proof unfolds a record update.
-/

namespace Sys2Proof.Machine

/-! ## xchg -/

@[simp] theorem xchg_csN (o : Byte) (s : State) : (xchg o s).csN = s.csN := rfl
@[simp] theorem xchg_lines (o : Byte) (s : State) : (xchg o s).lines = (shiftByte 8 o (answer s) s.lines).release s.draws := rfl
@[simp] theorem xchg_ses (o : Byte) (s : State) : (xchg o s).ses = s.ses := rfl
@[simp] theorem xchg_busy (o : Byte) (s : State) : (xchg o s).busy = s.busy := rfl
@[simp] theorem xchg_stalled (o : Byte) (s : State) : (xchg o s).stalled = s.stalled := rfl
@[simp] theorem xchg_cmd (o : Byte) (s : State) : (xchg o s).cmd = s.cmd := rfl
@[simp] theorem xchg_res (o : Byte) (s : State) : (xchg o s).res = s.res := rfl
@[simp] theorem xchg_seq (o : Byte) (s : State) : (xchg o s).seq = { s.seq with idx := s.seq.idx + 1, bit := 7 } := rfl
@[simp] theorem xchg_work (o : Byte) (s : State) : (xchg o s).work = s.work := rfl
@[simp] theorem xchg_trace (o : Byte) (s : State) : (xchg o s).trace = s.trace ++ [.x o (answer s)] := rfl
@[simp] theorem xchg_dev (o : Byte) (s : State) : (xchg o s).dev = onDevice (Dev.exchange o) s := rfl
@[simp] theorem xchg_env (o : Byte) (s : State) : (xchg o s).env = s.env.answered := rfl
@[simp] theorem xchg_draws (o : Byte) (s : State) : (xchg o s).draws = s.draws + 1 := rfl
@[simp] theorem xchg_inputs (o : Byte) (s : State) : (xchg o s).inputs = s.inputs := rfl

/-! ## stallIn -/

@[simp] theorem stallIn_csN (o : Byte) (b : Fin 8) (s : State) : (stallIn o b s).csN = s.csN := rfl
@[simp] theorem stallIn_lines (o : Byte) (b : Fin 8) (s : State) : (stallIn o b s).lines = (shiftByte b.val o (answer s) s.lines).release s.draws := rfl
@[simp] theorem stallIn_ses (o : Byte) (b : Fin 8) (s : State) : (stallIn o b s).ses = s.ses := rfl
@[simp] theorem stallIn_busy (o : Byte) (b : Fin 8) (s : State) : (stallIn o b s).busy = s.busy := rfl
@[simp] theorem stallIn_stalled (o : Byte) (b : Fin 8) (s : State) : (stallIn o b s).stalled = true := rfl
@[simp] theorem stallIn_cmd (o : Byte) (b : Fin 8) (s : State) : (stallIn o b s).cmd = s.cmd := rfl
@[simp] theorem stallIn_res (o : Byte) (b : Fin 8) (s : State) : (stallIn o b s).res = s.res := rfl
@[simp] theorem stallIn_seq (o : Byte) (b : Fin 8) (s : State) : (stallIn o b s).seq = { s.seq with bit := 7 - b } := rfl
@[simp] theorem stallIn_work (o : Byte) (b : Fin 8) (s : State) : (stallIn o b s).work = s.work := rfl
@[simp] theorem stallIn_trace (o : Byte) (b : Fin 8) (s : State) : (stallIn o b s).trace = s.trace := rfl
@[simp] theorem stallIn_dev (o : Byte) (b : Fin 8) (s : State) : (stallIn o b s).dev = s.dev := rfl
@[simp] theorem stallIn_env (o : Byte) (b : Fin 8) (s : State) : (stallIn o b s).env = s.env := rfl
@[simp] theorem stallIn_draws (o : Byte) (b : Fin 8) (s : State) : (stallIn o b s).draws = s.draws + 1 := rfl
@[simp] theorem stallIn_inputs (o : Byte) (b : Fin 8) (s : State) : (stallIn o b s).inputs = s.inputs := rfl

/-! ## fallShort -/

@[simp] theorem fallShort_csN (l : List Byte) (s : State) : (fallShort l s).csN = s.csN := rfl
@[simp] theorem fallShort_lines (l : List Byte) (s : State) : (fallShort l s).lines = s.lines := rfl
@[simp] theorem fallShort_ses (l : List Byte) (s : State) : (fallShort l s).ses = s.ses := rfl
@[simp] theorem fallShort_busy (l : List Byte) (s : State) : (fallShort l s).busy = s.busy := rfl
@[simp] theorem fallShort_stalled (l : List Byte) (s : State) : (fallShort l s).stalled = s.stalled := rfl
@[simp] theorem fallShort_cmd (l : List Byte) (s : State) : (fallShort l s).cmd = s.cmd := rfl
@[simp] theorem fallShort_res (l : List Byte) (s : State) : (fallShort l s).res = s.res := rfl
@[simp] theorem fallShort_seq (l : List Byte) (s : State) : (fallShort l s).seq = s.seq := rfl
@[simp] theorem fallShort_work (l : List Byte) (s : State) : (fallShort l s).work = s.work := rfl
@[simp] theorem fallShort_trace (l : List Byte) (s : State) : (fallShort l s).trace = s.trace := rfl
@[simp] theorem fallShort_dev (l : List Byte) (s : State) : (fallShort l s).dev = onDevice (Dev.fallShort l s.draws) s := rfl
@[simp] theorem fallShort_env (l : List Byte) (s : State) : (fallShort l s).env = s.env := rfl
@[simp] theorem fallShort_draws (l : List Byte) (s : State) : (fallShort l s).draws = s.draws + l.length := rfl
@[simp] theorem fallShort_inputs (l : List Byte) (s : State) : (fallShort l s).inputs = s.inputs := rfl

/-! ## select -/

@[simp] theorem select_csN (s : State) : (select s).csN = false := rfl
@[simp] theorem select_lines (s : State) : (select s).lines = s.lines := rfl
@[simp] theorem select_ses (s : State) : (select s).ses = .selected := rfl
@[simp] theorem select_busy (s : State) : (select s).busy = s.busy := rfl
@[simp] theorem select_stalled (s : State) : (select s).stalled = s.stalled := rfl
@[simp] theorem select_cmd (s : State) : (select s).cmd = s.cmd := rfl
@[simp] theorem select_res (s : State) : (select s).res = s.res := rfl
@[simp] theorem select_seq (s : State) : (select s).seq = s.seq := rfl
@[simp] theorem select_work (s : State) : (select s).work = { s.work with out := [], due := 0 } := rfl
@[simp] theorem select_trace (s : State) : (select s).trace = s.trace ++ [.sel] := rfl
@[simp] theorem select_dev (s : State) : (select s).dev = onDevice Dev.startFrame s := rfl
@[simp] theorem select_env (s : State) : (select s).env = s.env := rfl
@[simp] theorem select_draws (s : State) : (select s).draws = s.draws := rfl
@[simp] theorem select_inputs (s : State) : (select s).inputs = s.inputs := rfl

/-! ## deselect -/

@[simp] theorem deselect_csN (s : State) : (deselect s).csN = true := rfl
@[simp] theorem deselect_lines (s : State) : (deselect s).lines = s.lines := rfl
@[simp] theorem deselect_ses (s : State) : (deselect s).ses = .idle := rfl
@[simp] theorem deselect_busy (s : State) : (deselect s).busy = s.busy := rfl
@[simp] theorem deselect_stalled (s : State) : (deselect s).stalled = s.stalled := rfl
@[simp] theorem deselect_cmd (s : State) : (deselect s).cmd = s.cmd := rfl
@[simp] theorem deselect_res (s : State) : (deselect s).res = s.res := rfl
@[simp] theorem deselect_seq (s : State) : (deselect s).seq = s.seq := rfl
@[simp] theorem deselect_work (s : State) : (deselect s).work = { s.work with out := [], due := 0 } := rfl
@[simp] theorem deselect_trace (s : State) : (deselect s).trace = s.trace ++ [.desel] := rfl
@[simp] theorem deselect_dev (s : State) : (deselect s).dev = onDevice (Dev.endFrame s.draws (ecsDraw s)) s := rfl
@[simp] theorem deselect_env (s : State) : (deselect s).env = s.env.frameEnded s.dev := rfl
@[simp] theorem deselect_draws (s : State) : (deselect s).draws = s.draws + 1 := rfl
@[simp] theorem deselect_inputs (s : State) : (deselect s).inputs = s.inputs := rfl

/-! ## beginCall -/

@[simp] theorem beginCall_csN (l : List Byte) (s : State) : (beginCall l s).csN = s.csN := rfl
@[simp] theorem beginCall_lines (l : List Byte) (s : State) : (beginCall l s).lines = s.lines := rfl
@[simp] theorem beginCall_ses (l : List Byte) (s : State) : (beginCall l s).ses = s.ses := rfl
@[simp] theorem beginCall_busy (l : List Byte) (s : State) : (beginCall l s).busy = s.busy := rfl
@[simp] theorem beginCall_stalled (l : List Byte) (s : State) : (beginCall l s).stalled = s.stalled := rfl
@[simp] theorem beginCall_cmd (l : List Byte) (s : State) : (beginCall l s).cmd = s.cmd := rfl
@[simp] theorem beginCall_res (l : List Byte) (s : State) : (beginCall l s).res = s.res := rfl
@[simp] theorem beginCall_seq (l : List Byte) (s : State) : (beginCall l s).seq = { s.seq with idx := 0, bit := 7 } := rfl
@[simp] theorem beginCall_work (l : List Byte) (s : State) : (beginCall l s).work = { s.work with out := s.work.out ++ l } := rfl
@[simp] theorem beginCall_trace (l : List Byte) (s : State) : (beginCall l s).trace = s.trace := rfl
@[simp] theorem beginCall_dev (l : List Byte) (s : State) : (beginCall l s).dev = s.dev := rfl
@[simp] theorem beginCall_env (l : List Byte) (s : State) : (beginCall l s).env = { s.env with calls := s.env.calls.tail } := rfl
@[simp] theorem beginCall_draws (l : List Byte) (s : State) : (beginCall l s).draws = s.draws := rfl
@[simp] theorem beginCall_inputs (l : List Byte) (s : State) : (beginCall l s).inputs = s.inputs := rfl

/-! ## announce -/

@[simp] theorem announce_csN (k : Nat) (s : State) : (announce k s).csN = s.csN := rfl
@[simp] theorem announce_lines (k : Nat) (s : State) : (announce k s).lines = s.lines := rfl
@[simp] theorem announce_ses (k : Nat) (s : State) : (announce k s).ses = s.ses := rfl
@[simp] theorem announce_busy (k : Nat) (s : State) : (announce k s).busy = s.busy := rfl
@[simp] theorem announce_stalled (k : Nat) (s : State) : (announce k s).stalled = s.stalled := rfl
@[simp] theorem announce_cmd (k : Nat) (s : State) : (announce k s).cmd = s.cmd := rfl
@[simp] theorem announce_res (k : Nat) (s : State) : (announce k s).res = s.res := rfl
@[simp] theorem announce_seq (k : Nat) (s : State) : (announce k s).seq = s.seq := rfl
@[simp] theorem announce_trace (k : Nat) (s : State) : (announce k s).trace = s.trace := rfl
@[simp] theorem announce_dev (k : Nat) (s : State) : (announce k s).dev = s.dev := rfl
@[simp] theorem announce_env (k : Nat) (s : State) : (announce k s).env = s.env := rfl
@[simp] theorem announce_draws (k : Nat) (s : State) : (announce k s).draws = s.draws := rfl
@[simp] theorem announce_inputs (k : Nat) (s : State) : (announce k s).inputs = s.inputs := rfl
@[simp] theorem announce_work (k : Nat) (s : State) : (announce k s).work = { s.work with due := k } := rfl

/-! ## accept -/

@[simp] theorem accept_csN (f : Cmd → Cmd) (s : State) : (accept f s).csN = s.csN := rfl
@[simp] theorem accept_lines (f : Cmd → Cmd) (s : State) : (accept f s).lines = s.lines := rfl
@[simp] theorem accept_ses (f : Cmd → Cmd) (s : State) : (accept f s).ses = s.ses := rfl
@[simp] theorem accept_busy (f : Cmd → Cmd) (s : State) : (accept f s).busy = true := rfl
@[simp] theorem accept_stalled (f : Cmd → Cmd) (s : State) : (accept f s).stalled = s.stalled := rfl
@[simp] theorem accept_cmd (f : Cmd → Cmd) (s : State) : (accept f s).cmd = f s.cmd := rfl
@[simp] theorem accept_res (f : Cmd → Cmd) (s : State) : (accept f s).res = s.res := rfl
@[simp] theorem accept_seq (f : Cmd → Cmd) (s : State) : (accept f s).seq = s.seq := rfl
@[simp] theorem accept_work (f : Cmd → Cmd) (s : State) : (accept f s).work = s.work := rfl
@[simp] theorem accept_trace (f : Cmd → Cmd) (s : State) : (accept f s).trace = s.trace := rfl
@[simp] theorem accept_dev (f : Cmd → Cmd) (s : State) : (accept f s).dev = s.dev := rfl
@[simp] theorem accept_env (f : Cmd → Cmd) (s : State) : (accept f s).env = s.env := rfl
@[simp] theorem accept_draws (f : Cmd → Cmd) (s : State) : (accept f s).draws = s.draws := rfl
@[simp] theorem accept_inputs (f : Cmd → Cmd) (s : State) : (accept f s).inputs = s.inputs := rfl

/-! ## finish -/

@[simp] theorem finish_csN (s : State) : (finish s).csN = s.csN := rfl
@[simp] theorem finish_lines (s : State) : (finish s).lines = s.lines := rfl
@[simp] theorem finish_ses (s : State) : (finish s).ses = s.ses := rfl
@[simp] theorem finish_busy (s : State) : (finish s).busy = false := rfl
@[simp] theorem finish_stalled (s : State) : (finish s).stalled = s.stalled := rfl
@[simp] theorem finish_cmd (s : State) : (finish s).cmd = s.cmd := rfl
@[simp] theorem finish_res (s : State) : (finish s).res = s.res := rfl
@[simp] theorem finish_seq (s : State) : (finish s).seq = Seq.ready := rfl
@[simp] theorem finish_work (s : State) : (finish s).work = s.work := rfl
@[simp] theorem finish_trace (s : State) : (finish s).trace = s.trace := rfl
@[simp] theorem finish_dev (s : State) : (finish s).dev = s.dev := rfl
@[simp] theorem finish_env (s : State) : (finish s).env = s.env := rfl
@[simp] theorem finish_draws (s : State) : (finish s).draws = s.draws := rfl
@[simp] theorem finish_inputs (s : State) : (finish s).inputs = s.inputs := rfl

/-! ## complete -/

@[simp] theorem complete_csN (s : State) : (complete s).csN = s.csN := rfl
@[simp] theorem complete_lines (s : State) : (complete s).lines = s.lines := rfl
@[simp] theorem complete_ses (s : State) : (complete s).ses = s.ses := rfl
@[simp] theorem complete_busy (s : State) : (complete s).busy = false := rfl
@[simp] theorem complete_stalled (s : State) : (complete s).stalled = s.stalled := rfl
@[simp] theorem complete_cmd (s : State) : (complete s).cmd = s.cmd := rfl
@[simp] theorem complete_res (s : State) : (complete s).res = s.res.succeed := rfl
@[simp] theorem complete_seq (s : State) : (complete s).seq = Seq.ready := rfl
@[simp] theorem complete_work (s : State) : (complete s).work = s.work := rfl
@[simp] theorem complete_trace (s : State) : (complete s).trace = s.trace := rfl
@[simp] theorem complete_dev (s : State) : (complete s).dev = s.dev := rfl
@[simp] theorem complete_env (s : State) : (complete s).env = s.env := rfl
@[simp] theorem complete_draws (s : State) : (complete s).draws = s.draws := rfl
@[simp] theorem complete_inputs (s : State) : (complete s).inputs = s.inputs := rfl

/-! ## powerUp -/

@[simp] theorem powerUp_csN (s : State) : (powerUp s).csN = s.csN := rfl
@[simp] theorem powerUp_lines (s : State) : (powerUp s).lines = s.lines := rfl
@[simp] theorem powerUp_ses (s : State) : (powerUp s).ses = s.ses := rfl
@[simp] theorem powerUp_busy (s : State) : (powerUp s).busy = s.busy := rfl
@[simp] theorem powerUp_stalled (s : State) : (powerUp s).stalled = s.stalled := rfl
@[simp] theorem powerUp_cmd (s : State) : (powerUp s).cmd = s.cmd := rfl
@[simp] theorem powerUp_res (s : State) : (powerUp s).res = s.res := rfl
@[simp] theorem powerUp_seq (s : State) : (powerUp s).seq = s.seq := rfl
@[simp] theorem powerUp_work (s : State) : (powerUp s).work = s.work := rfl
@[simp] theorem powerUp_trace (s : State) : (powerUp s).trace = s.trace := rfl
@[simp] theorem powerUp_dev (s : State) : (powerUp s).dev = Dev.powerUp s.draws := rfl
@[simp] theorem powerUp_env (s : State) : (powerUp s).env = s.env := rfl
@[simp] theorem powerUp_draws (s : State) : (powerUp s).draws = s.draws + 1 := rfl
@[simp] theorem powerUp_inputs (s : State) : (powerUp s).inputs = s.inputs := rfl

/-! ## dropInput -/

@[simp] theorem dropInput_csN (s : State) : (dropInput s).csN = s.csN := rfl
@[simp] theorem dropInput_lines (s : State) : (dropInput s).lines = s.lines := rfl
@[simp] theorem dropInput_ses (s : State) : (dropInput s).ses = s.ses := rfl
@[simp] theorem dropInput_busy (s : State) : (dropInput s).busy = s.busy := rfl
@[simp] theorem dropInput_stalled (s : State) : (dropInput s).stalled = s.stalled := rfl
@[simp] theorem dropInput_cmd (s : State) : (dropInput s).cmd = s.cmd := rfl
@[simp] theorem dropInput_res (s : State) : (dropInput s).res = s.res := rfl
@[simp] theorem dropInput_seq (s : State) : (dropInput s).seq = s.seq := rfl
@[simp] theorem dropInput_work (s : State) : (dropInput s).work = s.work := rfl
@[simp] theorem dropInput_trace (s : State) : (dropInput s).trace = s.trace := rfl
@[simp] theorem dropInput_dev (s : State) : (dropInput s).dev = s.dev := rfl
@[simp] theorem dropInput_env (s : State) : (dropInput s).env = s.env := rfl
@[simp] theorem dropInput_draws (s : State) : (dropInput s).draws = s.draws := rfl
@[simp] theorem dropInput_inputs (s : State) : (dropInput s).inputs = s.inputs.tail := rfl

/-! ## loadBuffer -/

@[simp] theorem loadBuffer_csN (l : List Byte) (s : State) : (loadBuffer l s).csN = s.csN := rfl
@[simp] theorem loadBuffer_lines (l : List Byte) (s : State) : (loadBuffer l s).lines = s.lines := rfl
@[simp] theorem loadBuffer_ses (l : List Byte) (s : State) : (loadBuffer l s).ses = s.ses := rfl
@[simp] theorem loadBuffer_busy (l : List Byte) (s : State) : (loadBuffer l s).busy = s.busy := rfl
@[simp] theorem loadBuffer_stalled (l : List Byte) (s : State) : (loadBuffer l s).stalled = s.stalled := rfl
@[simp] theorem loadBuffer_cmd (l : List Byte) (s : State) : (loadBuffer l s).cmd = s.cmd := rfl
@[simp] theorem loadBuffer_res (l : List Byte) (s : State) : (loadBuffer l s).res = { s.res with rbuf := l } := rfl
@[simp] theorem loadBuffer_seq (l : List Byte) (s : State) : (loadBuffer l s).seq = s.seq := rfl
@[simp] theorem loadBuffer_work (l : List Byte) (s : State) : (loadBuffer l s).work = s.work := rfl
@[simp] theorem loadBuffer_trace (l : List Byte) (s : State) : (loadBuffer l s).trace = s.trace := rfl
@[simp] theorem loadBuffer_dev (l : List Byte) (s : State) : (loadBuffer l s).dev = s.dev := rfl
@[simp] theorem loadBuffer_env (l : List Byte) (s : State) : (loadBuffer l s).env = s.env := rfl
@[simp] theorem loadBuffer_draws (l : List Byte) (s : State) : (loadBuffer l s).draws = s.draws := rfl
@[simp] theorem loadBuffer_inputs (l : List Byte) (s : State) : (loadBuffer l s).inputs = s.inputs := rfl

/-! ## presentRequest -/

@[simp] theorem presentRequest_csN (c : Code) (s : State) : (presentRequest c s).csN = s.csN := rfl
@[simp] theorem presentRequest_lines (c : Code) (s : State) : (presentRequest c s).lines = s.lines := rfl
@[simp] theorem presentRequest_ses (c : Code) (s : State) : (presentRequest c s).ses = s.ses := rfl
@[simp] theorem presentRequest_busy (c : Code) (s : State) : (presentRequest c s).busy = s.busy := rfl
@[simp] theorem presentRequest_stalled (c : Code) (s : State) : (presentRequest c s).stalled = s.stalled := rfl
@[simp] theorem presentRequest_cmd (c : Code) (s : State) : (presentRequest c s).cmd = s.cmd := rfl
@[simp] theorem presentRequest_res (c : Code) (s : State) : (presentRequest c s).res = s.res := rfl
@[simp] theorem presentRequest_seq (c : Code) (s : State) : (presentRequest c s).seq = s.seq := rfl
@[simp] theorem presentRequest_work (c : Code) (s : State) : (presentRequest c s).work = s.work := rfl
@[simp] theorem presentRequest_trace (c : Code) (s : State) : (presentRequest c s).trace = s.trace := rfl
@[simp] theorem presentRequest_dev (c : Code) (s : State) : (presentRequest c s).dev = s.dev := rfl
@[simp] theorem presentRequest_env (c : Code) (s : State) : (presentRequest c s).env = s.env := rfl
@[simp] theorem presentRequest_draws (c : Code) (s : State) : (presentRequest c s).draws = s.draws := rfl
@[simp] theorem presentRequest_inputs (c : Code) (s : State) : (presentRequest c s).inputs = .request c :: s.inputs := rfl

end Sys2Proof.Machine
end

