-- ==== Sys2Proof/Laws/Ops.lean ====
section
/-!
SUPPORT. For each shared operation one lemma that says what it can do: the exchanges of a run, a Transfer, a Receive, a session,
and how an operation begins and ends.
-/

namespace Sys2Proof.Machine

/-! ## The chip behind the plug -/

theorem onDevice_plugged {s : State} (h : s.env.plugged = true) (f : Dev → Dev) : onDevice f s = f s.dev := by
  simp [onDevice, h]

theorem onDevice_unplugged {s : State} (h : s.env.plugged = false) (f : Dev → Dev) : onDevice f s = s.dev := by
  simp [onDevice, h]

theorem onDevice_ok {s : State} {f : Dev → Dev} (h : s.dev.Ok) (hf : ∀ d : Dev, d.Ok → (f d).Ok) : (onDevice f s).Ok := by
  unfold onDevice; split
  · exact hf _ h
  · exact h

@[simp] theorem Env.answered_calls (e : Env) : e.answered.calls = e.calls := by unfold Env.answered; split <;> rfl
@[simp] theorem Env.answered_plugged (e : Env) : e.answered.plugged = e.plugged := by unfold Env.answered; split <;> rfl
@[simp] theorem Env.answered_ecs (e : Env) : e.answered.ecs = e.ecs := by unfold Env.answered; split <;> rfl
@[simp] theorem Env.answered_ecsAfterStatus (e : Env) : e.answered.ecsAfterStatus = e.ecsAfterStatus := by
  unfold Env.answered; split <;> rfl
@[simp] theorem Env.frameEnded_calls (d : Dev) (e : Env) : (e.frameEnded d).calls = e.calls := by
  unfold Env.frameEnded; repeat (first | rfl | split)
@[simp] theorem Env.frameEnded_plugged (d : Dev) (e : Env) : (e.frameEnded d).plugged = e.plugged := by
  unfold Env.frameEnded; repeat (first | rfl | split)
@[simp] theorem Env.frameEnded_miso (d : Dev) (e : Env) : (e.frameEnded d).miso = e.miso := by
  unfold Env.frameEnded; repeat (first | rfl | split)

/-! ## A run of exchanges -/

/-- The bytes that come in while some bytes go out. -/
def incoming : List Byte → State → List Byte
  | [], _ => []
  | o :: os, s => answer s :: incoming os (xchg o s)

@[simp] theorem incoming_length (os : List Byte) (s : State) : (incoming os s).length = os.length := by
  induction os generalizing s with
  | nil => rfl
  | cons o os ih => simp [incoming, ih]

/-- What comes in depends on the chip, the plug and the environment's bytes alone. -/
structure SameAnswers (s t : State) : Prop where
  dev : t.dev = s.dev
  draws : t.draws = s.draws
  plugged : t.env.plugged = s.env.plugged
  miso : t.env.miso = s.env.miso

theorem SameAnswers.answer {s t : State} (h : SameAnswers s t) : answer t = answer s := by
  simp [Machine.answer, h.dev, h.draws, h.plugged, h.miso]

theorem SameAnswers.after {s t : State} (h : SameAnswers s t) (o : Byte) : SameAnswers (xchg o s) (xchg o t) := by
  constructor
  · simp [onDevice, h.dev, h.plugged]
  · simp [h.draws]
  · simp [h.plugged]
  · simp only [xchg_env, Env.answered, h.plugged]; split <;> simp [h.miso]

theorem SameAnswers.incoming {s t : State} (h : SameAnswers s t) (os : List Byte) : incoming os t = incoming os s := by
  induction os generalizing s t with
  | nil => rfl
  | cons o os ih => simp only [Machine.incoming, h.answer, ih (h.after o)]

/-- What a run of exchanges that sends `os` leaves of the state `s`, whatever it does with the bytes that come in. -/
structure Exchanged (os : List Byte) (s t : State) : Prop where
  csN : t.csN = s.csN
  ses : t.ses = s.ses
  busy : t.busy = s.busy
  stalled : t.stalled = s.stalled
  cmd : t.cmd = s.cmd
  res : t.res = s.res
  inputs : t.inputs = s.inputs
  out : t.work.out = s.work.out
  calls : t.env.calls = s.env.calls
  plugged : t.env.plugged = s.env.plugged
  ecs : t.env.ecs = s.env.ecs ∧ t.env.ecsAfterStatus = s.env.ecsAfterStatus
  seq : t.seq.phase = s.seq.phase ∧ t.seq.idx = s.seq.idx + os.length
  bit : s.seq.bit = 7 → t.seq.bit = 7
  sck : s.lines.sck = Config.cpol → t.lines.sck = Config.cpol
  trace : t.trace = s.trace ++ List.zipWith .x os (incoming os s)
  dev : t.dev = if s.env.plugged then s.dev.exchanges os else s.dev
  draws : t.draws = s.draws + os.length

theorem Exchanged.refl (s : State) : Exchanged [] s s := by
  constructor <;> simp [incoming]

/-- One exchange and then a run make a longer run; `t` is the state after the exchange but for its working values. -/
theorem Exchanged.cons {o : Byte} {os : List Byte} {s t u : State} (w : Work) (hw : w.out = s.work.out)
    (ht : t = { xchg o s with work := w }) (h : Exchanged os t u) : Exchanged (o :: os) s u := by
  have hi : incoming os t = incoming os (xchg o s) := SameAnswers.incoming (by subst ht; constructor <;> rfl) os
  have htr := h.trace
  have hdv := h.dev
  have hdr := h.draws
  have hsq := h.seq
  rw [hi] at htr
  subst ht
  constructor
  · exact h.csN
  · exact h.ses
  · exact h.busy
  · exact h.stalled
  · exact h.cmd
  · exact h.res
  · exact h.inputs
  · rw [h.out]; exact hw
  · simpa using h.calls
  · simpa using h.plugged
  · simpa using h.ecs
  · exact ⟨by simpa using hsq.1, by have := hsq.2; simp at this ⊢; omega⟩
  · intro _; exact h.bit rfl
  · intro _; exact h.sck (by simp [Lines.release])
  · simpa [incoming] using htr
  · rw [hdv]; by_cases hp : s.env.plugged <;> simp [onDevice, hp]
  · simp at hdr ⊢; omega

/-- Sending is a run of exchanges; the bytes are counted, what comes in is discarded (R102). -/
theorem send_exchanged (os : List Byte) (s : State) : Exchanged os s (send os s) := by
  induction os generalizing s with
  | nil => exact .refl s
  | cons o os ih => exact .cons { s.work with n := s.work.n + 1 } rfl rfl (ih _)

@[simp] theorem send_n (os : List Byte) (s : State) : (send os s).work.n = s.work.n + os.length := by
  induction os generalizing s with
  | nil => rfl
  | cons o os ih => simp only [send, ih, List.length_cons]; omega

@[simp] theorem send_r (os : List Byte) (s : State) : (send os s).work.r = s.work.r := by
  induction os generalizing s with
  | nil => rfl
  | cons o os ih => simp only [send, ih]

/-- Collecting is a run of exchanges of FILL; what comes in is kept (R103). -/
theorem collect_exchanged (k : Nat) (s : State) : Exchanged (List.replicate k Config.fill) s (collect k s) := by
  induction k generalizing s with
  | zero => exact .refl s
  | succ k ih =>
    rw [List.replicate_succ]
    exact .cons { s.work with r := s.work.r ++ [answer s] } rfl rfl (ih _)

@[simp] theorem collect_n (k : Nat) (s : State) : (collect k s).work.n = s.work.n := by
  induction k generalizing s with
  | zero => rfl
  | succ k ih => simp only [collect, ih]

theorem collect_r (k : Nat) (s : State) :
    (collect k s).work.r = s.work.r ++ incoming (List.replicate k Config.fill) s := by
  induction k generalizing s with
  | zero => simp [collect, incoming]
  | succ k ih =>
    have h : SameAnswers (xchg Config.fill s)
      { xchg Config.fill s with work := { s.work with r := s.work.r ++ [answer s] } } := by constructor <;> rfl
    rw [List.replicate_succ, incoming, ← h.incoming]
    simp only [collect, ih, List.append_assoc, List.singleton_append]

/-! ## A call that the environment lets complete -/

theorem callDraw_faultFree {s : State} (h : s.faultFree) : callDraw s = .full := by
  unfold callDraw State.faultFree at *
  cases hc : s.env.calls with
  | nil => rfl
  | cons c cs => simpa using h c (by simp [hc])

theorem faultFree_of_tail {s t : State} (h : s.faultFree) (ht : t.env.calls = s.env.calls.tail) : t.faultFree := by
  intro c hc
  rw [ht] at hc
  exact h c (List.mem_of_mem_tail hc)

theorem faultFree_of_eq {s t : State} (h : s.faultFree) (ht : t.env.calls = s.env.calls) : t.faultFree := by
  intro c hc
  rw [ht] at hc
  exact h c hc

/-- A fault-free Transfer (R102): all bytes are sent. -/
theorem transfer_full (os : List Byte) {s : State} (hs : s.stalled = false) (hc : callDraw s = .full) :
    transfer os s = send os { beginCall os s with work := { (beginCall os s).work with n := 0 } } := by
  simp [transfer, hs, hc, CallDraw.limit, endCall]

/-- A fault-free Receive (R103): all bytes arrive. -/
theorem receive_full (k : Nat) {s : State} (hs : s.stalled = false) (hc : callDraw s = .full) :
    receive k s = collect k { beginCall (List.replicate k Config.fill) s with
      work := { (beginCall (List.replicate k Config.fill) s).work with r := [], due := s.work.due - k } } := by
  simp [receive, hs, hc, CallDraw.limit, endCall]

/-! ## Phases and ends in a state that has not stalled -/

theorem enter_live {s : State} (h : s.stalled = false) (p : Phase) : enter p s = { s with seq := ⟨p, 0, 7⟩ } := by
  simp [enter, h]

theorem enter_stalled {s : State} (h : s.stalled = true) (p : Phase) : enter p s = s := by simp [enter, h]

theorem release_live {s : State} (h : s.stalled = false) : release s = deselect s := by simp [release, h]

theorem release_stalled {s : State} (h : s.stalled = true) : release s = s := by simp [release, h]

theorem putRes_live {s : State} (h : s.stalled = false) (f : Work → Res → Res) :
    putRes f s = { s with res := f s.work s.res, seq := ⟨.done, 0, 7⟩ } := by simp [putRes, h]

theorem putRes_stalled {s : State} (h : s.stalled = true) (f : Work → Res → Res) : putRes f s = s := by simp [putRes, h]

theorem settle_live {s : State} (h : s.stalled = false) (ok : Bool) :
    settle ok s = if ok then complete s else raise .shortTransfer s := by simp [settle, h]

theorem settle_stalled {s : State} (h : s.stalled = true) (ok : Bool) : settle ok s = s := by simp [settle, h]

/-- `raise` in an idle session: nothing on the bus (R186). -/
theorem raise_idle {s : State} (h : s.ses = .idle) (k : ErrKind) : raise k s = finish { s with res := s.res.fail k } := by
  simp [raise, h]

/-- A request that uses the bus, in a ready state, runs. -/
theorem onBus_ready {s : State} (h : s.ready) (f : Cmd → Cmd) (run : State → State) :
    onBus f run s = .next (run (accept f s)) := by
  obtain ⟨hb, hs, hi⟩ := h
  simp [onBus, State.heldOff, hb, hs, hi]

/-- A request that uses no bus runs whenever PSS is not busy. -/
theorem offBus_idle {s : State} (hb : s.busy = false) (hs : s.stalled = false) (f : Cmd → Cmd) (run : State → State) :
    offBus f run s = .next (run (accept f s)) := by
  simp [offBus, State.heldOff, hb, hs]

/-- A request that comes while an operation runs has no effect (R13). -/
theorem onBus_heldOff {s : State} (h : s.heldOff = true) (f : Cmd → Cmd) (run : State → State) : onBus f run s = .next s := by
  simp [onBus, h]

theorem offBus_heldOff {s : State} (h : s.heldOff = true) (f : Cmd → Cmd) (run : State → State) :
    offBus f run s = .next s := by simp [offBus, h]

/-! ## Fault-free sessions -/

/-- A fault-free Transfer, as a run of exchanges (R102). -/
theorem transfer_faultFree (os : List Byte) {s : State} (hs : s.stalled = false) (hf : s.faultFree) :
    Exchanged os (beginCall os s) (transfer os s) ∧ (transfer os s).work.n = os.length ∧
      (transfer os s).work.r = s.work.r := by
  rw [transfer_full os hs (callDraw_faultFree hf)]
  refine ⟨?_, by simp, by simp⟩
  have h := send_exchanged os { beginCall os s with work := { (beginCall os s).work with n := 0 } }
  have ha : SameAnswers (beginCall os s) { beginCall os s with work := { (beginCall os s).work with n := 0 } } := by
    constructor <;> rfl
  exact ⟨h.csN, h.ses, h.busy, h.stalled, h.cmd, h.res, h.inputs, h.out, h.calls, h.plugged, h.ecs, h.seq, h.bit, h.sck,
    by rw [h.trace, ha.incoming], h.dev, h.draws⟩

/-- A fault-free Receive, as a run of exchanges (R103). -/
theorem receive_faultFree (k : Nat) {s : State} (hs : s.stalled = false) (hf : s.faultFree) :
    Exchanged (List.replicate k Config.fill) (beginCall (List.replicate k Config.fill) s) (receive k s) ∧
      (receive k s).work.n = s.work.n ∧ (receive k s).work.r = incoming (List.replicate k Config.fill) s := by
  rw [receive_full k hs (callDraw_faultFree hf)]
  have h := collect_exchanged k { beginCall (List.replicate k Config.fill) s with
    work := { (beginCall (List.replicate k Config.fill) s).work with r := [], due := s.work.due - k } }
  have ha : SameAnswers (beginCall (List.replicate k Config.fill) s) { beginCall (List.replicate k Config.fill) s with
      work := { (beginCall (List.replicate k Config.fill) s).work with r := [], due := s.work.due - k } } := by constructor <;> rfl
  have hb : SameAnswers s (beginCall (List.replicate k Config.fill) s) := by constructor <;> rfl
  refine ⟨?_, by simp, by rw [collect_r, ha.incoming, hb.incoming]; rfl⟩
  exact ⟨h.csN, h.ses, h.busy, h.stalled, h.cmd, h.res, h.inputs, h.out, h.calls, h.plugged, h.ecs, h.seq, h.bit, h.sck,
    by rw [h.trace, ha.incoming], h.dev, h.draws⟩

/-- What a whole session that exchanged `out` leaves of the state `s` before it (R105, R106). -/
structure SessionDone (out : List Byte) (calls : Nat) (s t : State) : Prop where
  csN : t.csN = true
  ses : t.ses = .idle
  busy : t.busy = s.busy
  stalled : t.stalled = false
  cmd : t.cmd = s.cmd
  res : t.res = s.res
  inputs : t.inputs = s.inputs
  calls : t.env.calls = s.env.calls.drop calls
  plugged : t.env.plugged = s.env.plugged
  sck : s.lines.sck = Config.cpol → t.lines.sck = Config.cpol
  trace : t.trace = s.trace ++ sessionEvents out (incoming out (select s))
  dev : t.dev = if s.env.plugged then
    (s.dev.startFrame.exchanges out).endFrame (s.draws + out.length)
      (s.env.ecsAfter (s.dev.startFrame.exchanges out) (s.draws + out.length))
    else s.dev

/-- A session in progress: what is so from `Select()` on, after the exchanges of `out`. -/
structure SessionOpen (out : List Byte) (calls : Nat) (s t : State) : Prop where
  busy : t.busy = s.busy
  stalled : t.stalled = false
  cmd : t.cmd = s.cmd
  res : t.res = s.res
  inputs : t.inputs = s.inputs
  calls : t.env.calls = s.env.calls.drop calls
  plugged : t.env.plugged = s.env.plugged
  ecs : t.env.ecs = s.env.ecs ∧ t.env.ecsAfterStatus = s.env.ecsAfterStatus
  sck : s.lines.sck = Config.cpol → t.lines.sck = Config.cpol
  trace : t.trace = s.trace ++ .sel :: List.zipWith .x out (incoming out (select s))
  answers : ∀ more, incoming (out ++ more) (select s) = incoming out (select s) ++ incoming more t
  dev : t.dev = if s.env.plugged then s.dev.startFrame.exchanges out else s.dev
  draws : t.draws = s.draws + out.length

/-- After a run of exchanges what comes in goes on where the run left it. -/
theorem incoming_append {os : List Byte} {s t : State} (hm : SameAnswers
    (os.foldl (fun s o => xchg o s) s) t) (more : List Byte) :
    incoming (os ++ more) s = incoming os s ++ incoming more t := by
  rw [hm.incoming]
  clear hm
  induction os generalizing s with
  | nil => rfl
  | cons o os ih => simp [incoming, ih]

theorem SameAnswers.trans {s t u : State} (h : SameAnswers s t) (k : SameAnswers t u) : SameAnswers s u :=
  ⟨k.dev.trans h.dev, k.draws.trans h.draws, k.plugged.trans h.plugged, k.miso.trans h.miso⟩

theorem SameAnswers.afterAll {s t : State} (h : SameAnswers s t) (os : List Byte) :
    SameAnswers (os.foldl (fun s o => xchg o s) s) (os.foldl (fun s o => xchg o s) t) := by
  induction os generalizing s t with
  | nil => exact h
  | cons o os ih => exact ih (h.after o)

theorem send_sameAnswers (os : List Byte) (s : State) :
    SameAnswers (os.foldl (fun s o => xchg o s) s) (send os s) := by
  induction os generalizing s with
  | nil => constructor <;> rfl
  | cons o os ih =>
    refine (SameAnswers.afterAll ?_ os).trans (ih _)
    constructor <;> rfl

theorem collect_sameAnswers (k : Nat) (s : State) :
    SameAnswers ((List.replicate k Config.fill).foldl (fun s o => xchg o s) s) (collect k s) := by
  induction k generalizing s with
  | zero => constructor <;> rfl
  | succ k ih =>
    rw [List.replicate_succ]
    refine (SameAnswers.afterAll ?_ (List.replicate k Config.fill)).trans (ih _)
    constructor <;> rfl

/-- `Select()` opens a session. -/
theorem sessionOpen_select (p q : Phase) {s : State} (hs : s.stalled = false) :
    SessionOpen [] 0 s (enter q (select (enter p s))) := by
  have h1 : (select { s with seq := ⟨p, 0, 7⟩ }).stalled = false := hs
  rw [enter_live hs, enter_live h1]
  have h : SameAnswers (select s) { select { s with seq := ⟨p, 0, 7⟩ } with seq := ⟨q, 0, 7⟩ } := by constructor <;> rfl
  exact ⟨rfl, hs, rfl, rfl, rfl, rfl, rfl, ⟨rfl, rfl⟩, id, rfl, fun more => (h.incoming more).symm, rfl, rfl⟩

/-- Another phase of the session in progress. -/
theorem SessionOpen.enter {out : List Byte} {n : Nat} {s t : State} (h : SessionOpen out n s t) (p : Phase) :
    SessionOpen out n s (enter p t) := by
  rw [enter_live h.stalled]
  have ha : SameAnswers t { t with seq := ⟨p, 0, 7⟩ } := by constructor <;> rfl
  exact ⟨h.busy, h.stalled, h.cmd, h.res, h.inputs, h.calls, h.plugged, h.ecs, h.sck, h.trace,
    fun more => by rw [h.answers, ha.incoming], h.dev, h.draws⟩

/-- That response bytes are due changes nothing else. -/
theorem SessionOpen.announce {out : List Byte} {n : Nat} {s t : State} (h : SessionOpen out n s t) (k : Nat) :
    SessionOpen out n s (announce k t) := by
  have ha : SameAnswers t (Machine.announce k t) := by constructor <;> rfl
  exact ⟨h.busy, h.stalled, h.cmd, h.res, h.inputs, h.calls, h.plugged, h.ecs, h.sck, h.trace,
    fun more => by rw [h.answers, ha.incoming], h.dev, h.draws⟩

/-- A run of exchanges carries a session on; it took one choice of the environment. -/
theorem SessionOpen.run {out os : List Byte} {n : Nat} {s t u : State} (h : SessionOpen out n s t)
    (hx : Exchanged os (beginCall os t) u)
    (ha : SameAnswers (os.foldl (fun s o => xchg o s) (beginCall os t)) u) : SessionOpen (out ++ os) (n + 1) s u := by
  have hb : SameAnswers t (beginCall os t) := by constructor <;> rfl
  have hi : incoming os (beginCall os t) = incoming os t := hb.incoming os
  constructor
  · rw [hx.busy]; exact h.busy
  · rw [hx.stalled]; exact h.stalled
  · rw [hx.cmd]; exact h.cmd
  · rw [hx.res]; exact h.res
  · rw [hx.inputs]; exact h.inputs
  · rw [hx.calls, beginCall_env, h.calls, List.tail_drop]
  · rw [hx.plugged]; exact h.plugged
  · exact ⟨hx.ecs.1.trans h.ecs.1, hx.ecs.2.trans h.ecs.2⟩
  · intro hk; exact hx.sck (h.sck hk)
  · rw [hx.trace, beginCall_trace, h.trace, h.answers, hi,
      List.zipWith_append (by simp)]
    simp
  · intro more
    rw [List.append_assoc, h.answers, h.answers, List.append_assoc, ← hb.incoming (os ++ more), incoming_append ha, hi]
  · rw [hx.dev, beginCall_env, beginCall_dev, h.plugged, h.dev]
    split <;> simp [Dev.exchanges_append]
  · rw [hx.draws, beginCall_draws, h.draws, List.length_append]; omega

/-- `Deselect()` ends the session (R106). -/
theorem SessionOpen.release {out : List Byte} {n : Nat} {s t : State} (h : SessionOpen out n s t) :
    SessionDone out n s (release t) := by
  rw [release_live h.stalled]
  constructor
  · rfl
  · rfl
  · exact h.busy
  · exact h.stalled
  · exact h.cmd
  · exact h.res
  · exact h.inputs
  · rw [deselect_env, Env.frameEnded_calls]; exact h.calls
  · rw [deselect_env, Env.frameEnded_plugged]; exact h.plugged
  · exact h.sck
  · rw [deselect_trace, h.trace]; simp [sessionEvents]
  · have he : ∀ d n, t.env.ecsAfter d n = s.env.ecsAfter d n := fun d n => by
      unfold Env.ecsAfter; rw [h.ecs.1, h.ecs.2]
    rw [deselect_dev, onDevice, h.plugged, h.dev, ecsDraw, h.draws, he, h.dev]
    split <;> simp [*]

theorem transfer_sameAnswers (os : List Byte) {s : State} (hs : s.stalled = false) (hf : s.faultFree) :
    SameAnswers (os.foldl (fun s o => xchg o s) (beginCall os s)) (transfer os s) := by
  rw [transfer_full os hs (callDraw_faultFree hf)]
  refine (SameAnswers.afterAll ?_ os).trans (send_sameAnswers os _)
  constructor <;> rfl

theorem receive_sameAnswers (k : Nat) {s : State} (hs : s.stalled = false) (hf : s.faultFree) :
    SameAnswers ((List.replicate k Config.fill).foldl (fun s o => xchg o s) (beginCall (List.replicate k Config.fill) s))
      (receive k s) := by
  rw [receive_full k hs (callDraw_faultFree hf)]
  refine (SameAnswers.afterAll ?_ _).trans (collect_sameAnswers k _)
  constructor <;> rfl

theorem SessionOpen.faultFree {out : List Byte} {n : Nat} {s t : State} (h : SessionOpen out n s t) (hf : s.faultFree) :
    t.faultFree := fun c hc => hf c (List.mem_of_mem_drop (by rwa [h.calls] at hc))

theorem SessionDone.faultFree {out : List Byte} {n : Nat} {s t : State} (h : SessionDone out n s t) (hf : s.faultFree) :
    t.faultFree := fun c hc => hf c (List.mem_of_mem_drop (by rwa [h.calls] at hc))

/-- A fault-free write session sends its whole frame (R102, R106). -/
theorem writeSession_faultFree (sel tx desel : Phase) (frame : List Byte) {s : State} (hs : s.stalled = false)
    (hf : s.faultFree) :
    SessionDone frame 1 s (writeSession sel tx desel frame s) ∧
      (writeSession sel tx desel frame s).work.n = frame.length := by
  have h0 := sessionOpen_select sel tx hs
  obtain ⟨hx, hn, _⟩ := transfer_faultFree frame h0.stalled (h0.faultFree hf)
  have h1 := h0.run hx (transfer_sameAnswers frame h0.stalled (h0.faultFree hf))
  refine ⟨(h1.enter desel).release, ?_⟩
  unfold writeSession
  rw [release_live (h1.enter desel).stalled, deselect_work, enter_live h1.stalled]
  exact hn

/-- A fault-free read session sends its header and receives all it asks for (R103, R106, R125). -/
theorem readSession_faultFree (hdr : List Byte) (len : Nat) {s : State} (hs : s.stalled = false) (hf : s.faultFree) :
    SessionDone (hdr ++ List.replicate len Config.fill) 2 s (readSession hdr len s) ∧
      (readSession hdr len s).work.n = hdr.length ∧
      (readSession hdr len s).work.r =
        (incoming (hdr ++ List.replicate len Config.fill) (select s)).drop hdr.length := by
  have h0 := (sessionOpen_select .sel1 .tx1 hs).announce len
  obtain ⟨hx, hn, _⟩ := transfer_faultFree hdr h0.stalled (h0.faultFree hf)
  have h1 := h0.run hx (transfer_sameAnswers hdr h0.stalled (h0.faultFree hf))
  rw [List.nil_append] at h1
  have h2 := h1.enter .rx1
  obtain ⟨hy, hm, hr⟩ := receive_faultFree len h2.stalled (h2.faultFree hf)
  have h3 := h2.run hy (receive_sameAnswers len h2.stalled (h2.faultFree hf))
  have h4 := h3.enter .desel1
  have hp : receivePart hdr len (transfer hdr (Machine.announce len (Machine.enter .tx1 (select (Machine.enter .sel1 s))))) =
      receive len (Machine.enter .rx1 (transfer hdr (Machine.announce len (Machine.enter .tx1 (select (Machine.enter .sel1 s)))))) := by
    have hst := h1.stalled
    simp [receivePart, hst, hn]
  have hw : (readSession hdr len s).work.n = hdr.length ∧ (readSession hdr len s).work.r =
      incoming (List.replicate len Config.fill)
        (Machine.enter .rx1 (transfer hdr (Machine.announce len (Machine.enter .tx1 (select (Machine.enter .sel1 s)))))) := by
    unfold readSession
    rw [hp, release_live h4.stalled, deselect_work, enter_live h3.stalled]
    refine ⟨?_, hr⟩
    show (receive len _).work.n = _
    rw [hm, enter_live h1.stalled]
    exact hn
  refine ⟨?_, hw.1, ?_⟩
  · unfold readSession; rw [hp]; exact h4.release
  · rw [hw.2, h2.answers, List.drop_left' (by simp)]

end Sys2Proof.Machine
end

