-- ==== Sys2Proof/Laws/Calls.lean ====
section
/-!
SUPPORT. A Transfer and a Receive under every choice of the environment (R56 b): one lemma each that says everything the call
can do, complete, cut short, or stalled.
-/

namespace Sys2Proof.Machine

/-- The environment stalls a call of `len` bytes (R109). -/
def CallDraw.stalls (c : CallDraw) (len : Nat) : Bool :=
  match c with
  | .stall n _ => decide (n < len)
  | _ => false

theorem CallDraw.limit_le (c : CallDraw) (len : Nat) : c.limit len ≤ len := by
  cases c <;> simp [CallDraw.limit]

/-- A call that is to exchange all its bytes does not stall. -/
theorem CallDraw.not_stalls {c : CallDraw} {len : Nat} (h : c.limit len = len) : c.stalls len = false := by
  cases c <;> simp_all [CallDraw.limit, CallDraw.stalls]

/-- Where a stalled call stands. -/
theorem CallDraw.stalls_iff {c : CallDraw} {len : Nat} :
    c.stalls len = true ↔ ∃ n b, c = .stall n b ∧ n < len := by
  cases c <;> simp [CallDraw.stalls]

/-- What a call that was to exchange `os` leaves of the state `s`; `rest` are the unsent bytes PSS supplies itself. -/
structure Called (os rest : List Byte) (s t : State) : Prop where
  csN : t.csN = s.csN
  ses : t.ses = s.ses
  busy : t.busy = s.busy
  stalled : t.stalled = (callDraw s).stalls os.length
  cmd : t.cmd = s.cmd
  res : t.res = s.res
  inputs : t.inputs = s.inputs
  out : t.work.out = s.work.out ++ os
  calls : t.env.calls = s.env.calls.tail
  plugged : t.env.plugged = s.env.plugged
  ecs : t.env.ecs = s.env.ecs ∧ t.env.ecsAfterStatus = s.env.ecsAfterStatus
  phase : t.seq.phase = s.seq.phase
  idx : t.seq.idx = (callDraw s).limit os.length
  bit : (callDraw s).stalls os.length = false → t.seq.bit = 7
  bitStalled : ∀ n b, callDraw s = .stall n b → n < os.length → t.seq.bit = 7 - b
  sck : s.lines.sck = Config.cpol → t.lines.sck = Config.cpol
  trace : t.trace = s.trace ++ List.zipWith .x (os.take ((callDraw s).limit os.length))
    (incoming (os.take ((callDraw s).limit os.length)) s)
  dev : t.dev = if s.env.plugged then
    (if (callDraw s).limit os.length = os.length ∨ (callDraw s).stalls os.length = true then
      s.dev.exchanges (os.take ((callDraw s).limit os.length))
    else (s.dev.exchanges (os.take ((callDraw s).limit os.length))).fallShort rest
      (s.draws + (callDraw s).limit os.length))
    else s.dev

/-- The end of a call after the exchanges of its first bytes. -/
theorem Called.ofExchanged {os rest payload : List Byte} {s u : State} (hs : s.stalled = false)
    (hrest : rest = os.drop ((callDraw s).limit os.length))
    (h : Exchanged (os.take ((callDraw s).limit os.length)) (beginCall os s) u) :
    Called os payload s (endCall (callDraw s) rest payload u) ∧
      (endCall (callDraw s) rest payload u).work = u.work := by
  have hk := (callDraw s).limit_le os.length
  have hi : incoming (os.take ((callDraw s).limit os.length)) (beginCall os s) =
      incoming (os.take ((callDraw s).limit os.length)) s :=
    SameAnswers.incoming (s := s) (by constructor <;> rfl) _
  have htr : u.trace = s.trace ++ List.zipWith .x (os.take ((callDraw s).limit os.length))
      (incoming (os.take ((callDraw s).limit os.length)) s) := by rw [h.trace, hi]; rfl
  have hst : u.stalled = false := by rw [h.stalled]; exact hs
  have hidx : u.seq.idx = (callDraw s).limit os.length := by
    rw [h.seq.2, List.length_take]; show 0 + _ = _; omega
  have hdev : u.dev = if s.env.plugged then s.dev.exchanges (os.take ((callDraw s).limit os.length)) else s.dev := h.dev
  have hdr : u.draws = s.draws + (callDraw s).limit os.length := by
    rw [h.draws, List.length_take, beginCall_draws]; omega
  have hpl : u.env.plugged = s.env.plugged := h.plugged
  match hr : rest with
  | [] =>
    have hlen : (callDraw s).limit os.length = os.length := by
      have := congrArg List.length hrest; simp at this; omega
    refine ⟨⟨h.csN, h.ses, h.busy, ?_, h.cmd, h.res, h.inputs, h.out, h.calls, hpl, h.ecs, h.seq.1, hidx, fun _ => h.bit rfl,
      fun n b hc hn => by rw [hc] at hlen; simp only [CallDraw.limit] at hlen; omega, h.sck, htr, ?_⟩, rfl⟩
    · simp [endCall, hst, CallDraw.not_stalls hlen]
    · simp only [endCall, hdev]; simp [hlen]
  | o :: os' =>
    have hlen : (callDraw s).limit os.length < os.length := by
      have := congrArg List.length hrest; simp at this; omega
    match hc : callDraw s with
    | .stall n b =>
      rw [hc] at h htr hidx hdev hdr hlen
      have hnlt : n < os.length := by simp only [CallDraw.limit] at hlen; omega
      have hsk : (CallDraw.stall n b).stalls os.length = true := by simp [CallDraw.stalls, hnlt]
      refine ⟨⟨h.csN, h.ses, h.busy, ?_, h.cmd, h.res, h.inputs, h.out, h.calls, hpl, h.ecs, h.seq.1, ?_, ?_, ?_, ?_, ?_, ?_⟩,
        rfl⟩
      · rw [hc]; simp [endCall, hsk]
      · rw [hc]; simpa [endCall] using hidx
      · rw [hc, hsk]; intro he; cases he
      · intro n' b' hc' _; rw [hc] at hc'; cases hc'; rfl
      · intro hk; exact shiftByte_sck_of _ _ _ _ (h.sck hk)
      · rw [hc]; simpa [endCall] using htr
      · rw [hc]; simp only [endCall, stallIn_dev, hdev, hsk]; simp
    | .full => rw [hc] at hlen; simp [CallDraw.limit] at hlen
    | .short n =>
      rw [hc] at h htr hidx hdev hdr hlen
      refine ⟨⟨h.csN, h.ses, h.busy, ?_, h.cmd, h.res, h.inputs, h.out, h.calls, hpl, h.ecs, h.seq.1, ?_, fun _ => h.bit rfl,
        fun n' b' hc' _ => (by rw [hc] at hc'; cases hc'), h.sck, ?_, ?_⟩, rfl⟩
      · rw [hc]; simp [endCall, hst, CallDraw.stalls]
      · rw [hc]; simpa [endCall] using hidx
      · rw [hc]; simpa [endCall] using htr
      · rw [hc]
        have hne : ¬ (CallDraw.short n).limit os.length = os.length := by omega
        simp only [endCall, fallShort_dev, onDevice, hpl, hdev, hdr, hne, CallDraw.stalls]
        split <;> simp

/-- All a Transfer can do (R102, R68, R109). -/
theorem transfer_called (os : List Byte) {s : State} (hs : s.stalled = false) :
    Called os (os.drop ((callDraw s).limit os.length)) s (transfer os s) ∧
      (transfer os s).work.n = (callDraw s).limit os.length ∧ (transfer os s).work.r = s.work.r := by
  have hk := (callDraw s).limit_le os.length
  have hx := send_exchanged (os.take ((callDraw s).limit os.length))
    { beginCall os s with work := { (beginCall os s).work with n := 0 } }
  have ha : SameAnswers (beginCall os s) { beginCall os s with work := { (beginCall os s).work with n := 0 } } := by
    constructor <;> rfl
  have hx' : Exchanged (os.take ((callDraw s).limit os.length)) (beginCall os s)
      (send (os.take ((callDraw s).limit os.length))
        { beginCall os s with work := { (beginCall os s).work with n := 0 } }) :=
    ⟨hx.csN, hx.ses, hx.busy, hx.stalled, hx.cmd, hx.res, hx.inputs, hx.out, hx.calls, hx.plugged, hx.ecs, hx.seq, hx.bit, hx.sck,
      by rw [hx.trace, ha.incoming], hx.dev, hx.draws⟩
  obtain ⟨h1, h2⟩ := Called.ofExchanged (payload := os.drop ((callDraw s).limit os.length)) hs rfl hx'
  have he : transfer os s = endCall (callDraw s) (os.drop ((callDraw s).limit os.length))
      (os.drop ((callDraw s).limit os.length)) (send (os.take ((callDraw s).limit os.length))
        { beginCall os s with work := { (beginCall os s).work with n := 0 } }) := by simp [transfer, hs]
  rw [he]
  refine ⟨h1, ?_, ?_⟩
  · rw [h2, send_n, List.length_take]; show 0 + _ = _; omega
  · rw [h2, send_r]; rfl

/-- All a Receive can do (R103, R109). -/
theorem receive_called (len : Nat) {s : State} (hs : s.stalled = false) :
    Called (List.replicate len Config.fill) [] s (receive len s) ∧
      (receive len s).work.r = incoming (List.replicate ((callDraw s).limit len) Config.fill) s ∧
      (receive len s).work.n = s.work.n := by
  have hk := (callDraw s).limit_le len
  have hl : (List.replicate len Config.fill).length = len := List.length_replicate ..
  have ht : (List.replicate len Config.fill).take ((callDraw s).limit len) =
      List.replicate ((callDraw s).limit len) Config.fill := by simp [List.take_replicate, hk]
  have hx := collect_exchanged ((callDraw s).limit len) { beginCall (List.replicate len Config.fill) s with
    work := { (beginCall (List.replicate len Config.fill) s).work with r := [], due := s.work.due - len } }
  have ha : SameAnswers (beginCall (List.replicate len Config.fill) s) { beginCall (List.replicate len Config.fill) s with
      work := { (beginCall (List.replicate len Config.fill) s).work with r := [], due := s.work.due - len } } := by constructor <;> rfl
  have hb : SameAnswers s { beginCall (List.replicate len Config.fill) s with
      work := { (beginCall (List.replicate len Config.fill) s).work with r := [], due := s.work.due - len } } := by constructor <;> rfl
  have hx' : Exchanged ((List.replicate len Config.fill).take ((callDraw s).limit (List.replicate len Config.fill).length))
      (beginCall (List.replicate len Config.fill) s)
      (collect ((callDraw s).limit len) { beginCall (List.replicate len Config.fill) s with
        work := { (beginCall (List.replicate len Config.fill) s).work with r := [], due := s.work.due - len } }) := by
    rw [hl, ht]
    exact ⟨hx.csN, hx.ses, hx.busy, hx.stalled, hx.cmd, hx.res, hx.inputs, hx.out, hx.calls, hx.plugged, hx.ecs, hx.seq,
      hx.bit, hx.sck, by rw [hx.trace, ha.incoming], hx.dev, hx.draws⟩
  have hd : List.replicate (len - (callDraw s).limit len) Config.fill =
      (List.replicate len Config.fill).drop ((callDraw s).limit (List.replicate len Config.fill).length) := by
    rw [hl, List.drop_replicate]
  obtain ⟨h1, h2⟩ := Called.ofExchanged (payload := []) hs hd hx'
  have he : receive len s = endCall (callDraw s) (List.replicate (len - (callDraw s).limit len) Config.fill) []
      (collect ((callDraw s).limit len) { beginCall (List.replicate len Config.fill) s with
        work := { (beginCall (List.replicate len Config.fill) s).work with r := [], due := s.work.due - len } }) := by simp [receive, hs]
  rw [he]
  refine ⟨h1, ?_, ?_⟩
  · rw [h2, collect_r, hb.incoming]; rfl
  · rw [h2, collect_n]; rfl

end Sys2Proof.Machine
end

