-- ==== Sys2Proof/Laws/Sessions.lean ====
section
/-!
SUPPORT. A write session and a read session under every choice of the environment: either the session ends, chip-select
released, or it hangs in a stalled exchange (R105, R106, R109, R125).
-/

namespace Sys2Proof.Machine

/-- A session in progress after the exchanges of `out` with `inc` coming in; `d` is the chip's state if it is plugged in. -/
structure InSession (out inc : List Byte) (calls : Nat) (d : Dev) (s t : State) : Prop where
  csN : t.csN = false
  ses : t.ses = .selected
  busy : t.busy = s.busy
  cmd : t.cmd = s.cmd
  res : t.res = s.res
  inputs : t.inputs = s.inputs
  calls : t.env.calls = s.env.calls.drop calls
  plugged : t.env.plugged = s.env.plugged
  sck : s.lines.sck = Config.cpol → t.lines.sck = Config.cpol
  length : inc.length = out.length
  trace : t.trace = s.trace ++ .sel :: List.zipWith .x out inc
  dev : t.dev = if s.env.plugged then d else s.dev

/-- A session that ended; `d` is the chip's state, if it is plugged in, when chip-select rises. -/
structure SessionEnded (out inc : List Byte) (calls : Nat) (d : Dev) (s t : State) : Prop where
  csN : t.csN = true
  ses : t.ses = .idle
  busy : t.busy = s.busy
  stalled : t.stalled = false
  cmd : t.cmd = s.cmd
  res : t.res = s.res
  inputs : t.inputs = s.inputs
  calls : t.env.calls = s.env.calls.drop calls
  plugged : t.env.plugged = s.env.plugged
  sck : s.lines.sck = Config.cpol → t.lines.sck = Config.cpol
  length : inc.length = out.length
  trace : t.trace = s.trace ++ sessionEvents out inc
  dev : ∃ n e, t.dev = if s.env.plugged then d.endFrame n e else s.dev

theorem inSession_select (p q : Phase) {s : State} (hs : s.stalled = false) :
    InSession [] [] 0 s.dev.startFrame s (enter q (select (enter p s))) ∧
      (enter q (select (enter p s))).stalled = false := by
  have h1 : (select { s with seq := ⟨p, 0, 7⟩ }).stalled = false := hs
  rw [enter_live hs, enter_live h1]
  exact ⟨⟨rfl, rfl, rfl, rfl, rfl, rfl, rfl, rfl, id, rfl, rfl, rfl⟩, hs⟩

/-- That response bytes are due changes nothing else. -/
theorem inSession_announce (len : Nat) {s : State} (hs : s.stalled = false) :
    InSession [] [] 0 s.dev.startFrame s (announce len (enter .tx1 (select (enter .sel1 s)))) ∧
      (announce len (enter .tx1 (select (enter .sel1 s)))).stalled = false := by
  obtain ⟨h, hl⟩ := inSession_select .sel1 .tx1 hs
  exact ⟨⟨h.csN, h.ses, h.busy, h.cmd, h.res, h.inputs, h.calls, h.plugged, h.sck, h.length, h.trace, h.dev⟩, hl⟩

theorem InSession.enter {out inc : List Byte} {n : Nat} {d : Dev} {s t : State} (h : InSession out inc n d s t) (p : Phase) :
    InSession out inc n d s (enter p t) := by
  unfold Machine.enter; split
  · exact h
  · exact ⟨h.csN, h.ses, h.busy, h.cmd, h.res, h.inputs, h.calls, h.plugged, h.sck, h.length, h.trace, h.dev⟩

theorem InSession.release {out inc : List Byte} {n : Nat} {d : Dev} {s t : State} (h : InSession out inc n d s t)
    (ht : t.stalled = false) : SessionEnded out inc n d s (release t) := by
  rw [release_live ht]
  constructor
  · rfl
  · rfl
  · exact h.busy
  · exact ht
  · exact h.cmd
  · exact h.res
  · exact h.inputs
  · rw [deselect_env, Env.frameEnded_calls]; exact h.calls
  · rw [deselect_env, Env.frameEnded_plugged]; exact h.plugged
  · exact h.sck
  · exact h.length
  · rw [deselect_trace, h.trace]; simp [sessionEvents]
  · exact ⟨t.draws, ecsDraw t, by rw [deselect_dev, onDevice, h.plugged, h.dev]; split <;> rfl⟩

/-- The chip's state after a call that was to exchange `os` and exchanged its first `k` bytes. -/
def afterCall (c : CallDraw) (os rest : List Byte) (n : Nat) (d : Dev) : Dev :=
  if c.limit os.length = os.length ∨ c.stalls os.length = true then d.exchanges (os.take (c.limit os.length))
  else (d.exchanges (os.take (c.limit os.length))).fallShort rest n

theorem InSession.call {out inc os rest : List Byte} {n : Nat} {d : Dev} {s t u : State} (h : InSession out inc n d s t)
    (hc : Called os rest t u) :
    InSession (out ++ os.take ((callDraw t).limit os.length)) (inc ++ incoming (os.take ((callDraw t).limit os.length)) t)
      (n + 1) (afterCall (callDraw t) os rest (t.draws + (callDraw t).limit os.length) d) s u := by
  constructor
  · rw [hc.csN]; exact h.csN
  · rw [hc.ses]; exact h.ses
  · rw [hc.busy]; exact h.busy
  · rw [hc.cmd]; exact h.cmd
  · rw [hc.res]; exact h.res
  · rw [hc.inputs]; exact h.inputs
  · rw [hc.calls, h.calls, List.tail_drop]
  · rw [hc.plugged]; exact h.plugged
  · intro hk; exact hc.sck (h.sck hk)
  · simp [h.length]
  · rw [hc.trace, h.trace, List.zipWith_append h.length.symm]; simp
  · rw [hc.dev, h.plugged, h.dev]; split <;> simp [afterCall]

/-- What the end of a live session leaves of the working values. -/
theorem release_enter_live {t : State} (ht : t.stalled = false) (p : Phase) :
    (release (enter p t)).work = { t.work with out := [], due := 0 } ∧ (release (enter p t)).stalled = false := by
  rw [enter_live ht, release_live (show ({ t with seq := ⟨p, 0, 7⟩ } : State).stalled = false from ht)]
  exact ⟨rfl, ht⟩

/-- All a write session can do. -/
theorem writeSession_cases (sel tx desel : Phase) (frame : List Byte) {s : State} (hs : s.stalled = false) :
    (writeSession sel tx desel frame s).work.n = (callDraw s).limit frame.length ∧
    (writeSession sel tx desel frame s).stalled = (callDraw s).stalls frame.length ∧ ∃ inc n,
    ((callDraw s).stalls frame.length = false →
      SessionEnded (frame.take ((callDraw s).limit frame.length)) inc 1
        (afterCall (callDraw s) frame (frame.drop ((callDraw s).limit frame.length)) n s.dev.startFrame) s
        (writeSession sel tx desel frame s)) ∧
    ((callDraw s).stalls frame.length = true →
      InSession (frame.take ((callDraw s).limit frame.length)) inc 1
        (afterCall (callDraw s) frame (frame.drop ((callDraw s).limit frame.length)) n s.dev.startFrame) s
        (writeSession sel tx desel frame s)) := by
  obtain ⟨h0, hs0⟩ := inSession_select sel tx hs
  have hd : callDraw (enter tx (select (enter sel s))) = callDraw s := by
    have := h0.calls; unfold callDraw; rw [this]; rfl
  obtain ⟨hc, hn, -⟩ := transfer_called frame hs0
  have h1 := h0.call hc
  have hst := hc.stalled
  rw [hd] at h1 hst hn
  simp only [List.nil_append] at h1
  unfold writeSession
  cases hk : (callDraw s).stalls frame.length
  · rw [hk] at hst
    refine ⟨?_, ?_, _, _, fun _ => (h1.enter desel).release (by rw [enter_live hst]; exact hst), by simp⟩
    · rw [release_live (by rw [enter_live hst]; exact hst), enter_live hst]; exact hn
    · rw [release_live (by rw [enter_live hst]; exact hst), enter_live hst]; exact hst
  · rw [hk] at hst
    have he : release (enter desel (transfer frame (enter tx (select (enter sel s))))) =
        transfer frame (enter tx (select (enter sel s))) := by rw [enter_stalled hst, release_stalled hst]
    rw [he]
    exact ⟨hn, hst, _, _, by simp, fun _ => h1⟩

/-- The environment's choice for the call after the coming one. -/
def secondDraw (s : State) : CallDraw := s.env.calls.tail.headD .full

/-- A read session whose header falls short or stalls (R125). -/
theorem readSession_shortHeader (hdr : List Byte) (len : Nat) {s : State} (hs : s.stalled = false)
    (hk : (callDraw s).limit hdr.length < hdr.length) :
    (readSession hdr len s).work.n = (callDraw s).limit hdr.length ∧
    (readSession hdr len s).stalled = (callDraw s).stalls hdr.length ∧ ∃ inc n,
    ((callDraw s).stalls hdr.length = false → (readSession hdr len s).work.r = [] ∧
      SessionEnded (hdr.take ((callDraw s).limit hdr.length)) inc 1
        (afterCall (callDraw s) hdr (hdr.drop ((callDraw s).limit hdr.length)) n s.dev.startFrame) s
        (readSession hdr len s)) ∧
    ((callDraw s).stalls hdr.length = true →
      InSession (hdr.take ((callDraw s).limit hdr.length)) inc 1
        (afterCall (callDraw s) hdr (hdr.drop ((callDraw s).limit hdr.length)) n s.dev.startFrame) s
        (readSession hdr len s)) := by
  obtain ⟨h0, hs0⟩ := inSession_announce len hs
  have hd : callDraw (announce len (enter .tx1 (select (enter .sel1 s)))) = callDraw s := by
    have := h0.calls; unfold callDraw; rw [this]; rfl
  obtain ⟨hc, hn, -⟩ := transfer_called hdr hs0
  have h1 := h0.call hc
  have hst := hc.stalled
  rw [hd] at h1 hst hn
  simp only [List.nil_append] at h1
  unfold readSession
  cases hkk : (callDraw s).stalls hdr.length
  · rw [hkk] at hst
    have hne : ¬ (transfer hdr (announce len (enter .tx1 (select (enter .sel1 s))))).work.n = hdr.length := by omega
    have hp : receivePart hdr len (transfer hdr (announce len (enter .tx1 (select (enter .sel1 s))))) =
        { transfer hdr (announce len (enter .tx1 (select (enter .sel1 s)))) with
          work := { (transfer hdr (announce len (enter .tx1 (select (enter .sel1 s))))).work with r := [] } } := by
      simp [receivePart, hst, hne]
    rw [hp]
    have h2 : InSession _ _ _ _ s { transfer hdr (announce len (enter .tx1 (select (enter .sel1 s)))) with
          work := { (transfer hdr (announce len (enter .tx1 (select (enter .sel1 s))))).work with r := [] } } :=
      ⟨h1.csN, h1.ses, h1.busy, h1.cmd, h1.res, h1.inputs, h1.calls, h1.plugged, h1.sck, h1.length, h1.trace, h1.dev⟩
    have hst2 : ({ transfer hdr (announce len (enter .tx1 (select (enter .sel1 s)))) with
          work := { (transfer hdr (announce len (enter .tx1 (select (enter .sel1 s))))).work with r := [] } } : State).stalled = false := hst
    have h3 := (h2.enter .desel1).release (by rw [enter_live hst2]; exact hst)
    obtain ⟨hw, hz⟩ := release_enter_live hst2 .desel1
    refine ⟨?_, ?_, _, _, fun _ => ⟨?_, h3⟩, by simp⟩
    · rw [hw]; exact hn
    · exact hz
    · rw [hw]
  · rw [hkk] at hst
    have he : release (enter .desel1 (receivePart hdr len (transfer hdr (announce len (enter .tx1 (select (enter .sel1 s))))))) =
        transfer hdr (announce len (enter .tx1 (select (enter .sel1 s)))) := by
      have hp : receivePart hdr len (transfer hdr (announce len (enter .tx1 (select (enter .sel1 s))))) =
        transfer hdr (announce len (enter .tx1 (select (enter .sel1 s)))) := by simp [receivePart, hst]
      rw [hp, enter_stalled hst, release_stalled hst]
    rw [he]
    exact ⟨hn, hst, _, _, by simp, fun _ => h1⟩

/-- A read session whose header completes (R125). -/
theorem readSession_fullHeader (hdr : List Byte) (len : Nat) {s : State} (hs : s.stalled = false)
    (hk : (callDraw s).limit hdr.length = hdr.length) :
    (readSession hdr len s).work.n = hdr.length ∧
    (readSession hdr len s).stalled = (secondDraw s).stalls len ∧ ∃ inc got n, inc.length = hdr.length ∧
    (readSession hdr len s).work.r = got ∧ got.length = (secondDraw s).limit len ∧
    ((secondDraw s).stalls len = false →
      SessionEnded (hdr ++ List.replicate ((secondDraw s).limit len) Config.fill) (inc ++ got) 2
        (afterCall (secondDraw s) (List.replicate len Config.fill) [] n (s.dev.startFrame.exchanges hdr)) s
        (readSession hdr len s)) ∧
    ((secondDraw s).stalls len = true →
      InSession (hdr ++ List.replicate ((secondDraw s).limit len) Config.fill) (inc ++ got) 2
        (afterCall (secondDraw s) (List.replicate len Config.fill) [] n (s.dev.startFrame.exchanges hdr)) s
        (readSession hdr len s)) := by
  obtain ⟨h0, hs0⟩ := inSession_announce len hs
  have hd : callDraw (announce len (enter .tx1 (select (enter .sel1 s)))) = callDraw s := by
    have := h0.calls; unfold callDraw; rw [this]; rfl
  obtain ⟨hc, hn, -⟩ := transfer_called hdr hs0
  have h1 := h0.call hc
  have hst := hc.stalled
  rw [hd] at h1 hst hn
  rw [CallDraw.not_stalls hk] at hst
  have ha : afterCall (callDraw s) hdr (hdr.drop ((callDraw s).limit hdr.length))
      ((announce len (enter .tx1 (select (enter .sel1 s)))).draws + (callDraw s).limit hdr.length) s.dev.startFrame =
      s.dev.startFrame.exchanges hdr := by simp [afterCall, hk]
  rw [ha, hk] at h1
  simp only [List.nil_append, List.take_length] at h1
  rw [hk] at hn
  have hl : (List.replicate len Config.fill).length = len := List.length_replicate ..
  have h2 := h1.enter .rx1
  have hst2 : (enter .rx1 (transfer hdr (announce len (enter .tx1 (select (enter .sel1 s)))))).stalled = false := by
    rw [enter_live hst]; exact hst
  have hd2 : callDraw (enter .rx1 (transfer hdr (announce len (enter .tx1 (select (enter .sel1 s)))))) = secondDraw s := by
    have := h2.calls; unfold callDraw secondDraw; rw [this]; simp
  obtain ⟨hy, hr, hm⟩ := receive_called len hst2
  have h3 := h2.call hy
  have hst3 := hy.stalled
  rw [hd2] at h3 hst3 hr
  rw [hl] at h3 hst3
  have ht : (List.replicate len Config.fill).take ((secondDraw s).limit len) =
      List.replicate ((secondDraw s).limit len) Config.fill := by
    simp [List.take_replicate, (secondDraw s).limit_le]
  rw [ht, ← hr] at h3
  have hw : (enter .rx1 (transfer hdr (announce len (enter .tx1 (select (enter .sel1 s)))))).work =
      (transfer hdr (announce len (enter .tx1 (select (enter .sel1 s))))).work := by rw [enter_live hst]
  rw [hw, hn] at hm
  have hp : receivePart hdr len (transfer hdr (announce len (enter .tx1 (select (enter .sel1 s))))) =
      receive len (enter .rx1 (transfer hdr (announce len (enter .tx1 (select (enter .sel1 s)))))) := by
    simp [receivePart, hst, hn]
  have hgl : (receive len (enter .rx1 (transfer hdr (announce len (enter .tx1 (select (enter .sel1 s))))))).work.r.length =
      (secondDraw s).limit len := by rw [hr]; simp
  have hil : (incoming hdr (announce len (enter .tx1 (select (enter .sel1 s))))).length = hdr.length := incoming_length _ _
  unfold readSession
  rw [hp]
  cases hkk : (secondDraw s).stalls len
  · rw [hkk] at hst3
    obtain ⟨hw, hz⟩ := release_enter_live hst3 .desel1
    refine ⟨?_, ?_, incoming hdr (announce len (enter .tx1 (select (enter .sel1 s)))),
      (receive len (enter .rx1 (transfer hdr (announce len (enter .tx1 (select (enter .sel1 s))))))).work.r, _, hil, ?_, hgl,
      fun _ => (h3.enter .desel1).release (by rw [enter_live hst3]; exact hst3), by simp⟩
    · rw [hw]; exact hm
    · exact hz
    · rw [hw]
  · rw [hkk] at hst3
    have he : release (enter .desel1 (receive len (enter .rx1 (transfer hdr (announce len (enter .tx1 (select (enter .sel1 s)))))))) =
        receive len (enter .rx1 (transfer hdr (announce len (enter .tx1 (select (enter .sel1 s)))))) := by
      rw [enter_stalled hst3, release_stalled hst3]
    rw [he]
    exact ⟨hm, hst3, incoming hdr (announce len (enter .tx1 (select (enter .sel1 s)))),
      (receive len (enter .rx1 (transfer hdr (announce len (enter .tx1 (select (enter .sel1 s))))))).work.r, _, hil, rfl, hgl, by simp,
      fun _ => h3⟩

end Sys2Proof.Machine
end

