-- ==== Sys2Proof/Laws/Frames.lean ====
section
/-!
SUPPORT. The chip's side of whole frames (R57 to R65): where a payload goes, what a read answers, what a frame leaves.
-/

namespace Sys2Proof.Machine

/-- In Sequential mode the pointer's run is `+ 1` modulo 2^19 (R60). -/
theorem pointerRun_sequential (page : BitVec 1) (j : Nat) (p : Location) :
    (pointerRun modeSequential page j p).toNat = (p.toNat + j) % arraySize := by
  induction j generalizing p with
  | zero => simp [pointerRun, arraySize]; omega
  | succ j ih => simp only [pointerRun, ih]; simp [nextPtr, BitVec.toNat_add, arraySize]; omega

/-- `A[18:0]` and `j` more, modulo 2^19. -/
theorem sequentialLocation_eq (A : Address) (j : Nat) :
    ((A.setWidth 19 : Location).toNat + j) % arraySize = sequentialLocation A j := by
  simp [sequentialLocation, arraySize]

/-- The locations of a payload in Sequential mode (R60, R121). -/
theorem payloadLocation_sequential {d : Dev} (h : modeOf d.config = modeSequential) (A : Address) (j : Nat) :
    payloadLocation d A j = sequentialLocation A j := by
  rw [payloadLocation, h, pointerRun_sequential, sequentialLocation_eq]

/-- The first payload byte is at `A[18:0]` in every mode (R53). -/
theorem payloadLocation_zero (d : Dev) (A : Address) : payloadLocation d A 0 = sequentialLocation A 0 := by
  rw [← sequentialLocation_eq]; simp [payloadLocation, pointerRun, arraySize]

/-- The data exchanges of a WRITE frame (R58). -/
theorem Dev.exchanges_dataWrite (d : Dev) (h : d.frm = .data .write) (D : List Byte) :
    (d.exchanges D).config = d.config ∧ (d.exchanges D).ecs = d.ecs ∧ (d.exchanges D).frm = .data .write ∧
    (d.exchanges D).fetched = d.fetched ∧
    (d.exchanges D).gen = d.gen ∧
    (∀ a, (∀ j, j < D.length → a ≠ (pointerRun (modeOf d.config) (pageSizeOf d.config) j d.ptr).toNat) →
      (d.exchanges D).byteAt a = d.byteAt a) := by
  induction D generalizing d with
  | nil => exact ⟨rfl, rfl, h, rfl, rfl, fun _ _ => rfl⟩
  | cons b D ih =>
    have he : d.exchange b = (d.setByte d.ptr b).advance := by unfold Dev.exchange; rw [h]
    rw [Dev.exchanges_cons, he]
    obtain ⟨h1, h2, h3, h4, h5, h6⟩ := ih ((d.setByte d.ptr b).advance) h
    refine ⟨h1, h2, h3, h4, h5, ?_⟩
    intro a ha
    rw [h6 a]
    · exact Dev.byteAt_setByte_other d d.ptr b (by simpa [pointerRun] using ha 0 (by simp))
    · intro j hj
      exact ha (j+1) (by simpa using hj)

/-- The array after the data exchanges of a WRITE frame in Sequential mode (R58, R60). -/
theorem Dev.exchanges_dataWrite_mem (d : Dev) (A : Address) (j0 : Nat) (h : d.frm = .data .write)
    (hm : modeOf d.config = modeSequential) (hp : d.ptr.toNat = sequentialLocation A j0) (D : List Byte) :
    (d.exchanges D).mem = writtenRun A j0 D d.mem := by
  induction D generalizing d j0 with
  | nil => rfl
  | cons b D ih =>
    have he : d.exchange b = (d.setByte d.ptr b).advance := by unfold Dev.exchange; rw [h]
    rw [Dev.exchanges_cons, he]; refine (ih ((d.setByte d.ptr b).advance) (j0+1) h hm ?_).trans ?_
    rotate_left
    · simp [writtenRun, Dev.setByte, Dev.advance, hp]
    · simp [Dev.advance, Dev.setByte, hm, nextPtr, BitVec.toNat_add, hp, sequentialLocation, arraySize]; omega

/-- The array after at most one data exchange of a WRITE frame, in any mode (R58). -/
theorem Dev.exchanges_dataWrite_mem_one (d : Dev) (A : Address) (h : d.frm = .data .write)
    (hp : d.ptr.toNat = sequentialLocation A 0) (D : List Byte) (hl : D.length ≤ 1) :
    (d.exchanges D).mem = writtenRun A 0 D d.mem := by
  match D, hl with
  | [], _ => rfl
  | [b], _ =>
    simp [Dev.exchange, h, writtenRun, Dev.setByte, Dev.advance, hp]

/-- What a run of writes leaves, no longer than the array. -/
theorem writtenRun_read (A : Address) (D : List Byte) (j0 : Nat) (m : Memory) (hl : j0 + D.length ≤ arraySize) :
    (∀ j b, D[j]? = some b → (writtenRun A j0 D m).read (sequentialLocation A (j0+j)) = some b) ∧
    (∀ a, (∀ j, j < D.length → a ≠ sequentialLocation A (j0 + j)) →
      (writtenRun A j0 D m).read a = m.read a) := by
  induction D generalizing j0 m with
  | nil => exact ⟨by simp, fun _ _ => rfl⟩
  | cons b D ih =>
    obtain ⟨i1, i2⟩ := ih (j0+1) (m.write (sequentialLocation A j0) b) (by simp at hl; omega)
    constructor
    · intro j b' hj
      cases j with
      | zero =>
        simp at hj; subst hj
        simp only [writtenRun, Nat.add_zero]
        rw [i2, Memory.read_write_same]
        intro j hj h
        simp [sequentialLocation, arraySize] at h hl; omega
      | succ j =>
        have := i1 j b' (by simpa using hj)
        simp only [writtenRun]; rw [show j0 + (j+1) = j0+1+j by omega]; exact this
    · intro a ha
      simp only [writtenRun]
      rw [i2, Memory.read_write_other]
      · simpa using ha 0 (by simp)
      · intro j hj; rw [show j0+1+j = j0+(j+1) by omega]; exact ha (j+1) (by simpa using hj)

/-- The end of a frame that has a meaning (R57, R62). -/
theorem Dev.endFrame_ordinary {d : Dev} (n : Nat) (e : BitVec 1) (h1 : d.frm ≠ .lost) (h2 : d.frm ≠ .reservedMode) :
    d.endFrame n e = { d with ecs := if d.fetched = .nothing then d.ecs else e, frm := .noFrame, fetched := .nothing } := by
  unfold Dev.endFrame; split <;> simp_all

/-- A whole WRITE frame, from `Sel` on (R57, R58). -/
theorem Dev.exchanges_writeFrame (d : Dev) (A : Address) (D : List Byte) (hp : protocolOf d.config = protocolSpi)
    (hm : modeOf d.config ≠ modeReserved) :
    d.startFrame.exchanges (writeFrame A D) =
      ({ d with frm := .data .write, fetched := .nothing, ptr := A.setWidth 19 } : Dev).exchanges D := by
  rw [writeFrame, Dev.exchanges_append, Dev.exchanges_header d .write codeWrite A rfl hp hm, locationOf_split]

/-- A frame in the reserved MODE goes on so (log 12). -/
theorem Dev.exchanges_reservedMode (d : Dev) (h : d.frm = .reservedMode) (os : List Byte) : d.exchanges os = d := by
  induction os generalizing d with
  | nil => rfl
  | cons o os ih => rw [Dev.exchanges_cons, show d.exchange o = d by unfold Dev.exchange; rw [h]]; exact ih d h

/-- An array frame in the reserved MODE (log 12). -/
theorem Dev.exchanges_arrayReserved (d : Dev) (c : Byte) (hc : c = codeWrite ∨ c = codeRead) (A : Address)
    (D : List Byte) (hp : protocolOf d.config = protocolSpi) (hm : modeOf d.config = modeReserved) :
    d.startFrame.exchanges (header c A ++ D) = { d with frm := .reservedMode, fetched := .nothing } := by
  have : d.startFrame.exchange c = { d with frm := .reservedMode, fetched := .nothing } := by
    rcases hc with rfl | rfl <;>
      simp [Dev.startFrame, hp, Dev.exchange, Dev.afterCode, Dev.arrayFrame, hm, codeWrite, codeRead]
  rw [header, List.cons_append, Dev.exchanges_cons, this, Dev.exchanges_reservedMode _ rfl]

/-- What a whole WRITE frame leaves of the chip (R58, R60, R61). -/
theorem Dev.writeFrame_done (d : Dev) (A : Address) (D : List Byte) (n : Nat) (e : BitVec 1)
    (hp : protocolOf d.config = protocolSpi) :
    let t := (d.startFrame.exchanges (writeFrame A D)).endFrame n e
    t.config = d.config ∧ (modeOf d.config ≠ modeReserved → t.status = d.status ∧
      (∀ a, (∀ j, j < D.length → a ≠ payloadLocation d A j) → t.byteAt a = d.byteAt a) ∧
      t.gen = d.gen ∧
      (modeOf d.config = modeSequential ∨ D.length ≤ 1 → t.mem = writtenRun A 0 D d.mem)) := by
  by_cases hm : modeOf d.config = modeReserved
  · refine ⟨?_, fun h => absurd hm h⟩
    rw [writeFrame, Dev.exchanges_arrayReserved d _ (.inl rfl) A D hp hm]; rfl
  · have h := Dev.exchanges_dataWrite
      ({ d with frm := .data .write, fetched := .nothing, ptr := A.setWidth 19 } : Dev) rfl D
    rw [Dev.exchanges_writeFrame d A D hp hm]
    rw [Dev.endFrame_ordinary _ _ (by rw [h.2.2.1]; simp) (by rw [h.2.2.1]; simp)]
    refine ⟨h.1, fun _ => ⟨?_, ?_, h.2.2.2.2.1, ?_⟩⟩
    · simp only [Dev.status, h.1, h.2.1, h.2.2.2.1]; rfl
    · intro a ha
      exact h.2.2.2.2.2 a ha
    · rintro (h1 | h1)
      · exact Dev.exchanges_dataWrite_mem
          ({ d with frm := .data .write, fetched := .nothing, ptr := A.setWidth 19 } : Dev) A 0 rfl h1
          (by simp [sequentialLocation, arraySize]) D
      · exact Dev.exchanges_dataWrite_mem_one
          ({ d with frm := .data .write, fetched := .nothing, ptr := A.setWidth 19 } : Dev) A rfl
          (by simp [sequentialLocation, arraySize]) D h1


/-! ## What a read answers -/

/-- What comes in splits where the exchanges are split. -/
theorem incoming_split (os more : List Byte) (s : State) :
    incoming (os ++ more) s = incoming os s ++ incoming more (os.foldl (fun s o => xchg o s) s) :=
  incoming_append ⟨rfl, rfl, rfl, rfl⟩ more

/-- The chip after a run of exchanges. -/
theorem foldl_xchg_dev (os : List Byte) (s : State) :
    (os.foldl (fun s o => xchg o s) s).dev = (if s.env.plugged then s.dev.exchanges os else s.dev) ∧
      (os.foldl (fun s o => xchg o s) s).env.plugged = s.env.plugged := by
  induction os generalizing s with
  | nil => simp
  | cons o os ih =>
    obtain ⟨h1, h2⟩ := ih (xchg o s)
    rw [List.foldl_cons, h1, h2]
    by_cases hp : s.env.plugged <;> simp [onDevice, hp]

/-- The response of a READ frame: the array along the pointer's run (R59). -/
theorem incoming_dataRead (os : List Byte) {s : State} (hp : s.env.plugged = true) (hf : s.dev.frm = .data .read) :
    ∀ j, j < os.length → (incoming os s)[j]? =
      some (s.dev.byteAt (pointerRun (modeOf s.dev.config) (pageSizeOf s.dev.config) j s.dev.ptr).toNat) := by
  induction os generalizing s with
  | nil => simp
  | cons o os ih =>
    have he : (xchg o s).dev = { s.dev.advance with fetched := .array } := by
      rw [xchg_dev, onDevice_plugged hp]; unfold Dev.exchange; rw [hf]
    have ha : answer s = s.dev.byteAt s.dev.ptr.toNat := by simp [answer, hp, Dev.answer, hf]
    intro j hj
    cases j with
    | zero => simp [incoming, pointerRun, ha]
    | succ j =>
      have := ih (s := xchg o s) (by simp [hp]) (by rw [he]; exact hf) j (by simpa using hj)
      rw [he] at this
      rw [incoming, List.getElem?_cons_succ]; exact this

/-- The response of a READ_STATUS frame: the register, high byte first (R63). -/
theorem incoming_statusRead (a b : Byte) {s : State} (hp : s.env.plugged = true) (hf : s.dev.frm = .statusOutHigh) :
    incoming [a, b] s = [statusHigh s.dev.status, statusLow s.dev.status] := by
  have he : (xchg a s).dev = { s.dev with frm := .statusOutLow, fetched := .status } := by
    rw [xchg_dev, onDevice_plugged hp]; unfold Dev.exchange; rw [hf]
  have h2 : answer (xchg a s) = statusLow s.dev.status := by
    simp only [answer, xchg_env, Env.answered_plugged, hp, if_true, he]; rfl
  simp [incoming, h2]
  simp [answer, hp, Dev.answer, hf]

/-- The data exchanges of a READ frame leave the array and the register (R59). -/
theorem Dev.exchanges_dataRead (d : Dev) (h : d.frm = .data .read) (os : List Byte) :
    (d.exchanges os).config = d.config ∧ (d.exchanges os).ecs = d.ecs ∧ (d.exchanges os).frm = .data .read ∧
    (d.exchanges os).mem = d.mem ∧ (d.exchanges os).gen = d.gen ∧
    (d.exchanges os).fetched = if os = [] then d.fetched else .array := by
  induction os generalizing d with
  | nil => simp [h]
  | cons o os ih =>
    have he : d.exchange o = { d.advance with fetched := .array } := by unfold Dev.exchange; rw [h]
    rw [Dev.exchanges_cons, he]
    obtain ⟨h1, h2, h3, h4, h5, h6⟩ := ih { d.advance with fetched := .array } h
    exact ⟨h1, h2, h3, h4, h5, by rw [h6]; simp⟩

/-- A whole READ frame, from `Sel` on (R57, R59). -/
theorem Dev.exchanges_readFrame (d : Dev) (A : Address) (fills : List Byte) (hp : protocolOf d.config = protocolSpi)
    (hm : modeOf d.config ≠ modeReserved) :
    d.startFrame.exchanges (readHeader A ++ fills) =
      ({ d with frm := .data .read, fetched := .nothing, ptr := A.setWidth 19 } : Dev).exchanges fills := by
  rw [readHeader, Dev.exchanges_append, Dev.exchanges_header d .read codeRead A rfl hp hm, locationOf_split]

/-- What a whole READ frame leaves of the chip (R59, R62). -/
theorem Dev.readFrame_done (d : Dev) (A : Address) (fills : List Byte) (n : Nat) (e : BitVec 1)
    (hp : protocolOf d.config = protocolSpi) :
    let t := (d.startFrame.exchanges (readHeader A ++ fills)).endFrame n e
    t.config = d.config ∧ (modeOf d.config ≠ modeReserved → t.mem = d.mem ∧ t.gen = d.gen) := by
  by_cases hm : modeOf d.config = modeReserved
  · refine ⟨?_, fun h => absurd hm h⟩
    rw [readHeader, Dev.exchanges_arrayReserved d _ (.inr rfl) A fills hp hm]; rfl
  · have h := Dev.exchanges_dataRead
      ({ d with frm := .data .read, fetched := .nothing, ptr := A.setWidth 19 } : Dev) rfl fills
    rw [Dev.exchanges_readFrame d A fills hp hm]
    rw [Dev.endFrame_ordinary _ _ (by rw [h.2.2.1]; simp) (by rw [h.2.2.1]; simp)]
    exact ⟨h.1, fun _ => ⟨h.2.2.2.1, h.2.2.2.2.1⟩⟩

/-- The response of a whole READ frame (R59, R75). -/
theorem incoming_readFrame (A : Address) (L : Nat) {s : State} (hp : s.spi) (hm : s.modeNamed) :
    ∀ j, j < L → ((incoming (readHeader A ++ List.replicate L Config.fill) (select s)).drop 4)[j]? =
      some (s.dev.byteAt (payloadLocation s.dev A j)) := by
  intro j hj
  rw [incoming_split, List.drop_left' (by simp [readHeader, header])]
  have h1 := foldl_xchg_dev (readHeader A) (select s)
  have hd : ((readHeader A).foldl (fun s o => xchg o s) (select s)).dev =
      ({ s.dev with frm := .data .read, fetched := .nothing, ptr := A.setWidth 19 } : Dev) := by
    rw [h1.1]
    simp only [select_env, hp.1, if_true, select_dev, onDevice]
    have := Dev.exchanges_readFrame s.dev A [] hp.2 hm
    simpa using this
  have := incoming_dataRead (List.replicate L Config.fill) (s := (readHeader A).foldl (fun s o => xchg o s) (select s))
    (by rw [h1.2]; exact hp.1) (by rw [hd]) j (by simpa using hj)
  rw [this, hd]
  rfl

/-- The response of a whole READ_STATUS frame (R63, R76). -/
theorem incoming_statusFrame {s : State} (hp : s.spi) :
    (incoming (readStatusHeader ++ List.replicate 2 Config.fill) (select s)).drop 1 =
      [statusHigh s.dev.status, statusLow s.dev.status] := by
  rw [incoming_split, List.drop_left' (by simp [readStatusHeader])]
  have h1 := foldl_xchg_dev readStatusHeader (select s)
  have hd : (readStatusHeader.foldl (fun s o => xchg o s) (select s)).dev =
      ({ s.dev with frm := .statusOutHigh, fetched := .nothing } : Dev) := by
    rw [h1.1]
    simp only [select_env, hp.1, if_true, select_dev, onDevice]
    exact Dev.exchanges_readStatus s.dev hp.2
  rw [show List.replicate 2 Config.fill = [Config.fill, Config.fill] from rfl,
    incoming_statusRead _ _ (by rw [h1.2]; exact hp.1) (by rw [hd]), hd]
  rfl

/-- What a whole READ_STATUS frame leaves of the chip (R63). -/
theorem Dev.readStatus_done (d : Dev) (a b : Byte) (n : Nat) (e : BitVec 1) (hp : protocolOf d.config = protocolSpi) :
    (d.startFrame.exchanges (readStatusHeader ++ [a, b])).endFrame n e =
      { d with ecs := e, frm := .noFrame, fetched := .nothing } := by
  rw [Dev.exchanges_append, Dev.exchanges_readStatus d hp]
  rfl

/-- What a whole WRITE_STATUS frame leaves of the chip (R64). -/
theorem Dev.writeStatus_done (d : Dev) (v : StatusWord) (n : Nat) (e : BitVec 1)
    (hp : protocolOf d.config = protocolSpi) :
    (d.startFrame.exchanges (writeStatusFrame v)).endFrame n e =
      { d with config := configAfterWrite v d.config, frm := .noFrame, fetched := .nothing } := by
  rw [Dev.exchanges_writeStatus d v hp, joinStatus_split]
  rfl

/-! ## Frames cut short or by a reset (R68, R141, R210) -/

/-- Of the data part of an array frame whose bytes are unsure: the locations off the pointer's run keep their bytes, those on it
hold free values; the register stays (R68, U10; logs 17, 18). -/
theorem Dev.garble_data (k : Dir) (os : List Byte) (n : Nat) {d : Dev} (h : d.frm = .data k) :
    (Dev.garble os n d).config = d.config ∧ (Dev.garble os n d).ecs = d.ecs ∧ (Dev.garble os n d).frm = .data k ∧
    (∀ a, (∀ j, j < os.length → a ≠ (pointerRun (modeOf d.config) (pageSizeOf d.config) j d.ptr).toNat) →
      (Dev.garble os n d).byteAt a = d.byteAt a) ∧
    ∀ j, j < os.length → ∃ m, (Dev.garble os n d).byteAt
      (pointerRun (modeOf d.config) (pageSizeOf d.config) j d.ptr).toNat = Config.freeByte m := by
  induction os generalizing n d with
  | nil => exact ⟨rfl, rfl, h, fun _ _ => rfl, fun j hj => absurd hj (by simp)⟩
  | cons o os ih =>
    obtain ⟨e, he, hc, hx, hp, hb⟩ : ∃ e, e = d.garbleByte o n ∧ e.config = d.config ∧ e.ecs = d.ecs ∧
        (e.frm = .data k ∧ e.ptr = nextPtr (modeOf d.config) (pageSizeOf d.config) d.ptr) ∧
        ∀ a, e.byteAt a = (d.setByte d.ptr (Config.freeByte n)).byteAt a := by
      refine ⟨_, rfl, ?_⟩
      cases k <;> simp [Dev.garbleByte, h, Dev.advance, Dev.setByte, Dev.byteAt]
    obtain ⟨h1, h2, h3, h4, h5⟩ := ih (n + 1) (d := e) hp.1
    rw [Dev.garble, ← he]
    rw [hc, hp.2] at h4 h5
    refine ⟨h1.trans hc, h2.trans hx, h3, ?_, ?_⟩
    · intro a ha
      rw [h4 a (fun j hj => ha (j + 1) (by simpa using hj)), hb]
      exact Dev.byteAt_setByte_other d d.ptr _ (by simpa [pointerRun] using ha 0 (by simp))
    · intro j hj
      cases j with
      | succ j => exact h5 j (by simpa using hj)
      | zero =>
        by_cases hq : ∃ j, j < os.length ∧ d.ptr.toNat =
            (pointerRun (modeOf d.config) (pageSizeOf d.config) j (nextPtr (modeOf d.config) (pageSizeOf d.config) d.ptr)).toNat
        · obtain ⟨j, hj, hq⟩ := hq
          obtain ⟨m, hm⟩ := h5 j hj
          exact ⟨m, by rw [pointerRun, hq]; exact hm⟩
        · refine ⟨n, ?_⟩
          rw [pointerRun, h4 _ (fun j hj he => hq ⟨j, hj, he⟩), hb]
          simp

/-- Unsure bytes one after the other. -/
theorem Dev.garble_append (as bs : List Byte) (n : Nat) (d : Dev) :
    Dev.garble (as ++ bs) n d = Dev.garble bs (n + as.length) (Dev.garble as n d) := by
  induction as generalizing n d with
  | nil => rfl
  | cons a as ih => simp only [List.cons_append, Dev.garble, ih, List.length_cons]; congr 1; omega

/-- The header of an array frame whose bytes are unsure still says what the frame addresses. -/
theorem Dev.garble_header (d : Dev) (k : Dir) (c : Byte) (A : Address) (n : Nat)
    (hc : c = (match k with | .write => codeWrite | .read => codeRead)) (hf : d.frm = .code)
    (hm : modeOf d.config ≠ modeReserved) :
    Dev.garble (header c A) n d = { d with frm := .data k, ptr := A.setWidth 19 } := by
  rw [← locationOf_split]
  subst hc
  cases k <;>
    simp [header, Dev.garble, Dev.garbleByte, hf, Dev.exchange, Dev.afterCode, Dev.arrayFrame, hm, codeWrite, codeRead]

/-- A status frame whose bytes are unsure: the register is a free value, the array stays (R141, U10). -/
theorem Dev.garble_status (d : Dev) (c b1 b2 : Byte) (n : Nat) (hf : d.frm = .code)
    (hc : c = codeWriteStatus ∨ c = codeReadStatus) :
    (∃ m, (Dev.garble [c, b1, b2] n d).config = Config.freeStatus m &&& ~~~Field.ecs.mask) ∧
    (Dev.garble [c, b1, b2] n d).mem = d.mem ∧ (Dev.garble [c, b1, b2] n d).gen = d.gen ∧
    (Dev.garble [c, b1, b2] n d).frm = .complete := by
  rcases hc with rfl | rfl <;>
    simp [Dev.garble, Dev.garbleByte, hf, Dev.exchange, Dev.afterCode, codeWrite, codeRead, codeReadStatus, codeWriteStatus,
      Dev.setStatus] <;>
    exact ⟨_, rfl⟩

/-- A frame that has a meaning, cut by a reset (R210; log 18). -/
theorem Dev.abandon_ordinary {d : Dev} (out : List Byte) (n : Nat) (e : BitVec 1) (h0 : d.frm ≠ .noFrame) (h1 : d.frm ≠ .lost)
    (h2 : d.frm ≠ .reservedMode) :
    d.abandon out n e = (Dev.garble out n { d with frm := .code }).endFrame (n + out.length) e := by
  unfold Dev.abandon; split <;> simp_all

/-- What the unsure data part of an array frame has fetched. -/
theorem Dev.garble_data_fetched (os : List Byte) (n : Nat) (d : Dev) (k : Dir) (h : d.frm = .data k) :
    (Dev.garble os n d).fetched = if os = [] ∨ k = .write then d.fetched else .array := by
  induction os generalizing n d with
  | nil => simp [Dev.garble]
  | cons o os ih =>
    rw [Dev.garble]
    have : (d.garbleByte o n).frm = .data k ∧
        (d.garbleByte o n).fetched = if k = .write then d.fetched else .array := by
      cases k <;> simp [Dev.garbleByte, h, Dev.advance, Dev.setByte]
    rw [ih _ _ this.1, this.2]; cases k <;> simp

/-- A header cut anywhere: what was sent and what was not say together what the frame addresses. -/
theorem Dev.header_cut (d : Dev) (k : Dir) (c : Byte) (A : Address) (m n : Nat) (hn : n ≤ 4)
    (hc : c = (match k with | .write => codeWrite | .read => codeRead)) (hp : protocolOf d.config = protocolSpi)
    (hm : modeOf d.config ≠ modeReserved) :
    Dev.garble ((header c A).drop n) m (d.startFrame.exchanges ((header c A).take n)) =
     { d with frm := .data k, fetched := .nothing, ptr := A.setWidth 19 } := by
  rw [← locationOf_split]
  subst hc
  interval_cases n <;> cases k <;>
    simp [header, Dev.startFrame, hp, Dev.garble, Dev.garbleByte, Dev.exchange, Dev.afterCode, Dev.arrayFrame, hm, codeWrite,
      codeRead]

/-- Where the pointer run goes on after data bytes of a WRITE frame (R58, R60, R61). -/
theorem Dev.exchanges_dataWrite_ptr (os : List Byte) (d : Dev) (h : d.frm = .data .write) (j : Nat) :
    pointerRun (modeOf d.config) (pageSizeOf d.config) j (d.exchanges os).ptr =
      pointerRun (modeOf d.config) (pageSizeOf d.config) (os.length + j) d.ptr := by
  induction os generalizing d with
  | nil => simp
  | cons o os ih =>
    have he : d.exchange o = (d.setByte d.ptr o).advance := by unfold Dev.exchange; rw [h]
    rw [Dev.exchanges_cons, he, show (o :: os).length + j = (os.length + j) + 1 by simp; omega, pointerRun]
    exact ih ((d.setByte d.ptr o).advance) h

/-- What a WRITE frame cut after `n` bytes leaves (R68; log 17). -/
theorem Dev.writeFrame_cut (d : Dev) (A : Address) (D : List Byte) (n m x : Nat) (e : BitVec 1) (hn : n < 4 + D.length)
    (hp : protocolOf d.config = protocolSpi) (hm : modeOf d.config ≠ modeReserved) :
    let t := ((d.startFrame.exchanges ((writeFrame A D).take n)).fallShort ((writeFrame A D).drop n) m).endFrame x e
    t.status = d.status ∧ (∀ a, (∀ j, j < D.length → a ≠ payloadLocation d A j) → t.byteAt a = d.byteAt a) ∧
    (modeOf d.config = modeSequential → D.length ≤ arraySize → ∀ j b, 4 + j < n → D[j]? = some b →
      t.byteAt (sequentialLocation A j) = b) := by
  have key : ∃ g : Dev, Dev.garble ((writeFrame A D).drop n) m (d.startFrame.exchanges ((writeFrame A D).take n)) = g ∧
      g.config = d.config ∧ g.ecs = d.ecs ∧ g.frm = .data .write ∧ g.fetched = .nothing ∧
      (∀ a, (∀ j, j < D.length → a ≠ payloadLocation d A j) → g.byteAt a = d.byteAt a) ∧
      (modeOf d.config = modeSequential → D.length ≤ arraySize → ∀ j b, 4 + j < n → D[j]? = some b →
        g.byteAt (sequentialLocation A j) = b) := by
    refine ⟨_, rfl, ?_⟩
    have hl : (header codeWrite A).length = 4 := rfl
    obtain ⟨e0, he0⟩ : ∃ e : Dev, e = { d with frm := .data .write, fetched := .nothing, ptr := A.setWidth 19 } :=
      ⟨_, rfl⟩
    have e0c : e0.config = d.config := by rw [he0]
    have e0f : e0.frm = .data .write := by rw [he0]
    by_cases h4 : n ≤ 4
    · rw [writeFrame, List.drop_append_of_le_length (by omega), List.take_append_of_le_length (by omega), Dev.garble_append,
        Dev.header_cut d .write codeWrite A m n h4 rfl hp hm]
      obtain ⟨g1, g2, g3, g4, -⟩ := Dev.garble_data .write D (m + ((header codeWrite A).drop n).length)
        (d := { d with frm := .data .write, fetched := .nothing, ptr := A.setWidth 19 }) rfl
      refine ⟨g1, g2, g3, ?_, g4, fun _ _ j b hj => absurd hj (by omega)⟩
      rw [Dev.garble_data_fetched _ _ _ .write rfl]; simp
    · obtain ⟨k, rfl⟩ : ∃ k, n = 4 + k := ⟨n - 4, by omega⟩
      have hk : k < D.length := by omega
      have e1 : (writeFrame A D).take (4 + k) = header codeWrite A ++ D.take k := by
        rw [writeFrame, List.take_append, hl]; simp [List.take_of_length_le, hl]
      have e2 : (writeFrame A D).drop (4 + k) = D.drop k := by
        rw [writeFrame, List.drop_append, hl]; simp [hl]
      rw [e1, e2]
      have e3 := Dev.exchanges_writeFrame d A (D.take k) hp hm
      rw [writeFrame] at e3
      rw [e3]
      rw [← he0]
      obtain ⟨x1, x2, x3, x4, x5, x6⟩ := Dev.exchanges_dataWrite e0 e0f (D.take k)
      have xp := Dev.exchanges_dataWrite_ptr (D.take k) e0 e0f
      have hmem := fun h => Dev.exchanges_dataWrite_mem e0 A 0 e0f h (by simp [he0, sequentialLocation, arraySize]) (D.take k)
      subst he0
      generalize hv : ({ d with frm := .data .write, fetched := .nothing, ptr := A.setWidth 19 } : Dev).exchanges
        (D.take k) = v at *
      obtain ⟨g1, g2, g3, g4, -⟩ := Dev.garble_data .write (D.drop k) m (d := v) x3
      have hlk : (D.take k).length = k := by simp; omega
      have e4 : ∀ a, (∀ j, k ≤ j → j < D.length → a ≠ payloadLocation d A j) →
          (Dev.garble (D.drop k) m v).byteAt a = v.byteAt a := by
        intro a ha
        apply g4
        intro j hj
        rw [x1]
        have := xp j
        simp only at this
        rw [this, hlk]
        exact ha (k + j) (by omega) (by simp at hj; omega)
      refine ⟨g1.trans x1, g2.trans x2, g3, by rw [Dev.garble_data_fetched _ _ _ .write x3]; simpa using x4, ?_, ?_⟩
      · intro a ha
        rw [e4 a (fun j _ hj => ha j hj)]
        exact x6 a (fun j hj => ha j (by rw [hlk] at hj; omega))
      · intro hs hL j b hj hb
        rw [e4]
        · have := (writtenRun_read A (D.take k) 0 d.mem (by rw [hlk]; omega)).1 j b
            (by rw [List.getElem?_take]; simp [hb]; omega)
          simp only [Dev.byteAt, hmem hs]
          simp only [Nat.zero_add] at this
          rw [this]; rfl
        · intro i hi hiL he
          rw [payloadLocation_sequential hs] at he
          simp [sequentialLocation, arraySize] at he hL; omega
  obtain ⟨g, hg, k1, k2, k3, k4, k5, k6⟩ := key
  intro t
  have ht : t = { g with frm := .noFrame } := by
    show Dev.endFrame _ _ (Dev.fallShort _ _ _) = _
    unfold Dev.fallShort
    rw [hg]
    simp [Dev.endFrame, FramePos.cutShort, k3, k4]
  rw [ht]
  exact ⟨by simp [Dev.status, k1, k2], k5, k6⟩

/-- What a READ frame cut in its header leaves (log 17). -/
theorem Dev.readHeader_cut (d : Dev) (A : Address) (n m x : Nat) (e : BitVec 1) (hn : n < 4)
    (hp : protocolOf d.config = protocolSpi) :
    let t := ((d.startFrame.exchanges ((readHeader A).take n)).fallShort ((readHeader A).drop n) m).endFrame x e
    t.config = d.config ∧ (modeOf d.config ≠ modeReserved → SameChip d t) := by
  by_cases hm : modeOf d.config = modeReserved
  · refine ⟨?_, fun h => absurd hm h⟩
    have : Dev.garble ((readHeader A).drop n) m (d.startFrame.exchanges ((readHeader A).take n)) =
        { d with frm := .reservedMode, fetched := .nothing } := by
      interval_cases n <;>
        simp [readHeader, header, Dev.startFrame, hp, Dev.garble, Dev.garbleByte, Dev.exchange, Dev.afterCode, Dev.arrayFrame,
          hm, codeWrite, codeRead]
    unfold Dev.fallShort; rw [this]; rfl
  · have := Dev.header_cut d .read codeRead A m n (by omega) rfl hp hm
    unfold Dev.fallShort readHeader; rw [this]
    exact ⟨rfl, fun _ => ⟨rfl, fun _ => rfl⟩⟩

/-- What a READ frame cut in its response leaves (R51, R62; logs 9, 17). -/
theorem Dev.readFrame_cut (d : Dev) (A : Address) (fills : List Byte) (m x : Nat) (e : BitVec 1)
    (hp : protocolOf d.config = protocolSpi) :
    let t := ((d.startFrame.exchanges (readHeader A ++ fills)).fallShort [] m).endFrame x e
    t.config = d.config ∧ (modeOf d.config ≠ modeReserved → SameButEcs d t ∧ (fills = [] → SameChip d t)) := by
  by_cases hm : modeOf d.config = modeReserved
  · refine ⟨?_, fun h => absurd hm h⟩
    rw [readHeader, Dev.exchanges_arrayReserved d _ (.inr rfl) A fills hp hm]; rfl
  · rw [Dev.exchanges_readFrame d A fills hp hm]
    obtain ⟨h1, -, h3, h4, h5, -⟩ := Dev.exchanges_dataRead
      ({ d with frm := .data .read, fetched := .nothing, ptr := A.setWidth 19 } : Dev) rfl fills
    have : ∀ g : Dev, g.frm = .data .read → ((g.fallShort [] m).endFrame x e) =
        { g with ecs := if g.fetched = .nothing then g.ecs else e, frm := .noFrame, fetched := .nothing } := by
      intro g hg; simp [Dev.fallShort, Dev.garble, hg, FramePos.cutShort, Dev.endFrame]
    rw [this _ h3]
    refine ⟨h1, fun _ => ⟨⟨h1, fun a => Dev.byteAt_congr h4 h5 a⟩, ?_⟩⟩
    rintro rfl
    exact ⟨rfl, fun _ => rfl⟩

/-! ## The two shapes of one-session operations, without a fault -/

/-- A fault-free write operation (R120, R121, R141). -/
theorem runWrite_faultFree {frame : List Byte} {s : State} (hs : s.stalled = false) (hf : s.faultFree) :
    ∃ u, SessionDone frame 1 s u ∧
      runWrite frame s = complete { u with res := { s.res with count := frame.length }, seq := ⟨.done, 0, 7⟩ } := by
  obtain ⟨h1, h2⟩ := writeSession_faultFree .sel1 .tx1 .desel1 frame hs hf
  refine ⟨_, h1, ?_⟩
  unfold runWrite
  rw [putRes_live h1.stalled]
  simp only [settle, h1.stalled, h2, sentAll, h1.res]
  simp

/-- A fault-free read operation (R122, R123, R140). -/
theorem runRead_faultFree {hdr : List Byte} {len : Nat} {f : Work → Res → Res} {s : State} (hs : s.stalled = false)
    (hf : s.faultFree) : ∃ u, SessionDone (hdr ++ List.replicate len Config.fill) 2 s u ∧
      u.work.r = (incoming (hdr ++ List.replicate len Config.fill) (select s)).drop hdr.length ∧
      runRead hdr len f s = complete { u with res := f u.work s.res, seq := ⟨.done, 0, 7⟩ } := by
  obtain ⟨h1, h2, h3⟩ := readSession_faultFree hdr len hs hf
  refine ⟨_, h1, h3, ?_⟩
  unfold runRead
  rw [putRes_live h1.stalled]
  simp only [settle, h1.stalled, receivedAll, h1.res, h2, h3]
  simp

end Sys2Proof.Machine
end

