-- ==== Sys2Proof/Laws/PerInstr.lean ====
section
/-!
SUPPORT. Statements about the syntax of every instruction, one lemma for each constructor.
-/

namespace Sys2Proof.Laws.Encodable

/-- An instruction has an encoding exactly when it is well formed (30_encoding R70, R88, R89). -/
def Statement (i : Instr) : Prop := (encode i).isSome = i.wellFormed

theorem write (addr : Address) (data : List Byte) : Statement (.write addr data) := rfl
theorem read (addr : Address) (len : Nat) : Statement (.read addr len) := rfl
theorem readStatus : Statement .readStatus := rfl
theorem writeStatus (value : StatusWord) : Statement (.writeStatus value) := rfl
theorem fastRead : Statement .fastRead := rfl
theorem enterDualIo : Statement .enterDualIo := rfl
theorem enterQuadIo : Statement .enterQuadIo := rfl
theorem resetIo : Statement .resetIo := rfl
theorem writeByte (addr : Address) (value : Byte) : Statement (.writeByte addr value) := rfl
theorem sequentialWrite (addr : Address) (data : List Byte) : Statement (.sequentialWrite addr data) := rfl
theorem readByte (addr : Address) : Statement (.readByte addr) := rfl
theorem sequentialRead (addr : Address) (len : Nat) : Statement (.sequentialRead addr len) := rfl
theorem getStatus : Statement .getStatus := rfl
theorem setStatus (value : StatusWord) : Statement (.setStatus value) := rfl
theorem setMode (arg : BitVec 3) : Statement (.setMode arg) := rfl
theorem setPageSize (arg : BitVec 3) : Statement (.setPageSize arg) := rfl
theorem setSlewRate (arg : BitVec 3) : Statement (.setSlewRate arg) := rfl
theorem setDriveStrength (arg : BitVec 3) : Statement (.setDriveStrength arg) := rfl
theorem decodeStatus (value : StatusWord) : Statement (.decodeStatus value) := rfl
theorem reservedOpB : Statement .reservedOpB := rfl
theorem reservedOpCToF (low : BitVec 2) : Statement (.reservedOpCToF low) := rfl
theorem select : Statement .select := rfl
theorem deselect : Statement .deselect := rfl
theorem transfer (bytes : List Byte) : Statement (.transfer bytes) := rfl
theorem receive (len : Nat) : Statement (.receive len) := rfl

end Sys2Proof.Laws.Encodable
end

