-- ==== Sys2Proof/Tests/Slice0.lean ====
section
/-!
SUPPORT. Tests: ill-formed instructions refused, words of the encodings decoded, one step of each instruction on the spec's own
examples (95_test_vectors; the expected values are the vectors'), and for every obligation with hypotheses a concrete input
that meets them together.
-/

namespace Sys2Proof.Tests

open Sys2Proof.Machine

/-! ## Helpers -/

/-- After reset, with the chip's register at `v`. -/
def withStatus (v : StatusWord) : State := { State.reset with dev := (Dev.powerUp 0).setStatus v }

/-- After reset, with the environment's coming choices. -/
def withCalls (cs : List CallDraw) : State := { State.reset with env := ⟨cs, true, [], [], []⟩ }

/-- After reset, with known bytes in the array. -/
def withMem (m : Memory) : State := { State.reset with dev := { Dev.powerUp 0 with mem := m } }

/-- After reset, with no device plugged in and bytes to come on MISO. -/
def unplugged (bytes : List Byte) : State := { State.reset with env := ⟨[], false, bytes, [], []⟩ }

/-- A session in progress, right after `Select()`. -/
def opened : State := Machine.select State.reset

/-- Hung in the third exchange of a write_byte (R109). -/
def hung : State :=
  { opened with
    busy := true
    stalled := true
    seq := ⟨.tx1, 2, 4⟩
    trace := [.sel, .x 0x02 0x00, .x 0x00 0x00]
    work := ⟨2, [], [0x02, 0x00, 0x13, 0x37, 0x42], 0⟩
    dev := { Dev.powerUp 0 with frm := .addrMid .write 0x00 } }

/-- Hung in the header of a sequential_read of two bytes from 0x000010: the response part is still to come (R71, R109). -/
def hungRead : State :=
  { hung with
    trace := [.sel, .x 0x03 0x00, .x 0x00 0x00]
    work := ⟨2, [], [0x03, 0x00, 0x00, 0x10], 2⟩
    dev := { Dev.powerUp 0 with frm := .addrMid .read 0x00, mem := [(0x10, 0x41), (0x12, 0x43)] } }

/-- Hung in the second exchange of a set_status (R109). -/
def hungStatus : State :=
  { hung with
    trace := [.sel, .x 0x01 0x00]
    work := ⟨1, [], [0x01, 0x81, 0x14], 0⟩
    dev := { Dev.powerUp 0 with frm := .statusInHigh, mem := [(0x10, 0x41)] } }

/-- The chip with its register at `v`, and the environment's coming choices. -/
def withStatusCalls (v : StatusWord) (cs : List CallDraw) : State := { withStatus v with env := ⟨cs, true, [], [], []⟩ }

/-- No device plugged in, and the environment's coming choices. -/
def unpluggedCalls (cs : List CallDraw) : State := { State.reset with env := ⟨cs, false, [], [], []⟩ }

/-- Ready, with other results and an older trace than after reset. -/
def afterOther : State :=
  { State.reset with
    cmd := { Cmd.zero with val8 := 0x55 }
    res := { State.reset.res with ok := true, val8 := 0x42 }
    trace := [.sel, .x 0x05 0x00, .desel] }

/-- A property of the next state; false where there is none. -/
def next (o : Host.Outcome State Fault Refusal) (p : State → Bool) : Bool :=
  match o with
  | .next t => p t
  | _ => false

/-- The operation reports success with this count. -/
def succeeded (n : Nat) (t : State) : Bool := t.res.ok && decide (t.res.err = .success) && decide (t.res.count = n) && t.csN

/-- The operation reports a failure of this kind with this count, chip-select released. -/
def failed (k : ErrKind) (n : Nat) (t : State) : Bool :=
  !t.res.ok && decide (t.res.err = k) && decide (t.res.count = n) && t.csN && !t.busy

/-! ## WellFormed: the primitives have no encoding (R89) -/

theorem test_illformed_select : Instr.wellFormed .select = false ∧ encode .select = none := by decide
theorem test_illformed_deselect : Instr.wellFormed .deselect = false ∧ encode .deselect = none := by decide
theorem test_illformed_transfer : Instr.wellFormed (.transfer [0x02]) = false ∧ encode (.transfer [0x02]) = none := by decide
theorem test_illformed_receive : Instr.wellFormed (.receive 2) = false ∧ encode (.receive 2) = none := by decide

/-! ## Decoding, bit by bit (R70, R74 to R77, R81, R83, R88) -/

/-- S1: `02 00 13 37 42`, in the bits of the MOSI stream of the vector. -/
theorem test_decode_write : decode (.frame [0b00000010, 0b00000000, 0b00010011, 0b00110111, 0b01000010]) =
    .instr (.write 0b0000000001001100110111 [0b01000010]) := by decide
/-- V1: A = 0x155555 is `15 55 55`. -/
theorem test_decode_read : decode (.frame [0b00000011, 0b00010101, 0b01010101, 0b01010101, 0, 0, 0]) =
    .instr (.read 0b0101010101010101010101 3) := by decide
theorem test_decode_readStatus : decode (.frame [0b00000101, 0, 0]) = .instr .readStatus := by decide
/-- V2: 0xA5BD is `A5 BD`. -/
theorem test_decode_writeStatus : decode (.frame [0b00000001, 0b10100101, 0b10111101]) = .instr (.writeStatus 0xA5BD) := by
  decide
theorem test_decode_fastRead : decode (.frame [0b00001011]) = .instr .fastRead := by decide
theorem test_decode_enterDualIo : decode (.frame [0b00111011]) = .instr .enterDualIo := by decide
theorem test_decode_enterQuadIo : decode (.frame [0b00111000]) = .instr .enterQuadIo := by decide
theorem test_decode_resetIo : decode (.frame [0b11111111]) = .instr .resetIo := by decide
theorem test_decode_writeByte : decode (.host ⟨0b0000, 0x3FFFFF, 9, 0xFF, 0xFFFF, 7, []⟩) = .instr (.writeByte 0x3FFFFF 0xFF) := by
  decide
theorem test_decode_sequentialWrite : decode (.host ⟨0b0001, 0x10, 2, 0, 0, 0, [0x41, 0x42]⟩) =
    .instr (.sequentialWrite 0x10 [0x41, 0x42]) := by decide
theorem test_decode_readByte : decode (.host ⟨0b0010, 0x1337, 0, 0, 0, 0, []⟩) = .instr (.readByte 0x1337) := by decide
theorem test_decode_sequentialRead : decode (.host ⟨0b0011, 0x10, 3, 0, 0, 0, []⟩) = .instr (.sequentialRead 0x10 3) := by decide
theorem test_decode_getStatus : decode (.host ⟨0b0100, 0, 0, 0, 0, 0, []⟩) = .instr .getStatus := by decide
theorem test_decode_setStatus : decode (.host ⟨0b0101, 0, 0, 0, 0x8114, 0, []⟩) = .instr (.setStatus 0x8114) := by decide
theorem test_decode_setMode : decode (.host ⟨0b0110, 0, 0, 0, 0, 0b010, []⟩) = .instr (.setMode 0b010) := by decide
theorem test_decode_setPageSize : decode (.host ⟨0b0111, 0, 0, 0, 0, 0b001, []⟩) = .instr (.setPageSize 0b001) := by decide
theorem test_decode_setSlewRate : decode (.host ⟨0b1000, 0, 0, 0, 0, 0b011, []⟩) = .instr (.setSlewRate 0b011) := by decide
theorem test_decode_setDriveStrength : decode (.host ⟨0b1001, 0, 0, 0, 0, 0b111, []⟩) = .instr (.setDriveStrength 0b111) := by
  decide
theorem test_decode_decodeStatus : decode (.host ⟨0b1010, 0, 0, 0, 0x5A5A, 0, []⟩) = .instr (.decodeStatus 0x5A5A) := by decide
theorem test_decode_reservedOpB : decode (.host ⟨0b1011, 0, 0, 0, 0, 0, []⟩) = .instr .reservedOpB := by decide
theorem test_decode_reservedOpCToF : decode (.host ⟨0b1101, 0, 0, 0, 0, 0, []⟩) = .instr (.reservedOpCToF 0b01) := by decide
/-- What is no instruction is rejected by name. -/
theorem test_decode_rejects : decode (.frame []) = .bad .emptyFrame ∧ decode (.frame [0x04]) = .bad (.unknownCode 0x04) ∧
    decode (.frame [0x02, 0x00]) = .bad (.frameShape 0x02) ∧ decode (.frame [0x05, 0]) = .bad (.frameShape 0x05) ∧
    decode (.frame [0x02, 0x40, 0, 0]) = .bad (.addressTopBits 0x40) ∧
    decode (.host ⟨0x1, 0, 3, 0, 0, 0, []⟩) = .bad (.payloadLength 3) := by decide
/-- V1, three rows. -/
theorem test_address_split : header 0x03 0x010000 = [0x03, 0x01, 0x00, 0x00] ∧ header 0x03 0x2AAAAA = [0x03, 0x2A, 0xAA, 0xAA] ∧
    header 0x03 0x3FFF00 = [0x03, 0x3F, 0xFF, 0x00] := by decide
/-- The table's numbering (log 25): codes of a byte and selectors of four bits. -/
theorem test_table_words : decodeTableWord 8 0x02 = some (.write 0 [0]) ∧ decodeTableWord 8 0x0B = some .fastRead ∧
    decodeTableWord 4 0x2 = some (.readByte 0) ∧ decodeTableWord 4 0xB = some .reservedOpB ∧
    decodeTableWord 4 0xF = some (.reservedOpCToF 0b11) := by decide

/-! ## Wire instructions (R58, R59, R63, R64, R170) -/

/-- V4.2: `02 3F FF FF FF` writes location 0x7FFFF. -/
theorem test_write_top : next (exec (.write 0x3FFFFF [0xFF]) State.reset) (fun t =>
    outBytes t.trace == [0x02, 0x3F, 0xFF, 0xFF, 0xFF] && t.dev.mem == [(0x7FFFF, 0xFF)]) = true := by decide
/-- R59, R60: two bytes across the top. -/
theorem test_read_wraps : next (exec (.read 0x07FFFF 2) (withMem [(0, 0x22), (0x7FFFF, 0x11)])) (fun t =>
    t.work.r == [0x11, 0x22]) = true := by decide
/-- V5.1 on the wire. -/
theorem test_readStatus : next (exec .readStatus State.reset) (fun t => t.work.r == [0x40, 0x14]) = true := by decide
/-- R140: ECS may differ after a read of the register, by the environment's choice. -/
theorem test_readStatus_ecs : next (exec .readStatus { State.reset with env := ⟨[], true, [], [], [1]⟩ }) (fun t =>
    t.work.r == [0x40, 0x14] && t.dev.status == 0x6014 && t.env.ecsAfterStatus == []) = true := by decide
/-- R62: ECS is the environment's after a read of the array. -/
theorem test_read_ecs : next (exec (.read 0 1) { State.reset with env := ⟨[], true, [], [1, 0], []⟩ }) (fun t =>
    t.dev.status == 0x6014 && t.env.ecs == [0]) = true := by decide
/-- V5.5 on the wire: ECS is read-only. -/
theorem test_writeStatus : next (exec (.writeStatus 0x6014) State.reset) (fun t =>
    outBytes t.trace == [0x01, 0x60, 0x14] && t.dev.status == 0x4014) = true := by decide
theorem test_fastRead : exec .fastRead State.reset = .refused (.unimplementedCode 0b00001011) := rfl
theorem test_enterDualIo : exec .enterDualIo State.reset = .refused (.unimplementedCode 0b00111011) := rfl
theorem test_enterQuadIo : exec .enterQuadIo State.reset = .refused (.unimplementedCode 0b00111000) := rfl
theorem test_resetIo : exec .resetIo State.reset = .refused (.unimplementedCode 0b11111111) := rfl

/-! ## Array operations (R120 to R123) -/

/-- S1. -/
theorem test_writeByte : next (exec (.writeByte 0x001337 0x42) State.reset) (fun t =>
    outBytes t.trace == [0x02, 0x00, 0x13, 0x37, 0x42] && succeeded 5 t && t.dev.mem == [(0x1337, 0x42)]) = true := by decide
/-- S3. -/
theorem test_writeByte_short : next (exec (.writeByte 0x001337 0x42) (withCalls [.short 4])) (fun t =>
    outBytes t.trace == [0x02, 0x00, 0x13, 0x37] && failed .shortTransfer 4 t) = true := by decide
/-- V4.9: the byte sent is in the array. -/
theorem test_sequentialWrite_short : next (exec (.sequentialWrite 0x10 [0x41, 0x42, 0x43]) (withCalls [.short 5])) (fun t =>
    outBytes t.trace == [0x02, 0x00, 0x00, 0x10, 0x41] && failed .shortTransfer 5 t && t.dev.mem.read 0x10 == some 0x41) = true := by
  decide
/-- V4.16: the wrap at the top of the array. -/
theorem test_sequentialWrite_wraps : next (exec (.sequentialWrite 0x07FFFE [1, 2, 3, 4]) State.reset) (fun t =>
    succeeded 8 t && t.dev.mem == [(0, 3), (1, 4), (0x7FFFE, 1), (0x7FFFF, 2)]) = true := by decide
/-- V4.12. -/
theorem test_readByte : next (exec (.readByte 0x001337) (withMem [(0x1337, 0x42)])) (fun t =>
    succeeded 1 t && t.res.val8 == 0x42 && (outBytes t.trace).take 4 == [0x03, 0x00, 0x13, 0x37]) = true := by decide
/-- V4.13. -/
theorem test_readByte_short : next (exec (.readByte 0x001337) { withCalls [.full, .short 0] with
    res := { State.reset.res with val8 := 0x99 } }) (fun t => failed .shortTransfer 0 t && t.res.val8 == 0x00) = true := by decide
/-- V4.6. -/
theorem test_sequentialRead : next (exec (.sequentialRead 0x10 3) (withMem [(0x10, 0x41), (0x11, 0x42), (0x12, 0x43)])) (fun t =>
    succeeded 3 t && t.res.rbuf == [0x41, 0x42, 0x43]) = true := by decide
/-- V4.11 with the recipe of S4: the tail of the buffer is untouched. -/
theorem test_sequentialRead_short : next (exec (.sequentialRead 0x10 3) { withMem [(0x10, 0x41), (0x11, 0x42), (0x12, 0x43)] with
    env := ⟨[.full, .short 2], true, [], [], []⟩
    res := { State.reset.res with rbuf := [0xEE, 0xEE, 0xEE] } }) (fun t =>
    failed .shortTransfer 2 t && t.res.rbuf == [0x41, 0x42, 0xEE]) = true := by decide

/-! ## Status operations (R140 to R160) -/

/-- V5.1. -/
theorem test_getStatus : next (exec .getStatus State.reset) (fun t => succeeded 2 t && t.res.val16 == 0x4014) = true := by decide
/-- V5.2. -/
theorem test_getStatus_short : next (exec .getStatus (withCalls [.full, .short 1])) (fun t =>
    failed .shortTransfer 1 t && t.res.val16 == 0x4000) = true := by decide
/-- V5.5. -/
theorem test_setStatus_ecs : next (exec (.setStatus 0x6014) State.reset) (fun t =>
    succeeded 3 t && t.dev.status == 0x4014) = true := by decide
/-- V5.6. -/
theorem test_setStatus_short : next (exec (.setStatus 0x8114) (withCalls [.short 2])) (fun t =>
    outBytes t.trace == [0x01, 0x81] && failed .shortTransfer 2 t) = true := by decide
/-- V5.7. -/
theorem test_setMode : next (exec (.setMode 0b010) State.reset) (fun t =>
    succeeded 3 t && t.res.val16 == 0x8014 && t.dev.status == 0x8014 && (outBytes t.trace).drop 3 == [0x01, 0x80, 0x14]) = true := by
  decide
/-- V5.9. -/
theorem test_setMode_invalid : next (exec (.setMode 0b011) State.reset) (fun t =>
    failed .invalidArgument 0 t && t.trace == [] && t.dev.status == 0x4014) = true := by decide
/-- V5.10. -/
theorem test_setPageSize : next (exec (.setPageSize 0b001) State.reset) (fun t =>
    succeeded 3 t && t.res.val16 == 0x4114 && t.dev.status == 0x4114) = true := by decide
/-- V5.17. -/
theorem test_setPageSize_invalid : next (exec (.setPageSize 0b010) State.reset) (fun t =>
    failed .invalidArgument 0 t && t.trace == []) = true := by decide
/-- V5.14: reserved bits are preserved. -/
theorem test_setSlewRate_reserved : next (exec (.setSlewRate 0b000) (withStatus 0x46F4)) (fun t =>
    t.res.val16 == 0x46E4 && t.dev.status == 0x46E4) = true := by decide
/-- S5. -/
theorem test_setSlewRate_isolation : next (exec (.setSlewRate 0b011) (withStatus 0xA5A5)) (fun t =>
    t.res.val16 == 0xA5BD && t.dev.status == 0xA5BD && inBytes t.trace ≠ []) = true := by decide
/-- V5.15: a failed read writes nothing back. -/
theorem test_setDriveStrength_failedRead : next (exec (.setDriveStrength 0b111) (withCalls [.full, .short 1])) (fun t =>
    failed .shortTransfer 0 t && t.res.val16 == 0x4000 && sessionsOpened t.trace == 1 && t.dev.status == 0x4014) = true := by decide
/-- V5.16. -/
theorem test_setDriveStrength_failedWrite : next (exec (.setDriveStrength 0b111) (withCalls [.full, .full, .short 1])) (fun t =>
    failed .shortTransfer 1 t && t.res.val16 == 0x4017 && (outBytes t.trace).drop 3 == [0x01]) = true := by decide
/-- S2, R161. -/
theorem test_decodeStatus_default : next (exec (.decodeStatus 0x4014) State.reset) (fun t =>
    t.res.ok && t.res.fields == ⟨0b01, 0, 0b00, 0, 0b10, 0b100⟩ && t.trace == []) = true := by decide
/-- V3. -/
theorem test_decodeStatus_reserved : next (exec (.decodeStatus 0x5A5A) State.reset) (fun t =>
    t.res.ok && t.res.fields == ⟨0b01, 0, 0b11, 0, 0b11, 0b010⟩) = true := by decide
/-- V5.18. -/
theorem test_reservedOpB : next (exec .reservedOpB State.reset) (fun t => failed .invalidArgument 0 t && t.trace == []) = true := by
  decide
theorem test_reservedOpCToF : next (exec (.reservedOpCToF 0b11) State.reset) (fun t =>
    failed .invalidArgument 0 t && t.cmd.op == 0xF) = true := by decide

/-! ## Transport primitives (R100 to R104) -/

theorem test_select : next (exec .select State.reset) (fun t => !t.csN && t.trace == [.sel]) = true := by decide
theorem test_deselect : next (exec .deselect opened) (fun t => t.csN && t.trace == [.sel, .desel]) = true := by decide
/-- R102's example with `lim = 4`. -/
theorem test_transfer_short : next (exec (.transfer [0x02, 0x00, 0x13, 0x37, 0x42]) { opened with env := ⟨[.short 4], true, [], [], []⟩ })
    (fun t => t.work.n == 4 && outBytes t.trace == [0x02, 0x00, 0x13, 0x37] && !t.csN) = true := by decide
/-- R103's example: during a get_status at power-up. -/
theorem test_receive : next (exec (.receive 2) { opened with dev := { Dev.powerUp 0 with frm := .statusOutHigh } })
    (fun t => t.work.r == [0x40, 0x14]) = true := by decide
/-- V7: SHR after cycles 0, 3, 5 and 7 of `Xchg(0x02)` with the chip answering 0xA5. -/
theorem test_shift_register (l : Lines) : (shiftByte 1 0x02 0xA5 l).shr = 0b00000101 ∧ (shiftByte 4 0x02 0xA5 l).shr = 0b00101010 ∧
    (shiftByte 6 0x02 0xA5 l).shr = 0b10101001 ∧ (shiftByte 8 0x02 0xA5 l).shr = 0b10100101 := by
  simp only [shiftByte, clockBits, clockBit_eq]
  decide

/-! ## Steps -/

/-- A table word placed by `withFetchWord` runs in the next step. -/
theorem test_step_word : next (step (State.reset.withFetchWord 4 0x4)) (fun t => t.res.val16 == 0x4014 && t.inputs == []) = true := by
  decide
/-- R109: a stall in the exchange after two bytes, three bits done: BUSY and chip-select stay. -/
theorem test_step_stall : next (exec (.writeByte 0x001337 0x42) (withCalls [.stall 2 3])) (fun t =>
    t.busy && !t.csN && t.stalled && t.seq == ⟨.tx1, 2, 4⟩ && outBytes t.trace == [0x02, 0x00]) = true := by decide
/-- R13: the hung machine takes no request; R210: it takes a reset. -/
theorem test_step_hung : step { hung with inputs := [.request (.host Cmd.zero)] } =
      .next { hung with inputs := [.request (.host Cmd.zero)] } ∧
    next (step { hung with inputs := [.reset] }) (fun t => t.csN && !t.busy && t.trace == [] && t.dev.status == 0x4014) = true :=
  ⟨rfl, by decide⟩
/-- R210, U10 (log 18): a reset that cuts a READ in its header leaves any value where the frame was to read, and no location
beyond it, nor the register, changes. -/
theorem test_step_reset_read : ∃ t, step { hungRead with inputs := [.reset] } = .next t ∧ t.csN = true ∧
    (∃ n, t.dev.byteAt 0x10 = Config.freeByte n) ∧ (∃ n, t.dev.byteAt 0x11 = Config.freeByte n) ∧
    t.dev.byteAt 0x12 = 0x43 ∧ t.dev.config = 0x4014 :=
  ⟨_, rfl, rfl, ⟨5, rfl⟩, ⟨6, rfl⟩, rfl, rfl⟩
/-- R210, U10 (log 18): a reset that cuts a WRITE_STATUS leaves the array. -/
theorem test_step_reset_status : next (step { hungStatus with inputs := [.reset] }) (fun t =>
    t.csN && t.dev.mem == [(0x10, 0x41)]) = true := rfl
/-- R211. -/
theorem test_step_powerUp : next (step { withStatus 0x8114 with inputs := [.powerUp] }) (fun t => t.dev.status == 0x4014) = true := by
  decide
/-- A request that spells no instruction is refused. -/
theorem test_step_undecodable : step { State.reset with inputs := [.request (.frame [0x9F])] } =
    .refused (.undecodable (.unknownCode 0x9F)) := rfl

/-! ## Witnesses: for each obligation with hypotheses, inputs that meet them together, at the ends of each clause's range -/

/-- A state in which PSS is ready. -/
theorem ready_of (e : Env) (d : Dev) (r : Res) : ({ State.reset with env := e, dev := d, res := r } : State).ready := ⟨rfl, rfl, rfl⟩

theorem faultFree_reset : State.reset.faultFree := by intro c hc; cases hc

theorem spi_reset : State.reset.spi := ⟨rfl, by decide⟩

theorem witness_DecodeOfEncodeIsIdentity : Instr.wellFormed (.write 0x3FFFFF []) = true ∧ Instr.wellFormed (.reservedOpCToF 3) = true := by
  decide

theorem witness_OtherFirstBytesAreNoInstruction :
    (0x00 : Byte) ∉ [(0x01 : Byte), 0x02, 0x03, 0x05, 0x0B, 0x38, 0x3B, 0xFF] ∧
    (0xFE : Byte) ∉ [(0x01 : Byte), 0x02, 0x03, 0x05, 0x0B, 0x38, 0x3B, 0xFF] := by decide

/-- An input at each end of each clause's range. -/
theorem witness_MalformedRequestsAreRefused : ([] : List Byte).length < 3 ∧ [(0 : Byte), 0].length < 3 ∧
    64 ≤ (0x40 : Byte).toNat ∧ 64 ≤ (0xFF : Byte).toNat ∧ ([] : List Byte).length ≠ 2 ∧ [(0 : Byte), 0, 0].length ≠ 2 ∧
    (0x0B : Byte) ∈ [(0x0B : Byte), 0x3B, 0x38, 0xFF] ∧ (0xFF : Byte) ∈ [(0x0B : Byte), 0x3B, 0x38, 0xFF] ∧
    [(0 : Byte)] ≠ [] ∧ ((⟨0x1, 0, 1, 0, 0, 0, []⟩ : Cmd).op = 0x1 ∧ (⟨0x1, 0, 1, 0, 0, 0, []⟩ : Cmd).wdata.length ≠ 1) ∧
    ({ State.reset with inputs := [.request (.frame [])] } : State).inputs = .request (.frame []) :: [] ∧
    ({ State.reset with inputs := [.request (.frame [])] } : State).heldOff = false ∧
    decode (.frame []) = .bad .emptyFrame := by decide

theorem witness_FieldInsertLaws : (0b111 : StatusWord).toNat < 2 ^ Field.drive.width ∧ (0 : StatusWord).toNat < 2 ^ Field.ecs.width ∧
    Field.mode ≠ Field.slew := by decide

theorem witness_HeaderLoadsPointer : protocolOf (Dev.powerUp 0).config = protocolSpi ∧ modeOf (Dev.powerUp 0).config ≠ modeReserved := by
  decide

theorem witness_StatusWriteAtChip : ({ Dev.powerUp 0 with frm := .statusInLow 0x81 } : Dev).frm = .statusInLow 0x81 ∧
    protocolOf (Dev.powerUp 0).config = protocolSpi := by decide

theorem witness_SelectOpensSession : State.reset.stalled = false ∧ State.reset.ses = .idle := ⟨rfl, rfl⟩

theorem witness_DeselectClosesSession : opened.stalled = false ∧ opened.ses = .selected ∧ opened.env.plugged = true ∧
    opened.dev.frm ≠ .lost ∧ opened.dev.frm ≠ .reservedMode := by decide

/-- A call cut at its first and at its last byte, a call that completes, one whose stall comes after its end, plugged and
unplugged. -/
theorem witness_TransferSendsPrefix :
    opened.stalled = false ∧ opened.ses = .selected ∧ opened.env.plugged = true ∧
    (∀ n b, callDraw opened = .stall n b → 2 ≤ n) ∧ (callDraw opened).limit 2 = 2 ∧
    callDraw { opened with env := ⟨[.short 0], true, [], [], []⟩ } = .short 0 ∧ (CallDraw.short 0).limit 2 < 2 ∧
    callDraw { opened with env := ⟨[.short 1], false, [], [], []⟩ } = .short 1 ∧ (CallDraw.short 1).limit 2 < 2 ∧
    callDraw { opened with env := ⟨[.stall 2 0], true, [], [], []⟩ } = .stall 2 0 :=
  ⟨rfl, rfl, rfl, (fun n b h => by cases h), rfl, rfl, by decide, rfl, by decide, rfl⟩

theorem witness_ReceiveCollectsPrefix :
    opened.stalled = false ∧ opened.ses = .selected ∧ opened.env.plugged = true ∧
    (∀ n b, callDraw opened = .stall n b → 0 ≤ n) ∧ (callDraw opened).limit 0 = 0 ∧
    callDraw { opened with env := ⟨[.short 1], false, [], [], []⟩ } = .short 1 ∧ (CallDraw.short 1).limit 2 < 2 :=
  ⟨rfl, rfl, rfl, (fun n b h => by cases h), rfl, rfl, by decide⟩

theorem witness_PrimitivesStopOutsideTheirSession : opened.stalled = false ∧ opened.ses = .selected ∧
    State.reset.stalled = false ∧ State.reset.ses = .idle := ⟨rfl, rfl, rfl, rfl⟩

/-- A stall at the first bit of the first exchange, and at the last bit of the last. -/
theorem witness_StalledCallHangs :
    callDraw { opened with env := ⟨[.stall 0 0], true, [], [], []⟩ } = .stall 0 0 ∧
    callDraw { opened with env := ⟨[.stall 4 7], true, [], [], []⟩ } = .stall 4 7 ∧
    4 < [(0x02 : Byte), 0, 0, 0, 0].length ∧ opened.stalled = false ∧ opened.ses = .selected :=
  ⟨rfl, rfl, by decide, rfl, rfl⟩

theorem witness_OffersWhileBusyAreHeldOff : hung.heldOff = true ∧ hung.inputs = [] ∧
    (∃ c rest, ({ hung with inputs := [.request (.frame [])] } : State).inputs = .request c :: rest) ∧
    (∃ b rest, ({ hung with inputs := [.buffer []] } : State).inputs = .buffer b :: rest) ∧
    isHostOp .getStatus = true ∧ isFrame .readStatus = true :=
  ⟨rfl, rfl, ⟨_, _, rfl⟩, ⟨_, _, rfl⟩, rfl, rfl⟩

/-- Ready and fault-free, with the reference device in each named mode, and with no device plugged in. -/
theorem witness_WriteByteCompletes :
    State.reset.ready ∧ State.reset.faultFree ∧ State.reset.spi ∧ State.reset.modeNamed ∧ State.reset.sequential ∧
    (withStatus 0x0014).ready ∧ (withStatus 0x0014).faultFree ∧ (withStatus 0x0014).spi ∧ (withStatus 0x0014).modeNamed ∧
    (withStatus 0x8014).ready ∧ (withStatus 0x8014).faultFree ∧ (withStatus 0x8014).spi ∧ (withStatus 0x8014).modeNamed ∧
    (unplugged [0x11]).ready ∧ (unplugged [0x11]).faultFree ∧ (unplugged [0x11]).env.plugged = false :=
  ⟨ready_of _ _ _, faultFree_reset, spi_reset, show modeOf _ ≠ _ by decide, show modeOf _ = _ by decide,
    ready_of _ _ _, (fun c h => by cases h), ⟨rfl, by decide⟩, show modeOf _ ≠ _ by decide,
    ready_of _ _ _, (fun c h => by cases h), ⟨rfl, by decide⟩, show modeOf _ ≠ _ by decide,
    ready_of _ _ _, (fun c h => by cases h), rfl⟩

/-- The empty payload and the full array are within the lengths; the first byte of a payload exists. -/
theorem witness_SequentialWriteCompletes : State.reset.ready ∧ State.reset.faultFree ∧ State.reset.spi ∧ State.reset.sequential ∧
    ([] : List Byte).length ≤ arraySize ∧ [(0x41 : Byte)][0]? = some 0x41 ∧ (unplugged []).ready ∧ (unplugged []).faultFree ∧
    (unplugged []).env.plugged = false :=
  ⟨ready_of _ _ _, faultFree_reset, spi_reset, show modeOf _ = _ by decide, by decide, rfl, ready_of _ _ _,
    (fun c h => by cases h), rfl⟩

theorem witness_ReadByteCompletes : State.reset.ready ∧ State.reset.faultFree ∧ State.reset.spi ∧ State.reset.modeNamed ∧
    (unplugged [0x11]).ready ∧ (unplugged [0x11]).faultFree ∧ (unplugged [0x11]).env.plugged = false :=
  ⟨ready_of _ _ _, faultFree_reset, spi_reset, show modeOf _ ≠ _ by decide, ready_of _ _ _, (fun c h => by cases h), rfl⟩

theorem witness_SequentialReadCompletes : State.reset.ready ∧ State.reset.faultFree ∧ State.reset.spi ∧ State.reset.sequential ∧
    State.reset.modeNamed ∧ (unplugged []).ready ∧ (unplugged []).faultFree ∧ (unplugged []).env.plugged = false :=
  ⟨ready_of _ _ _, faultFree_reset, spi_reset, show modeOf _ = _ by decide, show modeOf _ ≠ _ by decide, ready_of _ _ _,
    (fun c h => by cases h), rfl⟩

/-- Cut before the first and before the last byte. -/
theorem witness_ShortWriteByteFails : (withCalls [.short 0]).ready ∧ callDraw (withCalls [.short 0]) = .short 0 ∧
    (withCalls [.short 4]).ready ∧ callDraw (withCalls [.short 4]) = .short 4 ∧ 4 < 5 ∧ (withCalls [.short 4]).spi ∧
    (withCalls [.short 4]).modeNamed :=
  ⟨ready_of _ _ _, rfl, ready_of _ _ _, rfl, by decide, ⟨rfl, by decide⟩, show modeOf _ ≠ _ by decide⟩

theorem witness_ShortSequentialWriteFails : (withCalls [.short 3]).ready ∧ callDraw (withCalls [.short 3]) = .short 3 ∧
    3 < 4 + ([] : List Byte).length ∧ (withCalls [.short 5]).ready ∧ callDraw (withCalls [.short 5]) = .short 5 ∧
    5 < 4 + [(0x41 : Byte), 0x42].length ∧ 4 + 0 < 5 ∧ (withCalls [.short 5]).spi ∧ (withCalls [.short 5]).sequential ∧
    [(0x41 : Byte), 0x42].length ≤ arraySize ∧
    (withStatusCalls 0x0014 [.short 5]).ready ∧ (withStatusCalls 0x0014 [.short 5]).spi ∧
    (withStatusCalls 0x0014 [.short 5]).modeNamed ∧ callDraw (withStatusCalls 0x0014 [.short 5]) = .short 5 ∧
    (withStatusCalls 0x8114 [.short 5]).ready ∧ (withStatusCalls 0x8114 [.short 5]).spi ∧
    (withStatusCalls 0x8114 [.short 5]).modeNamed ∧ callDraw (withStatusCalls 0x8114 [.short 5]) = .short 5 ∧
    (unpluggedCalls [.short 5]).ready ∧ callDraw (unpluggedCalls [.short 5]) = .short 5 ∧
    (unpluggedCalls [.short 5]).env.plugged = false :=
  ⟨ready_of _ _ _, rfl, by decide, ready_of _ _ _, rfl, by decide, by decide, ⟨rfl, by decide⟩, show modeOf _ = _ by decide,
    by decide, ready_of _ _ _, ⟨rfl, by decide⟩, show modeOf _ ≠ _ by decide, rfl, ready_of _ _ _, ⟨rfl, by decide⟩,
    show modeOf _ ≠ _ by decide, rfl, ready_of _ _ _, rfl, rfl⟩

theorem witness_ShortReadByteReturnsZero :
    (withCalls [.short 0]).ready ∧ ((withCalls [.short 0]).env.calls = .short 0 :: [] ∧ 0 < 4) ∧
    (withCalls [.short 3]).ready ∧ ((withCalls [.short 3]).env.calls = .short 3 :: [] ∧ 3 < 4) ∧
    (withCalls [.full, .short 0]).ready ∧ ((withCalls [.full, .short 0]).env.calls = .full :: .short 0 :: [] ∧ 4 = 4) ∧
    (withCalls [.full, .short 0]).spi ∧ (withCalls [.full, .short 0]).modeNamed :=
  ⟨ready_of _ _ _, ⟨rfl, by decide⟩, ready_of _ _ _, ⟨rfl, by decide⟩, ready_of _ _ _, ⟨rfl, rfl⟩, ⟨rfl, by decide⟩,
    show modeOf _ ≠ _ by decide⟩

theorem witness_ShortSequentialReadKeepsTail :
    (withCalls [.full, .short 0]).ready ∧ (withCalls [.full, .short 0]).env.calls = .full :: .short 0 :: [] ∧ 0 < 1 ∧
    (withCalls [.full, .short 2]).ready ∧ (withCalls [.full, .short 2]).env.calls = .full :: .short 2 :: [] ∧ 2 < 3 ∧
    (withCalls [.full, .short 2]).spi ∧ (withCalls [.full, .short 2]).modeNamed ∧ (withCalls [.full, .short 2]).sequential ∧
    (withCalls [.short 3]).ready ∧ (withCalls [.short 3]).env.calls = .short 3 :: [] ∧ 3 < 4 ∧ (withCalls [.short 3]).spi ∧
    (withCalls [.short 3]).modeNamed ∧ (withStatusCalls 0x8114 [.full, .short 2]).ready ∧
    (withStatusCalls 0x8114 [.full, .short 2]).spi ∧ (withStatusCalls 0x8114 [.full, .short 2]).modeNamed ∧
    (withStatusCalls 0x8114 [.full, .short 2]).env.calls = .full :: .short 2 :: [] ∧
    (unpluggedCalls [.full, .short 2]).ready ∧ (unpluggedCalls [.full, .short 2]).env.plugged = false ∧
    (unpluggedCalls [.full, .short 2]).env.calls = .full :: .short 2 :: [] :=
  ⟨ready_of _ _ _, rfl, by decide, ready_of _ _ _, rfl, by decide, ⟨rfl, by decide⟩, show modeOf _ ≠ _ by decide,
    show modeOf _ = _ by decide, ready_of _ _ _, rfl, by decide, ⟨rfl, by decide⟩, show modeOf _ ≠ _ by decide,
    ready_of _ _ _, ⟨rfl, by decide⟩, show modeOf _ ≠ _ by decide, rfl, ready_of _ _ _, rfl, rfl⟩

theorem witness_UnpluggedReadReturnsEnvironmentBytes : (unplugged [0, 0, 0, 0, 0x41, 0x42, 0x99]).ready ∧
    (unplugged [0, 0, 0, 0, 0x41, 0x42, 0x99]).faultFree ∧ (unplugged [0, 0, 0, 0, 0x41, 0x42, 0x99]).env.plugged = false ∧
    [(0 : Byte), 0, 0, 0].length = 4 ∧
    (unplugged [0, 0, 0, 0, 0x41, 0x42, 0x99]).env.miso = [0, 0, 0, 0] ++ [0x41, 0x42] ++ [0x99] :=
  ⟨ready_of _ _ _, (fun c h => by cases h), rfl, rfl, rfl⟩

theorem witness_GetStatusCompletes : State.reset.ready ∧ State.reset.faultFree ∧ State.reset.spi ∧ (unplugged []).ready ∧
    (unplugged []).faultFree ∧ (unplugged []).env.plugged = false :=
  ⟨ready_of _ _ _, faultFree_reset, spi_reset, ready_of _ _ _, (fun c h => by cases h), rfl⟩

theorem witness_ShortGetStatusFails : (withCalls [.short 0]).ready ∧ (withCalls [.short 0]).env.calls = .short 0 :: [] ∧
    (withCalls [.full, .short 0]).ready ∧ (withCalls [.full, .short 0]).env.calls = .full :: .short 0 :: [] ∧
    (withCalls [.full, .short 1]).ready ∧ (withCalls [.full, .short 1]).env.calls = .full :: .short 1 :: [] ∧
    (withCalls [.full, .short 1]).spi :=
  ⟨ready_of _ _ _, rfl, ready_of _ _ _, rfl, ready_of _ _ _, rfl, ⟨rfl, by decide⟩⟩

theorem witness_SetStatusCompletes : State.reset.ready ∧ State.reset.faultFree ∧ State.reset.spi ∧ (unplugged []).ready ∧
    (unplugged []).faultFree ∧ (unplugged []).env.plugged = false :=
  ⟨ready_of _ _ _, faultFree_reset, spi_reset, ready_of _ _ _, (fun c h => by cases h), rfl⟩

theorem witness_ShortSetStatusFails : (withCalls [.short 0]).ready ∧ callDraw (withCalls [.short 0]) = .short 0 ∧ 0 < 3 ∧
    (withCalls [.short 2]).ready ∧ callDraw (withCalls [.short 2]) = .short 2 ∧ 2 < 3 ∧ (withCalls [.short 2]).spi :=
  ⟨ready_of _ _ _, rfl, by decide, ready_of _ _ _, rfl, by decide, ⟨rfl, by decide⟩⟩

/-- The greatest valid argument of each of the four setters. -/
theorem witness_FieldSetterCompletes :
    isSetter .mode 0b010 (.setMode 0b010) ∧ (0b010 : BitVec 3).toNat < 2 ^ Field.mode.width ∧ (0b010 : BitVec 3) ≠ 0b011 ∧
    isSetter .pageSize 0b001 (.setPageSize 0b001) ∧ (0b001 : BitVec 3).toNat < 2 ^ Field.pageSize.width ∧
    isSetter .slew 0b011 (.setSlewRate 0b011) ∧ (0b011 : BitVec 3).toNat < 2 ^ Field.slew.width ∧
    isSetter .drive 0b111 (.setDriveStrength 0b111) ∧ (0b111 : BitVec 3).toNat < 2 ^ Field.drive.width ∧
    State.reset.ready ∧ State.reset.faultFree ∧ State.reset.spi ∧ (unplugged []).ready ∧ (unplugged []).faultFree ∧
    (unplugged []).env.plugged = false :=
  ⟨.inl ⟨rfl, rfl⟩, by decide, by decide, .inr (.inl ⟨rfl, rfl⟩), by decide, .inr (.inr (.inl ⟨rfl, rfl⟩)), by decide,
    .inr (.inr (.inr ⟨rfl, rfl⟩)), by decide, ready_of _ _ _, faultFree_reset, spi_reset, ready_of _ _ _,
    (fun c h => by cases h), rfl⟩

/-- The least invalid argument of each setter that has one. -/
theorem witness_FieldSetterRejectsInvalidArgument :
    isSetter .mode 0b011 (.setMode 0b011) ∧ argValid .mode 0b011 = false ∧ argValid .mode 0b100 = false ∧
    isSetter .pageSize 0b010 (.setPageSize 0b010) ∧ argValid .pageSize 0b010 = false ∧
    isSetter .slew 0b100 (.setSlewRate 0b100) ∧ argValid .slew 0b100 = false ∧ State.reset.ready :=
  ⟨.inl ⟨rfl, rfl⟩, by decide, by decide, .inr (.inl ⟨rfl, rfl⟩), by decide, .inr (.inr (.inl ⟨rfl, rfl⟩)), by decide,
    ready_of _ _ _⟩

/-- Each of the three cases, with the reference device and without a device. -/
theorem witness_FieldSetterFailedReadWritesNothing : isSetter .drive 0b111 (.setDriveStrength 0b111) ∧
    argValid .drive 0b111 = true ∧ isSetter .mode 0b010 (.setMode 0b010) ∧ argValid .mode 0b010 = true ∧
    (withCalls [.short 0]).ready ∧ (withCalls [.short 0]).env.calls = .short 0 :: [] ∧ (withCalls [.short 0]).spi ∧
    (withCalls [.full, .short 0]).ready ∧ (withCalls [.full, .short 0]).env.calls = .full :: .short 0 :: [] ∧
    (withCalls [.full, .short 0]).spi ∧
    (withCalls [.full, .short 1]).ready ∧ (withCalls [.full, .short 1]).env.calls = .full :: .short 1 :: [] ∧
    (withCalls [.full, .short 1]).spi ∧
    (unpluggedCalls [.short 0]).ready ∧ (unpluggedCalls [.full, .short 0]).ready ∧ (unpluggedCalls [.full, .short 1]).ready ∧
    (unpluggedCalls [.short 0]).env.plugged = false :=
  ⟨.inr (.inr (.inr ⟨rfl, rfl⟩)), by decide, .inl ⟨rfl, rfl⟩, by decide, ready_of _ _ _, rfl, ⟨rfl, by decide⟩,
    ready_of _ _ _, rfl, ⟨rfl, by decide⟩, ready_of _ _ _, rfl, ⟨rfl, by decide⟩, ready_of _ _ _, ready_of _ _ _,
    ready_of _ _ _, rfl⟩

theorem witness_FieldSetterFailedWriteReported : isSetter .drive 0b111 (.setDriveStrength 0b111) ∧
    argValid .drive 0b111 = true ∧ (withCalls [.full, .full, .short 2]).ready ∧
    (withCalls [.full, .full, .short 2]).env.calls = .full :: .full :: .short 2 :: [] ∧ 2 < 3 ∧
    (withCalls [.full, .full, .short 2]).spi :=
  ⟨.inr (.inr (.inr ⟨rfl, rfl⟩)), by decide, ready_of _ _ _, rfl, by decide, ⟨rfl, by decide⟩⟩

theorem witness_FieldSetterIsolation : isSetter .slew 0b011 (.setSlewRate 0b011) ∧ argValid .slew 0b011 = true ∧
    (withStatus 0xA5A5).ready ∧ (withStatus 0xA5A5).faultFree ∧ (withStatus 0xA5A5).spi :=
  ⟨.inr (.inr (.inl ⟨rfl, rfl⟩)), by decide, ready_of _ _ _, (fun c h => by cases h), ⟨rfl, by decide⟩⟩

theorem witness_DecodeStatusCompletes : State.reset.busy = false ∧ State.reset.stalled = false := ⟨rfl, rfl⟩

theorem witness_ReservedSelectorsAreRejected : 0xB ≤ (0xB : BitVec 4).toNat ∧ 0xB ≤ (0xF : BitVec 4).toNat ∧
    decode (.host Cmd.zero) = .instr (.writeByte 0 0) ∧ State.reset.ready :=
  ⟨by decide, by decide, by decide, ready_of _ _ _⟩

theorem witness_WriteFrameCompletes : State.reset.ready ∧ State.reset.faultFree ∧ State.reset.spi ∧ State.reset.modeNamed ∧
    State.reset.sequential ∧ [(0x42 : Byte)].length ≤ 1 ∧ (unplugged []).ready ∧ (unplugged []).faultFree ∧
    (unplugged []).env.plugged = false :=
  ⟨ready_of _ _ _, faultFree_reset, spi_reset, show modeOf _ ≠ _ by decide, show modeOf _ = _ by decide, by decide,
    ready_of _ _ _, (fun c h => by cases h), rfl⟩

theorem witness_ReadFrameCompletes : State.reset.ready ∧ State.reset.faultFree ∧ State.reset.spi ∧ State.reset.modeNamed ∧
    State.reset.sequential ∧ (unplugged []).ready ∧ (unplugged []).faultFree ∧ (unplugged []).env.plugged = false :=
  ⟨ready_of _ _ _, faultFree_reset, spi_reset, show modeOf _ ≠ _ by decide, show modeOf _ = _ by decide,
    ready_of _ _ _, (fun c h => by cases h), rfl⟩

theorem witness_StatusFramesComplete : State.reset.ready ∧ State.reset.faultFree ∧ State.reset.spi :=
  ⟨ready_of _ _ _, faultFree_reset, spi_reset⟩

/-- The operations run to their end, fall short, and hang. -/
theorem witness_OneByteOperationsShareTheirFrame : State.reset.ready ∧ (withCalls [.short 2]).ready ∧
    (withCalls [.stall 2 3]).ready := ⟨ready_of _ _ _, ready_of _ _ _, ready_of _ _ _⟩

theorem witness_RoundTripReturnsPayload : State.reset.ready ∧ State.reset.faultFree ∧ State.reset.spi ∧ State.reset.sequential ∧
    [(0x41 : Byte), 0x42].length ≤ arraySize :=
  ⟨ready_of _ _ _, faultFree_reset, spi_reset, show modeOf _ = _ by decide, by decide⟩

theorem witness_StepRunsTheDecodedInstruction :
    (State.reset.withFetchWord 4 0x4).inputs = .request (.host { Cmd.zero with op := 0x4 }) :: [] ∧
    (State.reset.withFetchWord 4 0x4).heldOff = false ∧ decode (.host { Cmd.zero with op := 0x4 }) = .instr .getStatus :=
  ⟨rfl, rfl, by decide⟩

theorem witness_HostBufferAndIdleStep : ({ State.reset with inputs := [.buffer [0xEE]] } : State).inputs = .buffer [0xEE] :: [] ∧
    ({ State.reset with inputs := [.buffer [0xEE]] } : State).heldOff = false ∧ State.reset.inputs = [] := ⟨rfl, rfl, rfl⟩

/-- A hung state meets the invariant, and takes a step. -/
theorem witness_StepKeepsInvariant_hung : hung.Inv ∧ ∃ t, step hung = .next t := by
  refine ⟨?_, _, rfl⟩
  constructor
  · rfl
  · decide
  · decide
  · rfl
  · exact fun _ => rfl
  · intro h; cases h
  · rfl
  · exact ⟨.inFrame, by decide, by decide⟩
  · rintro (h | h) <;> cases h
  · decide

/-- An idle state after a session, with a request waiting, meets the invariant, and takes a step. -/
theorem witness_StepKeepsInvariant_idle :
    ({ withMem [(5, 0x11)] with trace := [.sel, .x 0x05 0x00, .desel], inputs := [.reset] } : State).Inv ∧
    ∃ t, step { withMem [(5, 0x11)] with trace := [.sel, .x 0x05 0x00, .desel], inputs := [.reset] } = .next t := by
  refine ⟨?_, _, rfl⟩
  constructor
  · decide
  · decide
  · decide
  · rfl
  · intro h; cases h
  · exact fun _ => ⟨rfl, rfl⟩
  · rfl
  · exact ⟨.between, by decide, by decide⟩
  · exact fun _ => rfl
  · decide

theorem witness_NothingCarriesOverBetweenOperations : isHostOp .getStatus = true ∧ isFrame .readStatus = true ∧
    State.reset.ready ∧ afterOther.ready ∧ afterOther.dev = State.reset.dev ∧ afterOther.env = State.reset.env ∧
    afterOther.draws = State.reset.draws ∧ afterOther.res ≠ State.reset.res ∧ afterOther.trace ≠ State.reset.trace :=
  ⟨rfl, rfl, ⟨rfl, rfl, rfl⟩, ⟨rfl, rfl, rfl⟩, rfl, rfl, rfl, by decide, by decide⟩

/-- Ready states that differ, with a request waiting, and hung ones, with a reset waiting; each takes a step. -/
theorem witness_StepKeepsAgreement :
    Agree (State.reset.withFetchWord 4 0x4) (afterOther.withFetchWord 4 0x4) ∧
    (∃ s', step (State.reset.withFetchWord 4 0x4) = .next s') ∧
    Agree { hung with inputs := [.reset] } { hung with inputs := [.reset], res := afterOther.res, trace := [.sel] } ∧
    (∃ s', step { hung with inputs := [.reset] } = .next s') :=
  ⟨⟨rfl, rfl, rfl, rfl, rfl, rfl, rfl, rfl, rfl⟩, ⟨_, rfl⟩, ⟨rfl, rfl, rfl, rfl, rfl, rfl, rfl, rfl, rfl⟩, ⟨_, rfl⟩⟩

theorem witness_EveryOperationEndsOrHangs : isHostOp (.setMode 0b010) = true ∧ isFrame (.read 0 2) = true ∧
    (withCalls [.full, .full, .stall 2 7]).ready ∧ (withCalls [.full, .full, .stall 2 7]).csN = true :=
  ⟨rfl, rfl, ready_of _ _ _, rfl⟩

theorem witness_ExchangesAreBounded : isHostOp (.setMode 0b010) = true ∧ isFrame (.read 0 2) = true ∧
    (withCalls [.full, .short 1]).ready := ⟨rfl, rfl, ready_of _ _ _⟩

theorem witness_ClockCyclesOfOperations : isHostOp (.setMode 0b010) = true ∧ isFrame (.read 0 2) = true ∧
    (∀ f arg, isSetter f arg (.setMode 0b010) → argValid f arg = true) ∧
    (∀ f arg, isSetter f arg (.read 0 2) → argValid f arg = true) ∧ State.reset.ready ∧ State.reset.faultFree := by
  refine ⟨rfl, rfl, ?_, ?_, ready_of _ _ _, faultFree_reset⟩
  · rintro f arg (⟨rfl, h⟩ | ⟨_, h⟩ | ⟨_, h⟩ | ⟨_, h⟩) <;> cases h
    decide
  · rintro f arg (⟨_, h⟩ | ⟨_, h⟩ | ⟨_, h⟩ | ⟨_, h⟩) <;> cases h

theorem witness_OnlyStatusWritesChangeProtocol : isHostOp (.setMode 0b010) = true ∧ (∀ v, Instr.setMode 0b010 ≠ .setStatus v) ∧
    (∀ v, Instr.setMode 0b010 ≠ .writeStatus v) ∧ State.reset.ready ∧ State.reset.faultFree ∧ State.reset.spi ∧
    ∃ t, exec (.setMode 0b010) State.reset = .next t :=
  ⟨rfl, (fun v h => by cases h), (fun v h => by cases h), ready_of _ _ _, faultFree_reset, spi_reset, _, rfl⟩

theorem witness_PssResetAbandonsOperation : ({ hung with inputs := [.reset] } : State).inputs = .reset :: [] ∧
    ({ State.reset with inputs := [.reset] } : State).ses = .idle := ⟨rfl, rfl⟩

/-- Hung in a WRITE, in the header of a READ, and in a WRITE_STATUS. -/
theorem witness_PssResetSparesOtherLocations : ({ hung with inputs := [.reset] } : State).inputs = .reset :: [] ∧
    (hung.ses = .selected ∧ hung.spi ∧ hung.modeNamed ∧ hung.sequential ∧ hung.dev.frm ≠ .lost ∧
      hung.dev.frm ≠ .reservedMode ∧ hung.dev.frm ≠ .noFrame ∧
      hung.work.frame = [(0x02 : Byte), addrHigh 0x001337, addrMid 0x001337, addrLow 0x001337] ++ [0x42]) ∧
    (hungRead.ses = .selected ∧ hungRead.spi ∧ hungRead.modeNamed ∧ hungRead.dev.frm ≠ .lost ∧
      hungRead.dev.frm ≠ .reservedMode ∧ hungRead.dev.frm ≠ .noFrame ∧
      hungRead.work.frame = [(0x03 : Byte), addrHigh 0x10, addrMid 0x10, addrLow 0x10] ++ [Config.fill, Config.fill]) ∧
    (hungStatus.ses = .selected ∧ hungStatus.spi ∧ hungStatus.dev.frm ≠ .lost ∧ hungStatus.dev.frm ≠ .reservedMode ∧
      hungStatus.dev.frm ≠ .noFrame ∧ hungStatus.work.frame = [0x01, 0x81, 0x14]) :=
  ⟨rfl, ⟨rfl, ⟨rfl, by decide⟩, show modeOf _ ≠ _ by decide, show modeOf _ = _ by decide, by decide, by decide, by decide,
      rfl⟩,
    ⟨rfl, ⟨rfl, by decide⟩, show modeOf _ ≠ _ by decide, by decide, by decide, by decide, rfl⟩,
    ⟨rfl, ⟨rfl, by decide⟩, by decide, by decide, by decide, rfl⟩⟩

theorem witness_ChipPowerUpRestoresDefault : ({ hung with inputs := [.powerUp] } : State).inputs = .powerUp :: [] := rfl

end Sys2Proof.Tests
end

section
/-!
PROOFS. The splits of the address and the status value, and the fields of the Status Register bit by bit (30_encoding R81,
R83 to R85).
-/

namespace Sys2Proof

/-! ## The address split (R81) -/

theorem addrHigh_toNat (a : Address) : (addrHigh a).toNat = a.toNat / 65536 := by
  have h := a.isLt
  have htop : (0 : BitVec 2).toNat <<< 6 = 0 := rfl
  rw [addrHigh, BitVec.toNat_append, htop, Nat.zero_or, BitVec.extractLsb'_toNat, Nat.shiftRight_eq_div_pow]
  omega

theorem addrMid_toNat (a : Address) : (addrMid a).toNat = a.toNat / 256 % 256 := by
  simp [addrMid, BitVec.extractLsb'_toNat, Nat.shiftRight_eq_div_pow]

theorem addrLow_toNat (a : Address) : (addrLow a).toNat = a.toNat % 256 := by
  simp [addrLow, BitVec.extractLsb'_toNat]

theorem addrHigh_lt (a : Address) : (addrHigh a).toNat < 64 := by
  have h := a.isLt
  rw [addrHigh_toNat]
  omega

/-- The three address bytes, most significant first, are the address. -/
theorem addr_bytes_sum (a : Address) :
    (addrHigh a).toNat * 65536 + (addrMid a).toNat * 256 + (addrLow a).toNat = a.toNat := by
  rw [addrHigh_toNat, addrMid_toNat, addrLow_toNat]
  omega

theorem zext_byte_toNat (a : Address) (start : Nat) :
    ((a.setWidth 24).extractLsb' start 8).toNat = a.toNat / 2 ^ start % 256 := by
  have h : a.toNat % 2 ^ 24 = a.toNat := Nat.mod_eq_of_lt (by omega)
  rw [BitVec.extractLsb'_toNat, BitVec.toNat_setWidth, h, Nat.shiftRight_eq_div_pow]

theorem addrHigh_eq_zext (a : Address) : addrHigh a = (a.setWidth 24).extractLsb' 16 8 := by
  apply BitVec.eq_of_toNat_eq
  rw [addrHigh_toNat, zext_byte_toNat]
  omega

theorem addrMid_eq_zext (a : Address) : addrMid a = (a.setWidth 24).extractLsb' 8 8 := by
  apply BitVec.eq_of_toNat_eq
  exact (addrMid_toNat a).trans (zext_byte_toNat a 8).symm

theorem addrLow_eq_zext (a : Address) : addrLow a = (a.setWidth 24).extractLsb' 0 8 := by
  apply BitVec.eq_of_toNat_eq
  rw [addrLow_toNat, zext_byte_toNat, pow_zero, Nat.div_one]

/-! ## The status value (R83) -/

theorem joinStatus_eq_shiftLeft_or (r0 r1 : Byte) :
    joinStatus r0 r1 = (r0.setWidth 16 <<< 8) ||| r1.setWidth 16 := by
  rw [← BitVec.setWidth_append_eq_shiftLeft_setWidth_or, BitVec.setWidth_eq, joinStatus]

end Sys2Proof

namespace Sys2Proof.Machine

/-! ## The fields bit by bit (R22, R84, R85) -/

theorem Field.shift_add_width_le (f : Field) : f.shift + f.width ≤ 16 := by
  cases f <;> decide

/-- A mask is as many ones as the field is wide, shifted to the field's place (R22). -/
theorem Field.mask_eq_ones_shifted (f : Field) : f.mask = (BitVec.allOnes f.width).setWidth 16 <<< f.shift := by
  cases f <;> rfl

/-- The bits of a mask are those from the field's shift on, as many as the field is wide (R22). -/
theorem Field.mask_getLsbD (f : Field) (i : Nat) : f.mask.getLsbD i = decide (f.shift ≤ i ∧ i < f.shift + f.width) := by
  have h := f.shift_add_width_le
  rw [f.mask_eq_ones_shifted, BitVec.getLsbD_shiftLeft, BitVec.getLsbD_setWidth, BitVec.getLsbD_allOnes,
    Bool.eq_iff_iff]
  simp only [Bool.and_eq_true, Bool.not_eq_true', decide_eq_true_eq, decide_eq_false_iff_not]
  omega

theorem Field.bounds_of_mem_mask {f : Field} {i : Nat} (h : f.mask.getLsbD i = true) :
    f.shift ≤ i ∧ i < f.shift + f.width := by
  rwa [Field.mask_getLsbD, decide_eq_true_iff] at h

/-- The masks of two different fields have no bit in common (R22). -/
theorem Field.masks_disjoint {f g : Field} (h : f ≠ g) : f.mask &&& g.mask = 0 := by
  revert h
  cases f <;> cases g <;> decide

theorem Field.not_mem_both_masks {f g : Field} (h : f ≠ g) (i : Nat) :
    (f.mask.getLsbD i && g.mask.getLsbD i) = false := by
  rw [← BitVec.getLsbD_and, Field.masks_disjoint h]
  exact BitVec.getLsbD_zero

theorem extractField_getLsbD (f : Field) (S : StatusWord) (i : Nat) :
    (extractField f S).getLsbD i = (decide (i < f.width) && S.getLsbD (f.shift + i)) := by
  simp [extractField, BitVec.getLsbD_ushiftRight, Field.mask_getLsbD, Bool.and_comm]

/-- Extract is the slice of the field's width at its shift. -/
theorem extractField_eq_slice (f : Field) (S : StatusWord) :
    extractField f S = (S.extractLsb' f.shift f.width).setWidth 16 := by
  apply BitVec.eq_of_getLsbD_eq
  intro i hi
  rw [extractField_getLsbD, BitVec.getLsbD_setWidth, BitVec.getLsbD_extractLsb']
  simp [hi]

/-- Insert takes the bits under the mask from the value and the others from the old status value. -/
theorem insertField_getLsbD (f : Field) (S v : StatusWord) (i : Nat) :
    (insertField f S v).getLsbD i = if f.mask.getLsbD i then v.getLsbD (i - f.shift) else S.getLsbD i := by
  have hw := f.shift_add_width_le
  simp only [insertField, BitVec.getLsbD_or, BitVec.getLsbD_and, BitVec.getLsbD_not, BitVec.getLsbD_shiftLeft]
  cases hm : f.mask.getLsbD i
  case true =>
    obtain ⟨hlo, hhi⟩ := Field.bounds_of_mem_mask hm
    have hlt : i < 16 := by omega
    simp [hlo, hlt]
  case false => simpa using BitVec.lt_of_getLsbD

/-- The isolation law: no bit outside the mask changes. -/
theorem insertField_outside (f : Field) (S v : StatusWord) : insertField f S v &&& ~~~f.mask = S &&& ~~~f.mask := by
  apply BitVec.eq_of_getLsbD_eq
  intro i _
  simp only [BitVec.getLsbD_and, BitVec.getLsbD_not, insertField_getLsbD]
  cases f.mask.getLsbD i <;> simp

theorem insertField_extractField (f : Field) (S : StatusWord) : insertField f S (extractField f S) = S := by
  apply BitVec.eq_of_getLsbD_eq
  intro i _
  rw [insertField_getLsbD, extractField_getLsbD]
  split
  next hm =>
    obtain ⟨hlo, hhi⟩ := Field.bounds_of_mem_mask hm
    have hlt : i - f.shift < f.width := by omega
    simp [hlt, Nat.add_sub_cancel' hlo]
  next => rfl

theorem extractField_insertField {f : Field} {v : StatusWord} (S : StatusWord) (hv : v.toNat < 2 ^ f.width) :
    extractField f (insertField f S v) = v := by
  have hhigh : ∀ i, f.width ≤ i → v.getLsbD i = false := fun i hi => by
    rw [← BitVec.testBit_toNat]
    exact Nat.testBit_lt_two_pow (hv.trans_le (Nat.pow_le_pow_right (by decide) hi))
  apply BitVec.eq_of_getLsbD_eq
  intro i _
  rw [extractField_getLsbD, insertField_getLsbD]
  by_cases hi : i < f.width
  · simp [hi, Field.mask_getLsbD]
  · simp [hi, hhigh i (by omega)]

theorem insertField_comm {f g : Field} (h : f ≠ g) (S v w : StatusWord) :
    insertField g (insertField f S v) w = insertField f (insertField g S w) v := by
  apply BitVec.eq_of_getLsbD_eq
  intro i _
  simp only [insertField_getLsbD]
  cases hf : f.mask.getLsbD i
  case true =>
    have hg : g.mask.getLsbD i = false := by simpa only [hf, Bool.true_and] using Field.not_mem_both_masks h i
    simp [hg]
  case false => simp

/-! ## The obligations -/

/-- Settles O8, each law by the bits of Insert and of Extract. -/
theorem fieldInsertLaws : Obligations.FieldInsertLaws :=
  ⟨fun f S v => ⟨rfl, insertField_outside f S v, insertField_extractField f S, extractField_insertField S⟩,
    fun _ _ S v w h => insertField_comm h S v w, rfl, rfl⟩

/-- Settles O1: the three bytes are the quotients and remainders of the address by 65536 and 256. -/
theorem addressSplitBigEndian : Obligations.AddressSplitBigEndian :=
  ⟨fun A => ⟨rfl, rfl, rfl, addrHigh_eq_zext A, addrMid_eq_zext A, addrLow_eq_zext A, addrHigh_lt A, addr_bytes_sum A⟩,
    rfl, rfl, rfl, rfl⟩

/-- Settles O2, by the split and join of the status value. -/
theorem statusSplitHighByteFirst : Obligations.StatusSplitHighByteFirst :=
  ⟨fun S => ⟨rfl, rfl, rfl, joinStatus_split S⟩, joinStatus_eq_shiftLeft_or, rfl, rfl⟩

/-- Settles O7: each slice is the one law about Extract at that field. -/
theorem fieldExtractIsSlice : Obligations.FieldExtractIsSlice := fun S =>
  ⟨fun _ => rfl, extractField_eq_slice .mode S, extractField_eq_slice .ecs S, extractField_eq_slice .protocol S,
    extractField_eq_slice .pageSize S, extractField_eq_slice .slew S, extractField_eq_slice .drive S⟩

end Sys2Proof.Machine
end

section
/-!
PROOFS. The Transport primitive Select (40_transport R100).
-/

namespace Sys2Proof.Machine

/-! ## Select -/

/-- The start of a frame moves only the frame position and the fetched byte (R57). -/
theorem sameChip_startFrame (d : Dev) : SameChip d d.startFrame := ⟨rfl, fun _ => rfl⟩

/-- A chip that is not plugged in takes no part in the act, and so keeps its register and array as well (R56). -/
theorem sameChip_onDevice {s : State} {f : Dev → Dev} (h : SameChip s.dev (f s.dev)) : SameChip s.dev (onDevice f s) := by
  cases hp : s.env.plugged
  case true => rwa [onDevice_plugged hp]
  case false => rw [onDevice_unplugged hp]; exact ⟨rfl, fun _ => rfl⟩

theorem exec_select_of_idle {s : State} (hst : s.stalled = false) (hidle : s.ses = .idle) :
    exec .select s = .next (select s) := by
  simp [exec, execSelect, hst, hidle]

/-! ## The obligations -/

/-- Settles O12: outside a session Select is the update `select`, field by field; the chip starts a frame. -/
theorem selectOpensSession : Obligations.SelectOpensSession := fun s hst hidle =>
  ⟨select s, exec_select_of_idle hst hidle, select_csN s, select_ses s, select_trace s, select_lines s, select_busy s,
    select_stalled s, select_cmd s, select_res s, select_seq s, select_env s, select_inputs s,
    sameChip_onDevice (sameChip_startFrame s.dev)⟩

end Sys2Proof.Machine
end

section
/-!
PROOFS. The Status Register operations that end without a bus session (42_status_ops): the rejected field setter (R149) and
decode_status (R160, R161).
-/

namespace Sys2Proof.Machine

/-! ## The arguments a setter takes (R149) -/

/-- The two-bit MODE takes every value but 11 (R91). -/
theorem argValid_mode_iff (arg : BitVec 3) :
    argValid .mode arg = true ↔ arg.getLsbD 2 = false ∧ arg.extractLsb' 0 2 ∈ [(0b00 : BitVec 2), 0b01, 0b10] := by
  revert arg; decide

theorem argValid_pageSize_iff (arg : BitVec 3) : argValid .pageSize arg = true ↔ arg.extractLsb' 1 2 = 0b00 := by
  revert arg; decide

theorem argValid_slew_iff (arg : BitVec 3) : argValid .slew arg = true ↔ arg.getLsbD 2 = false := by
  revert arg; decide

/-- DRIVE is as wide as the argument, and all its values are in its enumeration. -/
theorem argValid_drive (arg : BitVec 3) : argValid .drive arg = true := by
  revert arg; decide

/-! ## The rejection -/

/-- The four setters are the template at their own selector and field (R151 to R154). -/
theorem exec_of_isSetter {f : Field} {arg : BitVec 3} {i : Instr} (hi : isSetter f arg i) (s : State) :
    exec i s = setter (setterOp f) f arg s := by
  rcases hi with ⟨rfl, rfl⟩ | ⟨rfl, rfl⟩ | ⟨rfl, rfl⟩ | ⟨rfl, rfl⟩ <;> rfl

/-- A setter with an invalid argument comes to the rejection, before any session (R149). -/
theorem setter_of_invalid {f : Field} {arg : BitVec 3} (ha : argValid f arg = false) (op : BitVec 4) {s : State}
    (hb : s.busy = false) (hs : s.stalled = false) :
    setter op f arg s = .next (reject (accept (fun c => { c with op := op, arg := arg }) s)) := by
  simp [setter, ha, offBus_idle hb hs]

/-- With no session open the rejection writes the result registers and ends the operation, no more (R186). -/
theorem reject_idle {s : State} (hs : s.stalled = false) (hi : s.ses = .idle) :
    reject s = finish { s with res := { s.res with ok := false, err := .invalidArgument, count := 0 } } := by
  rw [reject, enter_live hs, putRes_live (by exact hs), raise_idle (by exact hi)]
  rfl

/-! ## decode_status (R160) -/

/-- decode_status with no operation running writes RES.fields and completes (R160). -/
theorem exec_decodeStatus_idle (S : StatusWord) {s : State} (hb : s.busy = false) (hs : s.stalled = false) :
    exec (.decodeStatus S) s = .next (complete { accept (fun c => { c with op := 0xA, val16 := S }) s with
      res := { s.res with fields := fieldsOf S }
      seq := ⟨.done, 0, 7⟩ }) := by
  rw [exec, execDecodeStatus, offBus_idle hb hs, putRes_live (by exact hs), accept_res]

/-- The fields decode_status reports are slices of the status value, by the law about Extract (R160). -/
theorem fieldsOf_eq_slices (S : StatusWord) :
    fieldsOf S = ⟨S.extractLsb' 14 2, S.extractLsb' 13 1, S.extractLsb' 11 2, S.extractLsb' 8 1, S.extractLsb' 3 2,
      S.extractLsb' 0 3⟩ := by
  simp [fieldsOf, extractField_eq_slice, Field.shift, Field.width]

/-- The six codes of the register's default (R161). -/
theorem fieldsOf_default : fieldsOf 0x4014 = ⟨0b01, 0, 0b00, 0, 0b10, 0b100⟩ := by
  rw [fieldsOf_eq_slices]
  rfl

/-! ## The obligations -/

/-- Settles O34: the valid arguments field by field; any other is rejected from the accepted, still idle state. -/
theorem fieldSetterRejectsInvalidArgument : Obligations.FieldSetterRejectsInvalidArgument := by
  refine ⟨fun arg => ⟨argValid_mode_iff arg, argValid_pageSize_iff arg, argValid_slew_iff arg, argValid_drive arg⟩, ?_⟩
  intro f arg i s hi ha hready
  obtain ⟨hb, hs, hidle⟩ := hready
  refine ⟨_, (exec_of_isSetter hi s).trans (setter_of_invalid ha _ hb hs), ?_⟩
  rw [reject_idle (by exact hs) (by exact hidle)]
  exact ⟨rfl, hs, rfl, rfl, rfl, rfl, rfl, rfl, rfl, rfl, rfl, rfl⟩

/-- Settles O38: decode_status ends in one known state, whose fields are the six slices of the operand. -/
theorem decodeStatusCompletes : Obligations.DecodeStatusCompletes := by
  intro S s hb hs
  refine ⟨_, exec_decodeStatus_idle S hb hs, ?_, rfl, rfl, hs, rfl, rfl, rfl, rfl, rfl, rfl, rfl, rfl⟩
  rw [complete_res, fieldsOf_eq_slices]
  rfl

/-- Settles O39: each label is read off the decoded code. -/
theorem defaultStatusDecodes : Obligations.DefaultStatusDecodes := by
  unfold Obligations.DefaultStatusDecodes
  rw [fieldsOf_default]
  exact ⟨rfl, rfl, rfl, rfl, rfl, rfl, rfl⟩

end Sys2Proof.Machine
end

section
/-!
PROOFS. Requests: what the decoder makes of them (30_encoding), and what a step does with one it takes, refuses or holds off
(10_state R13, R36).
-/

namespace Sys2Proof

/-! ## The decoder, shape by shape (R70, R74 to R77, R170) -/

/-- The address operand comes back from the three bytes it was split into (R81). -/
theorem decodeAddress_split (a : Address) (k : Address → Instr) :
    decodeAddress (addrHigh a) (addrMid a) (addrLow a) k = .instr (k a) := by
  simp [decodeAddress]

theorem decodeAddress_topBits {ah : Byte} (h : 64 ≤ ah.toNat) (am al : Byte) (k : Address → Instr) :
    decodeAddress ah am al k = .bad (.addressTopBits ah) := by
  have htop : ah.extractLsb' 6 2 ≠ 0 := fun h0 => by
    have := congrArg BitVec.toNat h0
    rw [BitVec.extractLsb'_toNat, Nat.shiftRight_eq_div_pow] at this
    have hlt := ah.isLt
    simp at this
    omega
  rw [decodeAddress, if_neg htop]

/-- A WRITE or READ frame without three address bytes has no shape (R74, R75). -/
theorem decodeFrame_shortAddress {c : Byte} {rest : List Byte} (hc : c = codeWrite ∨ c = codeRead)
    (hl : rest.length < 3) : decodeFrame (c :: rest) = .bad (.frameShape c) := by
  match rest, hl with
  | [], _ | [_], _ | [_, _], _ => rcases hc with rfl | rfl <;> rfl

/-- A status frame without exactly two bytes after its code has no shape (R76, R77). -/
theorem decodeFrame_statusLength {c : Byte} {rest : List Byte} (hc : c = codeWriteStatus ∨ c = codeReadStatus)
    (hl : rest.length ≠ 2) : decodeFrame (c :: rest) = .bad (.frameShape c) := by
  match rest, hl with
  | [], _ | [_], _ | _ :: _ :: _ :: _, _ => rcases hc with rfl | rfl <;> rfl

/-- An unimplemented code with anything after it has no shape (R170). -/
theorem decodeFrame_unimplementedTail {c : Byte} {rest : List Byte}
    (hc : c ∈ [codeFastRead, codeEnterDualIo, codeEnterQuadIo, codeResetIo]) (hr : rest ≠ []) :
    decodeFrame (c :: rest) = .bad (.frameShape c) := by
  obtain ⟨o, os, rfl⟩ := List.exists_cons_of_ne_nil hr
  simp only [List.mem_cons, List.not_mem_nil, or_false] at hc
  rcases hc with rfl | rfl | rfl | rfl <;> rfl

theorem decodeFrame_unknownCode {c : Byte} (rest : List Byte)
    (hc : c ∉ [codeWriteStatus, codeWrite, codeRead, codeReadStatus, codeFastRead, codeEnterQuadIo, codeEnterDualIo,
      codeResetIo]) : decodeFrame (c :: rest) = .bad (.unknownCode c) := by
  simp only [List.mem_cons, List.not_mem_nil, or_false, not_or] at hc
  simp [decodeFrame, hc]

theorem decodeHost_payloadLength {c : Cmd} (hop : c.op = 0x1) (hl : c.wdata.length ≠ c.len) :
    decodeHost c = .bad (.payloadLength c.len) := by
  simp [decodeHost, hop, hl]

/-- The two bits that tell the selectors 0xC to 0xF apart come back from the selector (R89). -/
theorem decodeHost_reservedCToF (low : BitVec 2) :
    decodeHost { Cmd.zero with op := (0b11 : BitVec 2) ++ low } = .instr (.reservedOpCToF low) := by
  revert low; decide

/-- A selector from 0xB on is a reserved one (R89). -/
theorem decodeHost_reserved {c : Cmd} (h : 0xB ≤ c.op.toNat) :
    decodeHost c = .instr .reservedOpB ∨ decodeHost c = .instr (.reservedOpCToF (c.op.extractLsb' 0 2)) := by
  have hlt := c.op.isLt
  unfold decodeHost
  split
  case h_12 => exact .inl rfl
  case h_13 => exact .inr rfl
  all_goals omega

/-- No selector reaches a bare frame, an unimplemented code or a primitive (R89). -/
theorem isHostOp_of_decodeHost {c : Cmd} {i : Instr} (h : decodeHost c = .instr i) : Machine.isHostOp i = true := by
  unfold decodeHost at h
  split at h
  case h_2 => split at h <;> cases h; rfl
  all_goals cases h; rfl

/-! ## The obligations on codes -/

/-- Settles O4: the operands come back from their splits; every other part of the frame or tuple is read as it was put. -/
theorem decodeOfEncodeIsIdentity : Obligations.DecodeOfEncodeIsIdentity := by
  intro i hi
  cases i with
  | write a data => exact ⟨_, rfl, decodeAddress_split a fun a => .write a data⟩
  | read a n =>
    refine ⟨_, rfl, (decodeAddress_split a fun a => .read a _).trans ?_⟩
    exact congrArg (fun k => Decoded.instr (.read a k)) (List.length_replicate ..)
  | writeStatus v => exact ⟨_, rfl, congrArg (fun x => Decoded.instr (.writeStatus x)) (joinStatus_split v)⟩
  | sequentialWrite a data => exact ⟨_, rfl, if_pos rfl⟩
  | reservedOpCToF low => exact ⟨_, rfl, decodeHost_reservedCToF low⟩
  | select | deselect | transfer | receive => cases hi
  | _ => exact ⟨_, rfl, rfl⟩

/-- Settles O3: each word is decoded by evaluation. -/
theorem spelledWordsDecode : Obligations.SpelledWordsDecode := by
  unfold Obligations.SpelledWordsDecode
  decide

/-- Settles O5: the byte differs from each of the eight codes the decoder compares it with. -/
theorem otherFirstBytesAreNoInstruction : Obligations.OtherFirstBytesAreNoInstruction :=
  fun _ rest hc => decodeFrame_unknownCode rest hc

end Sys2Proof

namespace Sys2Proof.Machine

/-! ## What a step does with its oldest input -/

theorem step_request {s : State} {c : Code} {rest : List Input} (hin : s.inputs = .request c :: rest)
    (hidle : s.heldOff = false) {i : Instr} (hc : decode c = .instr i) : step s = exec i (dropInput s) := by
  simp [step, hin, hidle, hc]

theorem step_undecodable {s : State} {c : Code} {rest : List Input} (hin : s.inputs = .request c :: rest)
    (hidle : s.heldOff = false) {e : DecodeError} (hc : decode c = .bad e) : step s = .refused (.undecodable e) := by
  simp [step, hin, hidle, hc]

theorem step_buffer {s : State} {bytes : List Byte} {rest : List Input} (hin : s.inputs = .buffer bytes :: rest)
    (hidle : s.heldOff = false) : step s = .next (loadBuffer bytes (dropInput s)) := by
  simp [step, hin, hidle]

theorem step_noInput {s : State} (hin : s.inputs = []) : step s = .next s := by
  simp [step, hin]

theorem step_reset {s : State} {rest : List Input} (hin : s.inputs = .reset :: rest) :
    step s = .next (pssReset (dropInput s)) := by
  simp [step, hin]

theorem step_powerUp {s : State} {rest : List Input} (hin : s.inputs = .powerUp :: rest) :
    step s = .next (powerUp (dropInput s)) := by
  simp [step, hin]

/-- A request that comes while an operation runs is held off (R13). -/
theorem step_request_heldOff {s : State} {c : Code} {rest : List Input} (hin : s.inputs = .request c :: rest)
    (hbusy : s.heldOff = true) : step s = .next s := by
  simp [step, hin, hbusy]

theorem step_buffer_heldOff {s : State} {bytes : List Byte} {rest : List Input} (hin : s.inputs = .buffer bytes :: rest)
    (hbusy : s.heldOff = true) : step s = .next s := by
  simp [step, hin, hbusy]

theorem dropInput_eq {s : State} {x : Input} {rest : List Input} (hin : s.inputs = x :: rest) :
    dropInput s = { s with inputs := rest } := by
  simp [dropInput, hin]

/-! ## The shapes of operations and frames -/

/-- What a request that uses the bus runs, with the number of byte exchanges it asks for: one of five shapes. A frame begins
with an implemented code (R90), and what a read reports leaves RES.err to the end of the operation. -/
inductive BusRun : Nat → (State → State) → Prop
  | writeOp (c : Byte) (os : List Byte) (hc : implementedCode c = true) :
    BusRun (os.length + 1) (runWrite (c :: os))
  | readOp (c : Byte) (os : List Byte) (len : Nat) (f : Work → Res → Res) (hc : implementedCode c = true)
    (hf : ∀ w r, (f w r).err = r.err) : BusRun (os.length + 1 + len) (runRead (c :: os) len f)
  | setter (f : Field) (arg : BitVec 3) : BusRun 6 (runSetter f arg)
  | writeFrame (c : Byte) (os : List Byte) (hc : implementedCode c = true) :
    BusRun (os.length + 1) (fun s => endSession (writeSession .sel1 .tx1 .desel1 (c :: os) s))
  | readFrame (c : Byte) (os : List Byte) (len : Nat) (hc : implementedCode c = true) :
    BusRun (os.length + 1 + len) (fun s => endSession (readSession (c :: os) len s))

/-- What a request that uses no bus runs: the rejection, or decode_status. -/
inductive BuslessRun : (State → State) → Prop
  | rejection : BuslessRun reject
  | decoding (v : StatusWord) : BuslessRun (fun s => complete (putRes (fun _ r => { r with fields := fieldsOf v }) s))

/-- What a request comes to, with the most byte exchanges it makes. -/
inductive RequestShape (n : Nat) (e : State → Host.Outcome State Fault Refusal) : Prop
  | bus (operands : Cmd → Cmd) {m : Nat} {run : State → State} (hm : m ≤ n) (hr : BusRun m run)
    (he : ∀ s, e s = onBus operands run s)
  | busless (operands : Cmd → Cmd) {run : State → State} (hr : BuslessRun run) (he : ∀ s, e s = offBus operands run s)

theorem setter_shape (op : BitVec 4) (f : Field) (arg : BitVec 3) : RequestShape 6 (setter op f arg) := by
  cases ha : argValid f arg
  case true => exact .bus _ le_rfl (.setter f arg) fun s => by rw [setter, if_pos ha]
  case false => exact .busless _ .rejection fun s => by rw [setter, ha]; rfl

/-- Every host operation and every frame has one of the shapes, its exchanges within the bound of R113. -/
theorem exec_shape {i : Instr} (hi : isHostOp i = true ∨ isFrame i = true) : RequestShape (maxExchanges i) (exec i) := by
  cases i with
  | write a data => exact .bus id (Nat.add_comm ..).le (.writeFrame codeWrite (_ :: _ :: _ :: data) rfl) fun _ => rfl
  | read a len => exact .bus id le_rfl (.readFrame codeRead [_, _, _] len rfl) fun _ => rfl
  | readStatus => exact .bus id le_rfl (.readFrame codeReadStatus [] 2 rfl) fun _ => rfl
  | writeStatus v => exact .bus id le_rfl (.writeFrame codeWriteStatus [_, _] rfl) fun _ => rfl
  | writeByte a v => exact .bus _ le_rfl (.writeOp codeWrite [_, _, _, _] rfl) fun _ => rfl
  | sequentialWrite a data =>
    exact .bus _ (Nat.add_comm ..).le (.writeOp codeWrite (_ :: _ :: _ :: data) rfl) fun _ => rfl
  | readByte a => refine .bus _ le_rfl (.readOp codeRead [_, _, _] 1 _ rfl ?_) fun _ => rfl; exact fun _ _ => rfl
  | sequentialRead a len =>
    refine .bus _ le_rfl (.readOp codeRead [_, _, _] len _ rfl ?_) fun _ => rfl; exact fun _ _ => rfl
  | getStatus => refine .bus _ le_rfl (.readOp codeReadStatus [] 2 _ rfl ?_) fun _ => rfl; exact fun _ _ => rfl
  | setStatus v => exact .bus _ le_rfl (.writeOp codeWriteStatus [_, _] rfl) fun _ => rfl
  | setMode arg => exact setter_shape 0x6 .mode arg
  | setPageSize arg => exact setter_shape 0x7 .pageSize arg
  | setSlewRate arg => exact setter_shape 0x8 .slew arg
  | setDriveStrength arg => exact setter_shape 0x9 .drive arg
  | decodeStatus v => exact .busless _ (.decoding v) fun _ => rfl
  | reservedOpB => exact .busless _ .rejection fun _ => rfl
  | reservedOpCToF low => exact .busless _ .rejection fun _ => rfl
  | fastRead | enterDualIo | enterQuadIo | resetIo | select | deselect | transfer | receive => simp [isHostOp, isFrame] at hi

/-- While an operation runs, no operation and no frame has an effect (R13, R36). -/
theorem exec_heldOff {i : Instr} (hi : isHostOp i = true ∨ isFrame i = true) {s : State} (h : s.heldOff = true) :
    exec i s = .next s := by
  cases exec_shape hi with
  | bus operands _ _ he => rw [he, onBus_heldOff h]
  | busless operands _ he => rw [he, offBus_heldOff h]

/-- The reserved selectors reject, and name themselves in CMD.op (R89). -/
theorem exec_reserved {i : Instr} (hi : i = .reservedOpB ∨ ∃ low, i = .reservedOpCToF low) {s : State}
    (hb : s.busy = false) (hs : s.stalled = false) :
    ∃ op : BitVec 4, 11 ≤ op.toNat ∧ exec i s = .next (reject (accept (fun c => { c with op := op }) s)) := by
  rcases hi with rfl | ⟨low, rfl⟩
  · exact ⟨0xB, by decide, offBus_idle hb hs _ _⟩
  · exact ⟨(0b11 : BitVec 2) ++ low, by revert low; decide, offBus_idle hb hs _ _⟩

/-! ## The obligations on requests -/

/-- Settles O6, shape by shape. -/
theorem malformedRequestsAreRefused : Obligations.MalformedRequestsAreRefused := by
  refine ⟨rfl, fun _ _ => decodeFrame_shortAddress, ?_, fun _ _ => decodeFrame_statusLength,
    fun _ _ => decodeFrame_unimplementedTail, fun _ => decodeHost_payloadLength,
    fun s c rest e hin hidle hc => step_undecodable hin hidle hc⟩
  rintro c ah am al rest (rfl | rfl) hah
  · exact decodeAddress_topBits hah am al fun a => .write a rest
  · exact decodeAddress_topBits hah am al fun a => .read a rest.length

/-- Settles O16: each primitive asks for its session state first. -/
theorem primitivesStopOutsideTheirSession : Obligations.PrimitivesStopOutsideTheirSession := by
  intro s hs
  refine ⟨fun hsel => ?_, fun hidle => ⟨?_, fun bytes => ?_, fun len => ?_⟩⟩
  · simp [exec, execSelect, hs, hsel]
  · simp [exec, execDeselect, hs, hidle]
  · simp [exec, execTransfer, hidle]
  · simp [exec, execReceive, hidle]

/-- Settles O19: operations, frames and the two kinds of held-off input each leave the state. -/
theorem offersWhileBusyAreHeldOff : Obligations.OffersWhileBusyAreHeldOff := by
  intro s h
  refine ⟨fun i hi => exec_heldOff hi h, ?_⟩
  rintro (hin | ⟨c, rest, hin⟩ | ⟨b, rest, hin⟩)
  · exact step_noInput hin
  · exact step_request_heldOff hin h
  · exact step_buffer_heldOff hin h

/-- Settles O40: the selectors by their decoding, the rejection from the accepted state. -/
theorem reservedSelectorsAreRejected : Obligations.ReservedSelectorsAreRejected := by
  refine ⟨fun c hc => (decodeHost_reserved hc).imp id fun h => ⟨_, h⟩, fun c i h => isHostOp_of_decodeHost h, ?_⟩
  rintro i s hi ⟨hb, hs, hidle⟩
  obtain ⟨op, hop, he⟩ := exec_reserved hi hb hs
  refine ⟨_, op, he, ?_⟩
  rw [reject_idle (by exact hs) (by exact hidle)]
  exact ⟨rfl, hs, rfl, rfl, rfl, hop, rfl, rfl, rfl, rfl, rfl, rfl, rfl⟩

/-- Settles O44: refused whatever the state. -/
theorem unimplementedCodesAreRefused : Obligations.UnimplementedCodesAreRefused := fun _ => ⟨rfl, rfl, rfl, rfl⟩

/-- Settles O47. -/
theorem stepRunsTheDecodedInstruction : Obligations.StepRunsTheDecodedInstruction := by
  intro s c rest i hin hidle hc
  rw [step_request hin hidle hc, dropInput_eq hin]

/-- Settles O48. -/
theorem hostBufferAndIdleStep : Obligations.HostBufferAndIdleStep := by
  refine ⟨fun s bytes rest hin hidle => ?_, fun s hin => step_noInput hin⟩
  rw [step_buffer hin hidle, dropInput_eq hin]
  rfl

end Sys2Proof.Machine
end

section
/-!
PROOFS. How every operation and frame ends, under every choice of the environment: ready again or hung (40_transport R106,
R109), within its bound of exchanges (R113); and the invariant, which every step keeps.
-/

namespace Sys2Proof.Machine

/-! ## The discipline of TRACE (R90, R105, R106) -/

theorem TracePoint.after_append (p : TracePoint) (es fs : List BusEvent) :
    p.after (es ++ fs) = (p.after es).bind fun q => q.after fs := by
  induction es generalizing p with
  | nil => rfl
  | cons e es ih =>
    simp only [List.cons_append, TracePoint.after]
    cases p.next e with
    | none => rfl
    | some q => exact ih q

/-- Inside a frame any exchange may follow. -/
theorem TracePoint.after_exchanges (out inc : List Byte) :
    TracePoint.after .inFrame (List.zipWith .x out inc) = some .inFrame := by
  induction out generalizing inc with
  | nil => rfl
  | cons o out ih =>
    cases inc with
    | nil => rfl
    | cons i inc => exact ih inc

/-- The o bytes of a frame, as far as it was sent, begin with an implemented code (R90). -/
def BeginsCoded (out : List Byte) : Prop := ∀ o ∈ out.head?, implementedCode o = true

theorem beginsCoded_cons {c : Byte} (hc : implementedCode c = true) (os : List Byte) : BeginsCoded (c :: os) := by
  rintro o ⟨⟩
  exact hc

theorem beginsCoded_take {c : Byte} (hc : implementedCode c = true) (os : List Byte) (k : Nat) :
    BeginsCoded ((c :: os).take k) := by
  cases k with
  | zero => rintro o ⟨⟩
  | succ k => exact beginsCoded_cons hc _

/-- The first exchange of a frame carries an implemented code (R90). -/
theorem TracePoint.next_code {o : Byte} (h : implementedCode o = true) (i : Byte) :
    TracePoint.next .opened (.x o i) = some .inFrame := if_pos h

/-- A session that has been opened and not closed leads an observer into it. -/
theorem TracePoint.after_openSession {out : List Byte} (hc : BeginsCoded out) (inc : List Byte) :
    ∃ p, TracePoint.after .between (.sel :: List.zipWith .x out inc) = some p ∧ p ≠ .between := by
  cases out with
  | nil => exact ⟨.opened, rfl, by decide⟩
  | cons o out =>
    cases inc with
    | nil => exact ⟨.opened, rfl, by decide⟩
    | cons i inc =>
      refine ⟨.inFrame, ?_, by decide⟩
      have hsel : TracePoint.next .between .sel = some .opened := rfl
      simp only [List.zipWith_cons_cons, TracePoint.after, hsel, next_code (hc o rfl)]
      exact after_exchanges out inc

/-- A whole session leads back between sessions. -/
theorem TracePoint.after_sessionEvents {out : List Byte} (hc : BeginsCoded out) (inc : List Byte) :
    TracePoint.after .between (sessionEvents out inc) = some .between := by
  obtain ⟨p, hp, hne⟩ := after_openSession hc inc
  have hsplit : sessionEvents out inc = (.sel :: List.zipWith .x out inc) ++ [.desel] := rfl
  rw [hsplit, after_append, hp]
  cases p with
  | between => exact absurd rfl hne
  | opened | inFrame => rfl

/-! ## What a trace counts (R113) -/

theorem outBytes_append (es fs : List BusEvent) : outBytes (es ++ fs) = outBytes es ++ outBytes fs := by
  induction es with
  | nil => rfl
  | cons e es ih => cases e <;> simp [outBytes, ih]

theorem outBytes_exchanges {out inc : List Byte} (h : inc.length = out.length) :
    outBytes (List.zipWith .x out inc) = out := by
  induction out generalizing inc with
  | nil => rfl
  | cons o out ih =>
    cases inc with
    | nil => simp at h
    | cons i inc => rw [List.zipWith_cons_cons, outBytes, ih (by simpa using h)]

theorem outBytes_sessionEvents {out inc : List Byte} (h : inc.length = out.length) :
    outBytes (sessionEvents out inc) = out := by
  simp [sessionEvents, outBytes, outBytes_append, outBytes_exchanges h]

theorem sessionsOpened_exchanges (out inc : List Byte) : sessionsOpened (List.zipWith .x out inc) = 0 := by
  rw [sessionsOpened, List.count_eq_zero]
  intro h
  obtain ⟨i, hi, he⟩ := List.getElem_of_mem h
  simp at he

theorem sessionsOpened_openSession (out inc : List Byte) : sessionsOpened (.sel :: List.zipWith .x out inc) = 1 := by
  have := sessionsOpened_exchanges out inc
  simp only [sessionsOpened] at this ⊢
  simp [this]

theorem sessionsOpened_sessionEvents (out inc : List Byte) : sessionsOpened (sessionEvents out inc) = 1 := by
  have := sessionsOpened_exchanges out inc
  simp only [sessionsOpened] at this ⊢
  simp [sessionEvents, this]

/-! ## What one or two sessions keep -/

/-- What sessions with at most `bytes` exchanges leave of a state `s` between sessions, whether they end or hang: the wire's
discipline, SCK, the chip's form, inputs and plug. -/
structure Kept (bytes sessions : Nat) (s t : State) : Prop where
  inputs : t.inputs = s.inputs
  plugged : t.env.plugged = s.env.plugged
  sck : s.lines.sck = Config.cpol → t.lines.sck = Config.cpol
  trace : ∃ es, t.trace = s.trace ++ es ∧ (outBytes es).length ≤ bytes ∧ sessionsOpened es ≤ sessions ∧
    ∃ p, TracePoint.after .between es = some p ∧ (p = .between ↔ t.ses = .idle)
  devOk : s.dev.Ok → t.dev.Ok
  noFrame : s.dev.frm = .noFrame → t.ses = .idle ∨ t.env.plugged = false → t.dev.frm = .noFrame

/-- Where sessions have led: each has ended, or the last one hangs; no result register has been written. -/
structure OnWire (bytes sessions : Nat) (s t : State) : Prop extends Kept bytes sessions s t where
  busy : t.busy = s.busy
  res : t.res = s.res
  pins : (t.stalled = false ∧ t.csN = true ∧ t.ses = .idle) ∨ (t.stalled = true ∧ t.csN = false ∧ t.ses = .selected)

theorem OnWire.mono {b b' n n' : Nat} {s t : State} (h : OnWire b n s t) (hb : b ≤ b') (hn : n ≤ n') : OnWire b' n' s t := by
  obtain ⟨es, ht, hbytes, hsessions, hp⟩ := h.trace
  exact { h with trace := ⟨es, ht, hbytes.trans hb, hsessions.trans hn, hp⟩ }

theorem OnWire.idle {b n : Nat} {s t : State} (h : OnWire b n s t) (ht : t.stalled = false) : t.csN = true ∧ t.ses = .idle := by
  rcases h.pins with ⟨-, h⟩ | ⟨h, -⟩
  · exact h
  · simp [ht] at h

theorem OnWire.hung {b n : Nat} {s t : State} (h : OnWire b n s t) (ht : t.stalled = true) :
    t.csN = false ∧ t.ses = .selected := by
  rcases h.pins with ⟨h, -⟩ | ⟨-, h⟩
  · simp [ht] at h
  · exact h

/-- A session after one that ended. -/
theorem OnWire.trans {b b' n n' : Nat} {s t u : State} (h : OnWire b n s t) (ht : t.stalled = false) (k : OnWire b' n' t u) :
    OnWire (b + b') (n + n') s u where
  inputs := k.inputs.trans h.inputs
  plugged := k.plugged.trans h.plugged
  sck := fun hs => k.sck (h.sck hs)
  trace := by
    obtain ⟨es, hes, hb, hn, p, hp, hpt⟩ := h.trace
    obtain ⟨fs, hfs, hb', hn', hq⟩ := k.trace
    refine ⟨es ++ fs, by rw [hfs, hes, List.append_assoc], ?_, ?_, ?_⟩
    · rw [outBytes_append, List.length_append]; omega
    · rw [sessionsOpened, List.count_append]; exact Nat.add_le_add hn hn'
    · rw [TracePoint.after_append, hp, hpt.2 (h.idle ht).2]; exact hq
  devOk := fun hs => k.devOk (h.devOk hs)
  noFrame := fun hs => k.noFrame (h.noFrame hs (.inl (h.idle ht).2))
  busy := k.busy.trans h.busy
  res := k.res.trans h.res
  pins := k.pins

/-- A phase entered before the sessions is nothing on the wire. -/
theorem OnWire.ofEnter {b n : Nat} {p : Phase} {s t : State} (h : OnWire b n (enter p s) t) : OnWire b n s t := by
  unfold enter at h
  split at h
  · exact h
  · exact ⟨⟨h.inputs, h.plugged, h.sck, h.trace, h.devOk, h.noFrame⟩, h.busy, h.res, h.pins⟩

theorem SessionEnded.onWire {out inc : List Byte} {calls : Nat} {d : Dev} {s t : State}
    (h : SessionEnded out inc calls d s t) (hc : BeginsCoded out) (hd : s.dev.Ok → d.Ok) : OnWire out.length 1 s t where
  inputs := h.inputs
  plugged := h.plugged
  sck := h.sck
  trace := ⟨_, h.trace, by rw [outBytes_sessionEvents h.length], (sessionsOpened_sessionEvents _ _).le, .between,
    TracePoint.after_sessionEvents hc inc, by simp [h.ses]⟩
  devOk := fun hs => by
    obtain ⟨n, e, he⟩ := h.dev
    rw [he]
    split
    · exact (hd hs).endFrame n e
    · exact hs
  noFrame := fun hs _ => by
    obtain ⟨n, e, he⟩ := h.dev
    rw [he]
    split
    · exact Dev.endFrame_frm d n e
    · exact hs
  busy := h.busy
  res := h.res
  pins := .inl ⟨h.stalled, h.csN, h.ses⟩

theorem InSession.onWire {out inc : List Byte} {calls : Nat} {d : Dev} {s t : State} (h : InSession out inc calls d s t)
    (ht : t.stalled = true) (hc : BeginsCoded out) (hd : s.dev.Ok → d.Ok) : OnWire out.length 1 s t where
  inputs := h.inputs
  plugged := h.plugged
  sck := h.sck
  trace := by
    obtain ⟨p, hp, hne⟩ := TracePoint.after_openSession hc inc
    exact ⟨_, h.trace, by simp [outBytes, outBytes_exchanges h.length], (sessionsOpened_openSession _ _).le, p, hp,
      by simp [h.ses, hne]⟩
  devOk := fun hs => by
    rw [h.dev]
    split
    · exact hd hs
    · exact hs
  noFrame := by
    rintro hs (hi | hp)
    · rw [h.ses] at hi; cases hi
    · rw [h.dev, ← h.plugged, hp]; exact hs
  busy := h.busy
  res := h.res
  pins := .inr ⟨ht, h.csN, h.ses⟩

theorem Dev.Ok.afterCall {d : Dev} (h : d.Ok) (c : CallDraw) (os rest : List Byte) (n : Nat) :
    (afterCall c os rest n d).Ok := by
  unfold Machine.afterCall
  split
  · exact h.exchanges _
  · exact (h.exchanges _).fallShort _ _

theorem writeSession_onWire (sel tx desel : Phase) {c : Byte} (hc : implementedCode c = true) (os : List Byte) {s : State}
    (hs : s.stalled = false) : OnWire (os.length + 1) 1 s (writeSession sel tx desel (c :: os) s) := by
  obtain ⟨-, hst, inc, n, hend, hhang⟩ := writeSession_cases sel tx desel (c :: os) hs
  have hcoded := beginsCoded_take hc os ((callDraw s).limit (c :: os).length)
  have hd := fun h : s.dev.Ok => h.startFrame.afterCall (callDraw s) (c :: os)
    ((c :: os).drop ((callDraw s).limit (c :: os).length)) n
  have hlen := List.length_take_le' ((callDraw s).limit (c :: os).length) (c :: os)
  cases hk : (callDraw s).stalls (c :: os).length
  case false => exact ((hend hk).onWire hcoded hd).mono hlen le_rfl
  case true => exact ((hhang hk).onWire (hst.trans hk) hcoded hd).mono hlen le_rfl

theorem readSession_onWire {c : Byte} (hc : implementedCode c = true) (os : List Byte) (len : Nat) {s : State}
    (hs : s.stalled = false) : OnWire (os.length + 1 + len) 1 s (readSession (c :: os) len s) := by
  rcases ((callDraw s).limit_le (c :: os).length).lt_or_eq with hk | hk
  · obtain ⟨-, hst, inc, n, hend, hhang⟩ := readSession_shortHeader (c :: os) len hs hk
    have hcoded := beginsCoded_take hc os ((callDraw s).limit (c :: os).length)
    have hd := fun h : s.dev.Ok => h.startFrame.afterCall (callDraw s) (c :: os)
      ((c :: os).drop ((callDraw s).limit (c :: os).length)) n
    have hlen : ((c :: os).take ((callDraw s).limit (c :: os).length)).length ≤ os.length + 1 + len :=
      (List.length_take_le' _ _).trans (Nat.le_add_right _ _)
    cases hkk : (callDraw s).stalls (c :: os).length
    case false => exact ((hend hkk).2.onWire hcoded hd).mono hlen le_rfl
    case true => exact ((hhang hkk).onWire (hst.trans hkk) hcoded hd).mono hlen le_rfl
  · obtain ⟨-, hst, inc, got, n, -, -, -, hend, hhang⟩ := readSession_fullHeader (c :: os) len hs hk
    have hcoded := beginsCoded_cons hc (os ++ List.replicate ((secondDraw s).limit len) Config.fill)
    have hd := fun h : s.dev.Ok => (h.startFrame.exchanges (c :: os)).afterCall (secondDraw s)
      (List.replicate len Config.fill) [] n
    have hlen : (c :: os ++ List.replicate ((secondDraw s).limit len) Config.fill).length ≤ os.length + 1 + len := by
      have := (secondDraw s).limit_le len
      simp
      omega
    cases hkk : (secondDraw s).stalls len
    case false => exact ((hend hkk).onWire hcoded hd).mono hlen le_rfl
    case true => exact ((hhang hkk).onWire (hst.trans hkk) hcoded hd).mono hlen le_rfl

/-! ## The end of an operation -/

/-- RES.ok and RES.err as an operation leaves them, by whether it succeeded (R34). -/
def Res.verdict (ok : Bool) (r : Res) : Res := if ok then r.succeed else r.fail .shortTransfer

/-- Once its sessions have ended, an operation writes its results and is ready (R37, R182). -/
theorem settle_putRes {s : State} (hs : s.stalled = false) (hi : s.ses = .idle) (f : Work → Res → Res) (ok : Bool) :
    settle ok (putRes f s) = finish { s with res := (f s.work s.res).verdict ok } := by
  rw [putRes_live hs, settle_live (by exact hs)]
  cases ok
  case false => exact raise_idle (s := { s with res := f s.work s.res, seq := ⟨.done, 0, 7⟩ }) hi _
  case true => rfl

/-- How an operation or a frame ends: PSS ready again, or hung in an exchange that stalled (R106, R109). -/
structure Concluded (bytes sessions : Nat) (s t : State) : Prop extends Kept bytes sessions s t where
  ends : (t.stalled = false ∧ (s.csN = true → t.csN = true) ∧ t.ses = .idle ∧ t.busy = false ∧ t.seq = Seq.ready) ∨
    (t.stalled = true ∧ t.csN = false ∧ t.ses = .selected ∧ t.busy = true ∧ t.res = s.res)
  kinds : s.res.err ≠ .timeoutReserved → t.res.err ≠ .timeoutReserved

theorem Concluded.mono {b b' n n' : Nat} {s t : State} (h : Concluded b n s t) (hb : b ≤ b') (hn : n ≤ n') :
    Concluded b' n' s t := by
  obtain ⟨es, ht, hbytes, hsessions, hp⟩ := h.trace
  exact { h with trace := ⟨es, ht, hbytes.trans hb, hsessions.trans hn, hp⟩ }

/-- Sessions that ended lead to the end of the operation. -/
theorem OnWire.finished {b n : Nat} {s t : State} (h : OnWire b n s t) (ht : t.stalled = false) (r : Res)
    (hr : s.res.err ≠ .timeoutReserved → r.err ≠ .timeoutReserved) : Concluded b n s (finish { t with res := r }) where
  inputs := h.inputs
  plugged := h.plugged
  sck := h.sck
  trace := h.trace
  devOk := h.devOk
  noFrame := h.noFrame
  ends := .inl ⟨ht, fun _ => (h.idle ht).1, (h.idle ht).2, rfl, rfl⟩
  kinds := hr

theorem OnWire.stuck {b n : Nat} {s t : State} (h : OnWire b n s t) (hb : s.busy = true) (ht : t.stalled = true) :
    Concluded b n s t where
  toKept := h.toKept
  ends := .inr ⟨ht, (h.hung ht).1, (h.hung ht).2, h.busy.trans hb, h.res⟩
  kinds := fun hr => by rwa [h.res]

theorem Res.verdict_err (ok : Bool) (r : Res) : (r.verdict ok).err ≠ .timeoutReserved := by
  cases ok <;> exact nofun

/-- What an operation makes of its sessions, ended or hung. -/
theorem OnWire.settled {b n : Nat} {s t : State} (h : OnWire b n s t) (hb : s.busy = true) (f : Work → Res → Res) (ok : Bool) :
    Concluded b n s (settle ok (putRes f t)) := by
  cases ht : t.stalled
  case false =>
    rw [settle_putRes ht (h.idle ht).2]
    exact h.finished ht _ fun _ => Res.verdict_err _ _
  case true =>
    rw [putRes_stalled ht, settle_stalled ht]
    exact h.stuck hb ht

theorem OnWire.endSession {b n : Nat} {s t : State} (h : OnWire b n s t) (hb : s.busy = true) :
    Concluded b n s (endSession t) := by
  cases ht : t.stalled
  case false =>
    rw [Machine.endSession, ht]
    exact h.finished ht t.res fun hr => by rwa [h.res]
  case true =>
    rw [Machine.endSession, if_pos ht]
    exact h.stuck hb ht

/-- A setter has one session, and a second one only after the first has ended (R150). -/
theorem runSetter_concluded (f : Field) (arg : BitVec 3) {s : State} (hb : s.busy = true) (hs : s.stalled = false) :
    Concluded 6 2 s (runSetter f arg s) := by
  have hlive : (enter .check s).stalled = false := by rw [enter_live hs]; exact hs
  have h1 : OnWire 3 1 s (readSession readStatusHeader 2 (enter .check s)) :=
    (readSession_onWire (c := codeReadStatus) rfl [] 2 hlive).ofEnter
  unfold runSetter
  generalize readSession readStatusHeader 2 (enter .check s) = t at h1
  dsimp only
  split
  case isTrue ht => exact (h1.stuck hb ht).mono (by decide) (by decide)
  case isFalse ht =>
    rw [Bool.not_eq_true] at ht
    split
    case isTrue =>
      have hlive' : (enter .modify t).stalled = false := by rw [enter_live ht]; exact ht
      exact (h1.trans ht (writeSession_onWire .sel2 .tx2 .desel2 (c := codeWriteStatus) rfl [_, _] hlive').ofEnter).settled hb
        _ _
    case isFalse => exact (h1.settled hb _ _).mono (by decide) (by decide)

/-- Every request that uses the bus ends ready or hangs, within its bound of exchanges and in at most two sessions. -/
theorem BusRun.concluded {n : Nat} {run : State → State} (hr : BusRun n run) {s : State} (hb : s.busy = true)
    (hs : s.stalled = false) : Concluded n 2 s (run s) := by
  cases hr with
  | writeOp c os hc => exact ((writeSession_onWire _ _ _ hc os hs).settled hb _ _).mono le_rfl (by decide)
  | readOp c os len f hc => exact ((readSession_onWire hc os len hs).settled hb _ _).mono le_rfl (by decide)
  | setter f arg => exact runSetter_concluded f arg hb hs
  | writeFrame c os hc => exact ((writeSession_onWire _ _ _ hc os hs).endSession hb).mono le_rfl (by decide)
  | readFrame c os len hc => exact ((readSession_onWire hc os len hs).endSession hb).mono le_rfl (by decide)

/-- Writing results alone, between sessions, is nothing on the wire. -/
theorem concluded_finish {s : State} (hs : s.stalled = false) (hi : s.ses = .idle) (r : Res)
    (hr : r.err ≠ .timeoutReserved) : Concluded 0 0 s (finish { s with res := r }) where
  inputs := rfl
  plugged := rfl
  sck := id
  trace := ⟨[], (List.append_nil _).symm, le_rfl, le_rfl, .between, rfl, by simp [hi]⟩
  devOk := id
  noFrame := fun h _ => h
  ends := .inl ⟨hs, id, hi, rfl, rfl⟩
  kinds := fun _ => hr

theorem BuslessRun.concluded {run : State → State} (hr : BuslessRun run) {s : State} (hs : s.stalled = false)
    (hi : s.ses = .idle) : Concluded 0 0 s (run s) := by
  cases hr with
  | rejection =>
    rw [reject_idle hs hi]
    exact concluded_finish hs hi _ nofun
  | decoding v =>
    dsimp only
    rw [putRes_live hs]
    exact concluded_finish hs hi _ nofun

/-- What the command registers hold is nothing to how an operation ends. -/
theorem Concluded.ofAccept {b n : Nat} {f : Cmd → Cmd} {s t : State} (h : Concluded b n (accept f s) t) : Concluded b n s t :=
  ⟨⟨h.inputs, h.plugged, h.sck, h.trace, h.devOk, h.noFrame⟩, h.ends, h.kinds⟩

/-- How every operation and frame ends, from a ready state and whatever the environment does. -/
theorem exec_concluded {i : Instr} (hi : isHostOp i = true ∨ isFrame i = true) {s : State} (hs : s.ready) :
    ∃ t, exec i s = .next t ∧ Concluded (maxExchanges i) 2 s t := by
  obtain ⟨hb, hst, hidle⟩ := id hs
  cases exec_shape hi with
  | bus f hm hr he => 
    exact ⟨_, (he s).trans (onBus_ready hs _ _), ((hr.concluded (s := accept f s) rfl hst).mono hm le_rfl).ofAccept⟩
  | busless f hr he =>
    exact ⟨_, (he s).trans (offBus_idle hb hst _ _),
      ((hr.concluded (s := accept f s) hst hidle).mono (Nat.zero_le _) (Nat.zero_le 2)).ofAccept⟩

/-! ## The invariant -/

theorem State.Inv.devOk {s : State} (h : s.Inv) : s.dev.Ok := ⟨h.memory, h.ecsHome⟩

theorem State.Inv.ready {s : State} (h : s.Inv) (hf : s.heldOff = false) : s.ready := by
  simp only [State.heldOff, Bool.or_eq_false_iff] at hf
  exact ⟨hf.1, hf.2, (h.rest hf.2).1⟩

/-- TRACE stays disciplined when a disciplined stretch follows while the session is idle. -/
theorem State.traceOk.append {s t : State} (h : s.traceOk) (hi : s.ses = .idle) {es : List BusEvent}
    (ht : t.trace = s.trace ++ es) (hp : ∃ p, TracePoint.after .between es = some p ∧ (p = .between ↔ t.ses = .idle)) :
    t.traceOk := by
  obtain ⟨q, hq, hqs⟩ := h
  rw [State.traceOk, ht, TracePoint.after_append, hq, hqs.2 hi]
  exact hp

/-- An operation keeps the invariant. -/
theorem Concluded.inv {b n : Nat} {s t : State} (h : Concluded b n s t) (hs : s.Inv) (hr : s.ready) : t.Inv := by
  obtain ⟨-, hlive, hidle⟩ := hr
  obtain ⟨hmem, hecs⟩ := h.devOk hs.devOk
  have hfrm := h.noFrame (hs.noFrame (.inl hidle))
  have hdisc : t.traceOk := by
    obtain ⟨es, ht, -, -, hp⟩ := h.trace
    exact hs.discipline.append hidle ht hp
  have hck := h.sck hs.clock
  have hk := h.kinds hs.kinds
  rcases h.ends with ⟨e1, e2, e3, e4, e5⟩ | ⟨e1, e2, e3, e4, -⟩
  · have hcs := e2 (hs.chipSelect.2 hidle)
    exact ⟨hmem, hecs, by simp [hcs, e3], by rw [e1, e4], by simp [e1], fun _ => ⟨e3, e5⟩, hck, hdisc, hfrm, hk⟩
  · exact ⟨hmem, hecs, by simp [e2, e3], by rw [e1, e4], fun _ => e3, by simp [e1], hck, hdisc, hfrm, hk⟩

/-- Taking an input is nothing to the invariant. -/
theorem State.Inv.dropInput {s : State} (h : s.Inv) : (dropInput s).Inv :=
  ⟨h.memory, h.ecsHome, h.chipSelect, h.running, h.hang, h.rest, h.clock, h.discipline, h.noFrame, h.kinds⟩

theorem State.Inv.loadBuffer {s : State} (h : s.Inv) (bytes : List Byte) : (loadBuffer bytes s).Inv :=
  ⟨h.memory, h.ecsHome, h.chipSelect, h.running, h.hang, h.rest, h.clock, h.discipline, h.noFrame, h.kinds⟩

theorem State.Inv.powerUp {s : State} (h : s.Inv) : (powerUp s).Inv :=
  ⟨(Dev.powerUp_ok s.draws).1, (Dev.powerUp_ok s.draws).2, h.chipSelect, h.running, h.hang, h.rest, h.clock, h.discipline,
    fun _ => rfl, h.kinds⟩

/-- The chip after a reset of PSS (R210). -/
theorem pssReset_dev_inv {s : State} (h : s.Inv) : (pssReset s).dev.Ok ∧ (pssReset s).dev.frm = .noFrame := by
  simp only [pssReset]
  split
  case isTrue =>
    refine ⟨onDevice_ok h.devOk fun d hd => hd.abandon _ _ _, ?_⟩
    cases hp : s.env.plugged
    case true => rw [onDevice_plugged hp]; exact Dev.abandon_frm _ _ _ _
    case false => rw [onDevice_unplugged hp]; exact h.noFrame (.inr hp)
  case isFalse hsel =>
    refine ⟨h.devOk, h.noFrame (.inl ?_)⟩
    cases hses : s.ses
    · rfl
    · exact absurd hses hsel

theorem State.Inv.pssReset {s : State} (h : s.Inv) : (pssReset s).Inv := by
  obtain ⟨⟨hmem, hecs⟩, hfrm⟩ := pssReset_dev_inv h
  exact ⟨hmem, hecs, by simp [Machine.pssReset, State.reset], rfl, nofun, fun _ => ⟨rfl, rfl⟩, rfl,
    ⟨.between, rfl, by simp [Machine.pssReset, State.reset]⟩, fun _ => hfrm, nofun⟩

/-- A frame decodes to a wire instruction (R70), implemented or refused (R170). -/
theorem decodeFrame_kinds {bytes : List Byte} {i : Instr} (h : decodeFrame bytes = .instr i) :
    isFrame i = true ∨ ∀ s, ∃ r, exec i s = .refused r := by
  simp only [decodeFrame, decodeWriteFrame, decodeReadFrame, decodeAddress, decodeReadStatusFrame, decodeWriteStatusFrame,
    decodeBareCode] at h
  repeat' split at h
  all_goals cases h
  iterate 4 exact .inl rfl
  all_goals exact .inr fun _ => ⟨_, rfl⟩

/-- What a request can decode to: an operation, a frame, or a code that is refused, never a primitive (R89). -/
theorem decode_kinds {c : Code} {i : Instr} (h : decode c = .instr i) :
    (isHostOp i = true ∨ isFrame i = true) ∨ ∀ s, ∃ r, exec i s = .refused r := by
  cases c with
  | host c => exact .inl (.inl (isHostOp_of_decodeHost h))
  | frame bytes => exact (decodeFrame_kinds h).imp_left .inr

/-! ## The obligations -/

/-- Settles O53, from the one lemma on how operations end. -/
theorem everyOperationEndsOrHangs : Obligations.EveryOperationEndsOrHangs := by
  intro i s hi hs hcs
  obtain ⟨t, he, h⟩ := exec_concluded hi hs
  refine ⟨t, he, h.ends.imp ?_ ?_⟩
  · rintro ⟨e1, e2, e3, e4, e5⟩
    exact ⟨e2 hcs, e3, e4, e1, e5, h.sck, h.inputs, h.plugged⟩
  · rintro ⟨e1, e2, e3, e4, e5⟩
    exact ⟨e1, e4, e2, e3, e5⟩

/-- Settles O54, from the one lemma on how operations end. -/
theorem exchangesAreBounded : Obligations.ExchangesAreBounded := by
  intro i s hi hs
  obtain ⟨t, he, h⟩ := exec_concluded hi hs
  obtain ⟨es, ht, hb, hn, -⟩ := h.trace
  exact ⟨t, es, he, ht, hb, hn⟩

/-- Settles O49, clause by clause. -/
theorem invariantHoldsAtReset : Obligations.InvariantHoldsAtReset :=
  ⟨reset_memory_wf, (Dev.powerUp_ok 0).2, by decide, rfl, nofun, fun _ => ⟨rfl, rfl⟩, rfl,
    ⟨.between, rfl, by decide⟩, fun _ => rfl, nofun⟩

/-- Settles O50: a step is one of five acts, and each keeps the invariant. -/
theorem stepKeepsInvariant : Obligations.StepKeepsInvariant := by
  intro s t hinv hstep
  unfold step at hstep
  split at hstep
  case h_1 => cases hstep; exact hinv
  case h_2 c rest hin =>
    split at hstep
    case isTrue => cases hstep; exact hinv
    case isFalse hf =>
      rw [Bool.not_eq_true] at hf
      split at hstep
      case h_1 i hc =>
        have hready : (dropInput s).ready := hinv.dropInput.ready hf
        rcases decode_kinds hc with hi | hrefused
        · obtain ⟨u, he, h⟩ := exec_concluded hi hready
          rw [he] at hstep
          cases hstep
          exact h.inv hinv.dropInput hready
        · obtain ⟨r, hr⟩ := hrefused (dropInput s)
          rw [hr] at hstep
          cases hstep
      case h_2 => cases hstep
  case h_3 bytes rest hin =>
    split at hstep
    · cases hstep; exact hinv
    · cases hstep; exact hinv.dropInput.loadBuffer bytes
  case h_4 rest hin => cases hstep; exact hinv.dropInput.pssReset
  case h_5 rest hin => cases hstep; exact hinv.dropInput.powerUp

end Sys2Proof.Machine
end

section
/-!
PROOFS. What the sessions of an operation come to where no exchange stalls, complete or cut short: the bytes that came in, the
chip, and the results (41_memory_ops R120 to R125, 42_status_ops R140, R141).
-/

namespace Sys2Proof.Machine

/-! ## A call that sends all its bytes -/

/-- A Transfer whose limit is its length is a run of exchanges, whatever the choice of the environment says. -/
theorem transfer_complete (os : List Byte) {s : State} (hs : s.stalled = false) (hk : (callDraw s).limit os.length = os.length) :
    transfer os s = send os { beginCall os s with work := { (beginCall os s).work with n := 0 } } := by
  simp [transfer, hs, hk, endCall]

/-- A complete Transfer carries a session on. -/
theorem SessionOpen.transfer {out : List Byte} {n : Nat} {s t : State} (h : SessionOpen out n s t) {os : List Byte}
    (hk : (callDraw t).limit os.length = os.length) : SessionOpen (out ++ os) (n + 1) s (transfer os t) := by
  have ha : SameAnswers (beginCall os t) { beginCall os t with work := { (beginCall os t).work with n := 0 } } := by
    constructor <;> rfl
  rw [transfer_complete os h.stalled hk]
  have hx := send_exchanged os { beginCall os t with work := { (beginCall os t).work with n := 0 } }
  exact h.run { hx with trace := by rw [hx.trace, ha.incoming] } ((ha.afterAll os).trans (send_sameAnswers os _))

/-! ## A Receive that does not stall -/

/-- The working values are nothing to a session in progress. -/
theorem SessionOpen.ofWork {out : List Byte} {n : Nat} {s t : State} (h : SessionOpen out n s t) (w : Work) :
    SessionOpen out n s { t with work := w } := by
  have ha : SameAnswers t { t with work := w } := by constructor <;> rfl
  exact { h with answers := fun more => by rw [h.answers, ha.incoming] }

/-- The state in which a Receive collects its bytes (R103). -/
def receiving (len : Nat) (s : State) : State :=
  { beginCall (List.replicate len Config.fill) s with
    work := { (beginCall (List.replicate len Config.fill) s).work with r := [], due := s.work.due - len } }

theorem receiving_sameAnswers (len : Nat) (s : State) : SameAnswers s (receiving len s) := by
  constructor <;> rfl

/-- The first `m` bytes of a Receive of `len` carry a session on. -/
theorem SessionOpen.collect {out : List Byte} {n : Nat} {s t : State} (h : SessionOpen out n s t) {m len : Nat}
    (hm : m ≤ len) :
    SessionOpen (out ++ List.replicate m Config.fill) (n + 1) s (Machine.collect m (receiving len t)) ∧
      (Machine.collect m (receiving len t)).work.r = incoming (List.replicate m Config.fill) t := by
  have hx := collect_exchanged m (receiving len t)
  have hr := receiving_sameAnswers len t
  have hw := h.ofWork { t.work with out := t.work.out ++ List.replicate (len - m) Config.fill }
  have hout : (receiving len t).work.out =
      t.work.out ++ List.replicate (len - m) Config.fill ++ List.replicate m Config.fill := by
    rw [List.append_assoc, List.replicate_append_replicate, Nat.sub_add_cancel hm]
    rfl
  refine ⟨hw.run { hx with out := hx.out.trans hout, trace := ?_ } (SameAnswers.trans ?_ (collect_sameAnswers m _)), ?_⟩
  · have hb : SameAnswers (beginCall (List.replicate m Config.fill)
        { t with work := { t.work with out := t.work.out ++ List.replicate (len - m) Config.fill } }) (receiving len t) := by
      constructor <;> rfl
    rw [hx.trace, hb.incoming]
    rfl
  · exact SameAnswers.afterAll (by constructor <;> rfl) _
  · rw [collect_r, hr.incoming]
    rfl

/-- That a Receive fell short is nothing to the end of an ordinary frame: the chip's frame ends all the same (log 17). -/
theorem Dev.endFrame_fallShort_nil (d : Dev) (m n : Nat) (e : BitVec 1) :
    (d.fallShort [] m).endFrame n e = d.endFrame n e := by
  obtain ⟨config, ecs, mem, gen, ptr, frm, fetched⟩ := d
  cases frm <;> rfl

theorem FramePos.cutShort_lost_iff (p : FramePos) : p.cutShort = .lost ↔ p = .lost := by
  cases p <;> simp [FramePos.cutShort]

theorem FramePos.cutShort_reservedMode_iff (p : FramePos) : p.cutShort = .reservedMode ↔ p = .reservedMode := by
  cases p <;> simp [FramePos.cutShort]

theorem Env.frameEnded_fallShort_nil (e : Env) (d : Dev) (m : Nat) : e.frameEnded (d.fallShort [] m) = e.frameEnded d := by
  simp only [Env.frameEnded, Dev.fallShort, Dev.garble, FramePos.cutShort_lost_iff, FramePos.cutShort_reservedMode_iff]
  congr

/-- Deselect after a Receive that fell short is Deselect after its exchanges. -/
theorem release_fallShort_nil {s : State} (hs : s.stalled = false) (p : Phase) :
    release (enter p (fallShort [] s)) = release (enter p s) := by
  have hdev : onDevice (Dev.endFrame s.draws (ecsDraw (fallShort [] s))) (fallShort [] s) =
      onDevice (Dev.endFrame s.draws (ecsDraw s)) s := by
    cases hp : s.env.plugged
    case true =>
      rw [onDevice_plugged (by exact hp), onDevice_plugged hp, fallShort_dev, onDevice_plugged hp,
        Dev.endFrame_fallShort_nil]
      simp [ecsDraw, Env.ecsAfter, onDevice_plugged hp, Dev.fallShort, Dev.garble]
    case false =>
      rw [onDevice_unplugged (by exact hp), onDevice_unplugged hp, fallShort_dev, onDevice_unplugged hp]
  have henv : s.env.frameEnded (fallShort [] s).dev = s.env.frameEnded s.dev := by
    cases hp : s.env.plugged
    case true => rw [fallShort_dev, onDevice_plugged hp, Env.frameEnded_fallShort_nil]
    case false => rw [fallShort_dev, onDevice_unplugged hp]
  rw [enter_live hs, enter_live (by exact hs), release_live (by exact hs), release_live (by exact hs)]
  simp only [deselect]
  congr 1

/-- At the end of a session a Receive that did not stall is a run of exchanges. -/
theorem release_receive {len : Nat} {s : State} (hs : s.stalled = false) (hk : (callDraw s).stalls len = false) (p : Phase) :
    release (enter p (receive len s)) = release (enter p (collect ((callDraw s).limit len) (receiving len s))) := by
  have hlive : (collect ((callDraw s).limit len) (receiving len s)).stalled = false := by
    rw [(collect_exchanged _ _).stalled]; exact hs
  have hrec : receive len s = endCall (callDraw s) (List.replicate (len - (callDraw s).limit len) Config.fill) []
      (collect ((callDraw s).limit len) (receiving len s)) := by
    simp [receive, hs, receiving]
  rw [hrec]
  cases hr : len - (callDraw s).limit len with
  | zero => rfl
  | succ k =>
    rw [List.replicate_succ]
    cases hc : callDraw s with
    | full =>
      rw [hc, CallDraw.limit, Nat.sub_self] at hr
      cases hr
    | short n => exact release_fallShort_nil (by rw [← hc]; exact hlive) p
    | stall n b =>
      simp only [hc, CallDraw.limit, CallDraw.stalls, decide_eq_false_iff_not] at hr hk
      omega

/-- With no device plugged in, each exchange takes one of the environment's bytes (R56 a; log 6). -/
theorem foldl_xchg_miso (os : List Byte) {s : State} (hp : s.env.plugged = false) :
    (os.foldl (fun s o => xchg o s) s).env.miso = s.env.miso.drop os.length := by
  induction os generalizing s with
  | nil => rfl
  | cons o os ih =>
    have hx : (xchg o s).env.miso = s.env.miso.tail := by
      rw [xchg_env, Env.answered, hp]
      rfl
    rw [List.foldl_cons, ih ((Env.answered_plugged _).trans hp), hx, List.drop_tail, List.length_cons]

theorem send_miso (os : List Byte) {s : State} (hp : s.env.plugged = false) :
    (send os s).env.miso = s.env.miso.drop os.length :=
  (send_sameAnswers os s).miso.trans (foldl_xchg_miso os hp)

theorem collect_miso (k : Nat) {s : State} (hp : s.env.plugged = false) : (collect k s).env.miso = s.env.miso.drop k := by
  rw [(collect_sameAnswers k s).miso, foldl_xchg_miso _ hp, List.length_replicate]

theorem enter_env (p : Phase) (s : State) : (enter p s).env = s.env := by
  unfold enter
  split <;> rfl

/-- A read session whose header was sent and whose Receive did not stall: the exchanges of the header and of the bytes that
came, as many as the environment let come (R103, R125). -/
theorem readSession_received (hdr : List Byte) (len : Nat) {s : State} (hs : s.stalled = false)
    (hk : (callDraw s).limit hdr.length = hdr.length) (hst : (secondDraw s).stalls len = false) :
    SessionDone (hdr ++ List.replicate ((secondDraw s).limit len) Config.fill) 2 s (readSession hdr len s) ∧
      (readSession hdr len s).work.r =
        (incoming (hdr ++ List.replicate ((secondDraw s).limit len) Config.fill) (select s)).drop hdr.length ∧
      (s.env.plugged = false →
        (readSession hdr len s).env.miso = s.env.miso.drop (hdr.length + (secondDraw s).limit len)) := by
  have h0 := (sessionOpen_select .sel1 .tx1 hs).announce len
  have hd0 : callDraw (announce len (enter .tx1 (select (enter .sel1 s)))) = callDraw s := by
    unfold callDraw; rw [h0.calls]; rfl
  rw [← hd0] at hk
  have h1 := h0.transfer hk
  obtain ⟨-, hn, -⟩ := transfer_called hdr h0.stalled
  rw [hk] at hn
  have hmiso : s.env.plugged = false → (transfer hdr (announce len (enter .tx1 (select (enter .sel1 s))))).env.miso =
      s.env.miso.drop hdr.length := by
    intro hp
    have henv : (announce len (enter .tx1 (select (enter .sel1 s)))).env.miso = s.env.miso := by
      rw [announce_env, enter_env, select_env, enter_env]
    rw [transfer_complete hdr h0.stalled hk]
    refine (send_miso hdr ?_).trans ?_
    · exact h0.plugged.trans hp
    · exact congrArg (List.drop hdr.length) henv
  unfold readSession
  generalize transfer hdr (announce len (enter .tx1 (select (enter .sel1 s)))) = u at h1 hn hmiso
  have hpart : receivePart hdr len u = receive len (enter .rx1 u) := by simp [receivePart, h1.stalled, hn]
  have h2 := h1.enter .rx1
  have hd2 : callDraw (enter .rx1 u) = secondDraw s := by
    unfold callDraw secondDraw; rw [h2.calls]; simp
  rw [hpart, release_receive h2.stalled (by rw [hd2]; exact hst), hd2]
  rw [← enter_env .rx1 u] at hmiso
  generalize enter .rx1 u = v at h2 hmiso
  obtain ⟨h3, hr⟩ := h2.collect ((secondDraw s).limit_le len)
  obtain ⟨hwork, -⟩ := release_enter_live h3.stalled .desel1
  refine ⟨(h3.enter .desel1).release, ?_, fun hp => ?_⟩
  case refine_2 =>
    rw [release_live (h3.enter .desel1).stalled, deselect_env, Env.frameEnded_miso, enter_env]
    refine (collect_miso _ ?_).trans ?_
    · exact h2.plugged.trans hp
    · show v.env.miso.drop _ = _
      rw [hmiso hp, List.drop_drop]
  have hanswers := h2.answers (List.replicate ((secondDraw s).limit len) Config.fill)
  rw [List.nil_append] at hanswers
  rw [hwork, hanswers, List.drop_left' (incoming_length _ _)]
  exact hr

/-! ## How a live read session leaves the working values and results -/

/-- The bytes a read session that does not stall receives: none after a short header (R125). -/
def receivedBytes (hdr : List Byte) (len : Nat) (s : State) : List Byte :=
  if (callDraw s).limit hdr.length = hdr.length then
    (incoming (hdr ++ List.replicate ((secondDraw s).limit len) Config.fill) (select s)).drop hdr.length
  else []

/-- What a read session that did not stall leaves beside TRACE and the chip. -/
structure ReadEnded (hdr : List Byte) (len : Nat) (s t : State) : Prop where
  ses : t.ses = .idle
  res : t.res = s.res
  work : t.work = ⟨(callDraw s).limit hdr.length, receivedBytes hdr len s, [], 0⟩

theorem release_enter_out {p : Phase} {t : State} (h : (release (enter p t)).stalled = false) :
    (release (enter p t)).work.out = [] ∧ (release (enter p t)).work.due = 0 := by
  cases ht : t.stalled
  case false => rw [(release_enter_live ht p).1]; exact ⟨rfl, rfl⟩
  case true => rw [enter_stalled ht, release_stalled ht, ht] at h; cases h

theorem readSession_live (hdr : List Byte) (len : Nat) {s : State} (hs : s.stalled = false)
    (ht : (readSession hdr len s).stalled = false) : ReadEnded hdr len s (readSession hdr len s) := by
  obtain ⟨hout, hdue⟩ := release_enter_out ht
  have hwork : ∀ r, (readSession hdr len s).work.n = (callDraw s).limit hdr.length → (readSession hdr len s).work.r = r →
      (readSession hdr len s).work = ⟨(callDraw s).limit hdr.length, r, [], 0⟩ := by
    intro r hn hr
    rw [← hn, ← hr, ← hout, ← hdue]
    rfl
  rcases ((callDraw s).limit_le hdr.length).lt_or_eq with hk | hk
  · obtain ⟨hn, hst, inc, n, hend, -⟩ := readSession_shortHeader hdr len hs hk
    obtain ⟨hr, h⟩ := hend (hst.symm.trans ht)
    exact ⟨h.ses, h.res, hwork _ hn (by rw [hr, receivedBytes, if_neg hk.ne])⟩
  · obtain ⟨hn, hst, -⟩ := readSession_fullHeader hdr len hs hk
    obtain ⟨h, hr, -⟩ := readSession_received hdr len hs hk (hst.symm.trans ht)
    exact ⟨h.ses, h.res, hwork _ (hn.trans hk.symm) (by rw [hr, receivedBytes, if_pos hk])⟩

/-! ## The operations, where nothing stalls -/

theorem runRead_live {hdr : List Byte} {len : Nat} (f : Work → Res → Res) {s : State} (hs : s.stalled = false)
    (ht : (readSession hdr len s).stalled = false) :
    runRead hdr len f s = finish { readSession hdr len s with
      res := (f ⟨(callDraw s).limit hdr.length, receivedBytes hdr len s, [], 0⟩ s.res).verdict
        (decide ((callDraw s).limit hdr.length = hdr.length) && decide ((receivedBytes hdr len s).length = len)) } := by
  have h := readSession_live hdr len hs ht
  unfold runRead
  dsimp only
  rw [settle_putRes ht h.ses, putRes_live ht, h.res]
  simp only [receivedAll, h.work]

theorem runRead_stalled {hdr : List Byte} {len : Nat} (f : Work → Res → Res) {s : State}
    (ht : (readSession hdr len s).stalled = true) : runRead hdr len f s = readSession hdr len s := by
  unfold runRead
  dsimp only
  rw [putRes_stalled ht, settle_stalled ht]

theorem putRes_work (f : Work → Res → Res) (s : State) : (putRes f s).work = s.work := by
  unfold putRes
  split <;> rfl

/-- The end of a write session whose Transfer does not stall, in either place a setter or a write operation has one. -/
theorem writeSession_settled (sel tx desel : Phase) {frame : List Byte} (f : Nat → Res → Res) {s : State}
    (hs : s.stalled = false) (hk : (callDraw s).stalls frame.length = false) :
    settle (sentAll frame (putRes (fun w => f w.n) (writeSession sel tx desel frame s)).work)
        (putRes (fun w => f w.n) (writeSession sel tx desel frame s)) =
      finish { writeSession sel tx desel frame s with
        res := (f ((callDraw s).limit frame.length) s.res).verdict
          (decide ((callDraw s).limit frame.length = frame.length)) } := by
  obtain ⟨hn, hst, inc, n, hend, -⟩ := writeSession_cases sel tx desel frame hs
  have h := hend hk
  rw [putRes_work, settle_putRes h.stalled h.ses, h.res]
  simp only [sentAll, hn]

/-- A write session whose Transfer stalls is not ended (R109). -/
theorem writeSession_settled_stalled (sel tx desel : Phase) {frame : List Byte} (f : Work → Res → Res) {s : State}
    (hs : s.stalled = false) (hk : (callDraw s).stalls frame.length = true) (ok : Bool) :
    settle ok (putRes f (writeSession sel tx desel frame s)) = writeSession sel tx desel frame s ∧
      (writeSession sel tx desel frame s).stalled = true := by
  have ht : (writeSession sel tx desel frame s).stalled = true := by
    rw [(writeSession_cases sel tx desel frame hs).2.1, hk]
  exact ⟨by rw [putRes_stalled ht, settle_stalled ht], ht⟩

/-- A write operation whose Transfer does not stall (R120, R121, R141). -/
theorem runWrite_live {frame : List Byte} {s : State} (hs : s.stalled = false)
    (hk : (callDraw s).stalls frame.length = false) :
    runWrite frame s = finish { writeSession .sel1 .tx1 .desel1 frame s with
      res := ({ s.res with count := (callDraw s).limit frame.length } : Res).verdict
        (decide ((callDraw s).limit frame.length = frame.length)) } :=
  writeSession_settled .sel1 .tx1 .desel1 (fun n r => { r with count := n }) hs hk

/-- The second session of a setter, where it does not stall (R150). -/
theorem runWriteBack_live {v : StatusWord} {s : State} (hs : s.stalled = false) (hk : (callDraw s).stalls 3 = false) :
    runWriteBack v s = finish { writeSession .sel2 .tx2 .desel2 (writeStatusFrame v) (enter .modify s) with
      res := ({ s.res with count := (callDraw s).limit 3, val16 := v } : Res).verdict (decide ((callDraw s).limit 3 = 3)) } := by
  have he : callDraw (enter .modify s) = callDraw s ∧ (enter .modify s).res = s.res := by
    rw [enter_live hs]; exact ⟨rfl, rfl⟩
  have hend := writeSession_settled .sel2 .tx2 .desel2 (frame := writeStatusFrame v) (fun n r => { r with count := n, val16 := v })
    (s := enter .modify s) (by rw [enter_live hs]; exact hs) (by rw [he.1]; exact hk)
  rw [he.1, he.2] at hend
  exact hend

/-- The session of a write operation that ended did not stall. -/
theorem not_stalls_of_runWrite {frame : List Byte} {s : State} (hs : s.stalled = false)
    (hlive : (runWrite frame s).stalled = false) : (callDraw s).stalls frame.length = false := by
  cases hk : (callDraw s).stalls frame.length
  case false => rfl
  case true =>
    obtain ⟨he, ht⟩ := writeSession_settled_stalled .sel1 .tx1 .desel1 (fun w r => { r with count := w.n }) hs hk
      (sentAll frame (putRes (fun w r => { r with count := w.n }) (writeSession .sel1 .tx1 .desel1 frame s)).work)
    rw [runWrite, he, ht] at hlive
    cases hlive

theorem not_stalls_of_runWriteBack {v : StatusWord} {s : State} (hs : s.stalled = false)
    (hlive : (runWriteBack v s).stalled = false) : (callDraw s).stalls 3 = false := by
  have hl : (enter .modify s).stalled = false ∧ callDraw (enter .modify s) = callDraw s := by
    rw [enter_live hs]; exact ⟨hs, rfl⟩
  cases hk : (callDraw s).stalls 3
  case false => rfl
  case true =>
    obtain ⟨he, ht⟩ := writeSession_settled_stalled .sel2 .tx2 .desel2 (frame := writeStatusFrame v)
      (fun w r => { r with count := w.n, val16 := v }) hl.1 (by rw [hl.2]; exact hk)
      (sentAll (writeStatusFrame v) (putRes (fun w r => { r with count := w.n, val16 := v })
        (writeSession .sel2 .tx2 .desel2 (writeStatusFrame v) (enter .modify s))).work)
    rw [runWriteBack, he, ht] at hlive
    cases hlive

end Sys2Proof.Machine
end

section
/-!
PROOFS. Two runs side by side (10_state R21): what decides the wire and the chip is the chip, the environment and the number of
the next free value (log 7), so two states that agree on these do the same.
-/

namespace Sys2Proof.Machine

/-! ## The relations -/

/-- Two runs agree on what decides what comes next, and have made the same events since their traces were `a` and `b`. -/
structure Coupled (a b : List BusEvent) (s t : State) : Prop where
  dev : t.dev = s.dev
  env : t.env = s.env
  draws : t.draws = s.draws
  stalled : t.stalled = s.stalled
  trace : ∃ es, s.trace = a ++ es ∧ t.trace = b ++ es

/-- Two coupled runs inside or after a session: the frame in progress is the same too. -/
structure InStep (a b : List BusEvent) (s t : State) : Prop extends Coupled a b s t where
  out : t.work.out = s.work.out
  due : t.work.due = s.work.due
  csN : t.csN = s.csN

variable {a b : List BusEvent} {s t : State}

theorem Coupled.sameAnswers (h : Coupled a b s t) : SameAnswers s t :=
  ⟨h.dev, h.draws, by rw [h.env], by rw [h.env]⟩

theorem Coupled.answer (h : Coupled a b s t) : answer t = answer s := h.sameAnswers.answer

theorem Coupled.callDraw (h : Coupled a b s t) : callDraw t = callDraw s := by
  rw [Machine.callDraw, h.env, Machine.callDraw]

theorem Coupled.secondDraw (h : Coupled a b s t) : secondDraw t = secondDraw s := by
  rw [Machine.secondDraw, h.env, Machine.secondDraw]

theorem Coupled.onDevice (h : Coupled a b s t) (f : Dev → Dev) : onDevice f t = onDevice f s := by
  rw [Machine.onDevice, h.env, h.dev, Machine.onDevice]

/-- One more event in both traces. -/
theorem Coupled.event (h : Coupled a b s t) (e : BusEvent) : ∃ es, s.trace ++ [e] = a ++ es ∧ t.trace ++ [e] = b ++ es := by
  obtain ⟨es, hs, ht⟩ := h.trace
  exact ⟨es ++ [e], by rw [hs, List.append_assoc], by rw [ht, List.append_assoc]⟩

theorem InStep.frame (h : InStep a b s t) : t.work.frame = s.work.frame := by
  rw [Work.frame, h.out, h.due, Work.frame]

/-! ## The acts of a session -/

theorem Coupled.select (h : Coupled a b s t) : InStep a b (select s) (select t) where
  dev := h.onDevice _
  env := h.env
  draws := h.draws
  stalled := h.stalled
  trace := h.event .sel
  out := rfl
  due := rfl
  csN := rfl

theorem Coupled.deselect (h : Coupled a b s t) : InStep a b (deselect s) (deselect t) where
  dev := by
    have hecs : ecsDraw t = ecsDraw s := by rw [ecsDraw, h.env, h.dev, h.draws, ecsDraw]
    rw [deselect_dev, deselect_dev, hecs, h.draws, h.onDevice]
  env := by rw [deselect_env, deselect_env, h.env, h.dev]
  draws := by rw [deselect_draws, deselect_draws, h.draws]
  stalled := h.stalled
  trace := h.event .desel
  out := rfl
  due := rfl
  csN := rfl

theorem Coupled.enter (h : Coupled a b s t) (p : Phase) : Coupled a b (enter p s) (enter p t) := by
  cases hs : s.stalled
  case false =>
    rw [enter_live hs, enter_live (h.stalled.trans hs)]
    exact ⟨h.dev, h.env, h.draws, h.stalled, h.trace⟩
  case true =>
    rw [enter_stalled hs, enter_stalled (h.stalled.trans hs)]
    exact h

theorem enter_work (p : Phase) (s : State) : (enter p s).work = s.work := by
  unfold Machine.enter
  split <;> rfl

theorem enter_csN (p : Phase) (s : State) : (enter p s).csN = s.csN := by
  unfold Machine.enter
  split <;> rfl

theorem InStep.enter (h : InStep a b s t) (p : Phase) : InStep a b (enter p s) (enter p t) where
  toCoupled := h.toCoupled.enter p
  out := by rw [enter_work, enter_work, h.out]
  due := by rw [enter_work, enter_work, h.due]
  csN := by rw [enter_csN, enter_csN, h.csN]

theorem InStep.announce (h : InStep a b s t) (len : Nat) : InStep a b (announce len s) (announce len t) :=
  ⟨⟨h.dev, h.env, h.draws, h.stalled, h.trace⟩, h.out, rfl, h.csN⟩

theorem InStep.release (h : InStep a b s t) : InStep a b (release s) (release t) := by
  unfold Machine.release
  rw [h.stalled]
  split
  · exact h
  · exact h.deselect

/-- An exchange, whatever the call does with the byte that comes in. -/
theorem InStep.exchange (h : InStep a b s t) (o : Byte) {w w' : Work} (hout : w'.out = w.out) (hdue : w'.due = w.due) :
    InStep a b { xchg o s with work := w } { xchg o t with work := w' } where
  dev := h.onDevice _
  env := by show t.env.answered = s.env.answered; rw [h.env]
  draws := by show t.draws + 1 = s.draws + 1; rw [h.draws]
  stalled := h.stalled
  trace := by
    show ∃ es, s.trace ++ [.x o (Machine.answer s)] = _ ∧ t.trace ++ [.x o (Machine.answer t)] = _
    rw [h.answer]
    exact h.event _
  out := hout
  due := hdue
  csN := h.csN

theorem InStep.send (h : InStep a b s t) (os : List Byte) : InStep a b (send os s) (send os t) := by
  induction os generalizing s t with
  | nil => exact h
  | cons o os ih => exact ih (h.exchange o h.out h.due)

theorem InStep.collect (h : InStep a b s t) (k : Nat) : InStep a b (collect k s) (collect k t) := by
  induction k generalizing s t with
  | zero => exact h
  | succ k ih => exact ih (h.exchange _ h.out h.due)

theorem InStep.stallIn (h : InStep a b s t) (o : Byte) (bits : Fin 8) : InStep a b (stallIn o bits s) (stallIn o bits t) :=
  ⟨⟨h.dev, h.env, congrArg (· + 1) h.draws, rfl, h.trace⟩, h.out, h.due, h.csN⟩

theorem InStep.fallShort (h : InStep a b s t) (rest : List Byte) : InStep a b (fallShort rest s) (fallShort rest t) where
  dev := by rw [fallShort_dev, fallShort_dev, h.draws, h.onDevice]
  env := h.env
  draws := congrArg (· + rest.length) h.draws
  stalled := h.stalled
  trace := h.trace
  out := h.out
  due := h.due
  csN := h.csN

theorem InStep.endCall (h : InStep a b s t) (c : CallDraw) (rest payload : List Byte) :
    InStep a b (endCall c rest payload s) (endCall c rest payload t) := by
  cases rest with
  | nil => exact h
  | cons o os =>
    cases c with
    | full | short => exact h.fallShort payload
    | stall n bits => exact h.stallIn o bits

theorem InStep.beginCall (h : InStep a b s t) (os : List Byte) : InStep a b (beginCall os s) (beginCall os t) where
  dev := h.dev
  env := by rw [beginCall_env, beginCall_env, h.env]
  draws := h.draws
  stalled := h.stalled
  trace := h.trace
  out := congrArg (· ++ os) h.out
  due := h.due
  csN := h.csN

/-- What a call keeps of its own is nothing to the step. -/
theorem InStep.ofWork (h : InStep a b s t) {w w' : Work} (hout : w'.out = w.out) (hdue : w'.due = w.due) :
    InStep a b { s with work := w } { t with work := w' } :=
  ⟨⟨h.dev, h.env, h.draws, h.stalled, h.trace⟩, hout, hdue, h.csN⟩

theorem InStep.transfer (h : InStep a b s t) (os : List Byte) : InStep a b (transfer os s) (transfer os t) := by
  have hb := h.beginCall os
  unfold Machine.transfer
  rw [h.stalled, h.callDraw]
  split
  · exact h
  · exact ((hb.ofWork (by exact hb.out) (by exact hb.due)).send _).endCall _ _ _

theorem InStep.receive (h : InStep a b s t) (len : Nat) : InStep a b (receive len s) (receive len t) := by
  have hb := h.beginCall (List.replicate len Config.fill)
  unfold Machine.receive
  rw [h.stalled, h.callDraw]
  split
  · exact h
  · exact ((hb.ofWork (by exact hb.out) (by exact congrArg (· - len) h.due)).collect _).endCall _ _ _

theorem InStep.receivePart (h : InStep a b s t) (hdr : List Byte) (len : Nat) (hn : t.work.n = s.work.n) :
    InStep a b (receivePart hdr len s) (receivePart hdr len t) := by
  unfold Machine.receivePart
  rw [h.stalled, hn]
  split
  · exact h
  · split
    · exact (h.enter .rx1).receive len
    · exact ⟨⟨h.dev, h.env, h.draws, rfl, h.trace⟩, h.out, h.due, h.csN⟩

/-! ## Sessions and operations -/

theorem Coupled.writeSession (h : Coupled a b s t) (sel tx desel : Phase) (frame : List Byte) :
    InStep a b (writeSession sel tx desel frame s) (writeSession sel tx desel frame t) :=
  ((((h.enter sel).select.enter tx).transfer frame).enter desel).release

theorem Coupled.readSession (h : Coupled a b s t) (hs : s.stalled = false) (hdr : List Byte) (len : Nat) :
    InStep a b (readSession hdr len s) (readSession hdr len t) := by
  have h0 := ((h.enter .sel1).select.enter .tx1).announce len
  have hl := (inSession_announce len hs).2
  have hn : ∀ {u}, u.stalled = false → (Machine.transfer hdr u).work.n = (Machine.callDraw u).limit hdr.length :=
    fun hu => (transfer_called hdr hu).2.1
  exact (((h0.transfer hdr).receivePart hdr len (by rw [hn hl, hn (h0.stalled.trans hl), h0.callDraw])).enter .desel1).release

/-- The end of two operations in step, whatever results they write. -/
theorem InStep.settled (h : InStep a b s t) (hs : s.stalled = false → s.ses = .idle) (ht : t.stalled = false → t.ses = .idle)
    (f g : Work → Res → Res) (ok ok' : Bool) :
    InStep a b (settle ok (putRes f s)) (settle ok' (putRes g t)) := by
  cases hst : s.stalled
  case false =>
    have htt := h.stalled.trans hst
    rw [settle_putRes hst (hs hst), settle_putRes htt (ht htt)]
    exact ⟨⟨h.dev, h.env, h.draws, h.stalled, h.trace⟩, h.out, h.due, h.csN⟩
  case true =>
    have htt := h.stalled.trans hst
    rw [putRes_stalled hst, settle_stalled hst, putRes_stalled htt, settle_stalled htt]
    exact h

theorem InStep.endSession (h : InStep a b s t) : InStep a b (endSession s) (endSession t) := by
  unfold Machine.endSession
  rw [h.stalled]
  split
  · exact h
  · exact ⟨⟨h.dev, h.env, h.draws, h.stalled, h.trace⟩, h.out, h.due, h.csN⟩

/-- What a read session receives is the same in coupled runs. -/
theorem Coupled.receivedBytes (h : Coupled a b s t) (hdr : List Byte) (len : Nat) :
    receivedBytes hdr len t = receivedBytes hdr len s := by
  rw [Machine.receivedBytes, h.callDraw, h.secondDraw, h.select.sameAnswers.incoming, Machine.receivedBytes]

/-- A read session that did not stall leaves the same working values in coupled runs. -/
theorem Coupled.readSession_work (h : Coupled a b s t) {hdr : List Byte} {len : Nat} (hs : s.stalled = false)
    (hlive : (Machine.readSession hdr len s).stalled = false) :
    (Machine.readSession hdr len t).work = (Machine.readSession hdr len s).work := by
  have ht := h.stalled.trans hs
  rw [(readSession_live hdr len hs hlive).work,
    (readSession_live hdr len ht ((h.readSession hs hdr len).stalled.trans hlive)).work, h.callDraw, h.receivedBytes]

theorem readSession_rest {hdr : List Byte} {len : Nat} (hs : s.stalled = false)
    (hlive : (readSession hdr len s).stalled = false) : (readSession hdr len s).ses = .idle :=
  (readSession_live hdr len hs hlive).ses

theorem writeSession_rest {sel tx desel : Phase} {frame : List Byte} (hs : s.stalled = false)
    (hlive : (writeSession sel tx desel frame s).stalled = false) : (writeSession sel tx desel frame s).ses = .idle := by
  obtain ⟨-, hst, inc, n, hend, -⟩ := writeSession_cases sel tx desel frame hs
  exact (hend (hst.symm.trans hlive)).ses

/-- A write session and its results, in a write operation or as the second session of a setter. -/
theorem Coupled.writeSettled (h : Coupled a b s t) (hs : s.stalled = false) (sel tx desel : Phase) (frame : List Byte)
    (f : Work → Res → Res) :
    InStep a b
      (settle (sentAll frame (putRes f (Machine.writeSession sel tx desel frame s)).work)
        (putRes f (Machine.writeSession sel tx desel frame s)))
      (settle (sentAll frame (putRes f (Machine.writeSession sel tx desel frame t)).work)
        (putRes f (Machine.writeSession sel tx desel frame t))) :=
  (h.writeSession sel tx desel frame).settled (writeSession_rest hs) (writeSession_rest (h.stalled.trans hs)) f f _ _

theorem Coupled.runWrite (h : Coupled a b s t) (hs : s.stalled = false) (frame : List Byte) :
    InStep a b (runWrite frame s) (runWrite frame t) :=
  h.writeSettled hs .sel1 .tx1 .desel1 frame _

theorem Coupled.runWriteBack (h : Coupled a b s t) (hs : s.stalled = false) (v : StatusWord) :
    InStep a b (runWriteBack v s) (runWriteBack v t) :=
  (h.enter .modify).writeSettled (by rw [enter_live hs]; exact hs) .sel2 .tx2 .desel2 (writeStatusFrame v) _

/-- Two reads of the same frame, whatever registers each of them writes. -/
theorem Coupled.runRead (h : Coupled a b s t) (hs : s.stalled = false) (hdr : List Byte) (len : Nat) (f g : Work → Res → Res) :
    InStep a b (runRead hdr len f s) (runRead hdr len g t) :=
  (h.readSession hs hdr len).settled (readSession_rest hs) (readSession_rest (h.stalled.trans hs)) f g _ _

/-- Two setters in step: what the first session received is the same, and so is the value written back. -/
theorem Coupled.runSetter (h : Coupled a b s t) (hs : s.stalled = false) (f : Field) (arg : BitVec 3) :
    InStep a b (runSetter f arg s) (runSetter f arg t) := by
  have hc := h.enter .check
  have hlive : (Machine.enter .check s).stalled = false := by rw [enter_live hs]; exact hs
  have hlive' := hc.stalled.trans hlive
  have hread := hc.readSession hlive readStatusHeader 2
  have hwork := hc.readSession_work hlive (hdr := readStatusHeader) (len := 2)
  have hrest := readSession_rest hlive (hdr := readStatusHeader) (len := 2)
  have hrest' := readSession_rest hlive' (hdr := readStatusHeader) (len := 2)
  unfold Machine.runSetter
  dsimp only
  generalize Machine.readSession readStatusHeader 2 (Machine.enter .check s) = u at hread hwork hrest ⊢
  generalize Machine.readSession readStatusHeader 2 (Machine.enter .check t) = v at hread hwork hrest' ⊢
  rw [hread.stalled]
  split
  case isTrue => exact hread
  case isFalse hu =>
    rw [Bool.not_eq_true] at hu
    rw [hwork hu]
    split
    case isTrue => exact hread.toCoupled.runWriteBack hu _
    case isFalse => exact hread.settled hrest hrest' _ _ _ _

/-- Every request that uses the bus does the same in coupled runs. -/
theorem BusRun.inStep {n : Nat} {run : State → State} (hr : BusRun n run) (h : Coupled a b s t) (hs : s.stalled = false) :
    InStep a b (run s) (run t) := by
  cases hr with
  | writeOp c os => exact h.runWrite hs _
  | readOp c os len f => exact h.runRead hs _ _ _ _
  | setter f arg => exact h.runSetter hs f arg
  | writeFrame c os => exact (h.writeSession _ _ _ _).endSession
  | readFrame c os len => exact (h.readSession hs _ _).endSession

/-! ## The agreement of R21 -/

theorem Agree.coupled (h : Agree s t) : Coupled s.trace t.trace s t :=
  ⟨h.dev, h.env, h.draws, h.stalled, [], (List.append_nil _).symm, (List.append_nil _).symm⟩

theorem Agree.heldOff (h : Agree s t) : t.heldOff = s.heldOff := by
  rw [State.heldOff, h.busy, h.stalled, State.heldOff]

theorem Agree.ready (h : Agree s t) (hs : s.ready) : t.ready :=
  ⟨h.busy.trans hs.1, h.stalled.trans hs.2.1, h.ses.trans hs.2.2⟩

theorem Agree.dropInput (h : Agree s t) : Agree (dropInput s) (dropInput t) :=
  { h with inputs := congrArg List.tail h.inputs }

/-- Two runs in step that have both come to their end, or both hang, agree. -/
theorem InStep.agree {u v : State} {n m : Nat} (h : InStep a b u v) (hin : t.inputs = s.inputs) (hu : Concluded n m s u)
    (hv : Concluded n m t v) : Agree u v := by
  have hsb : v.ses = u.ses ∧ v.busy = u.busy := by
    rcases hu.ends with ⟨e1, -, e2, e3, -⟩ | ⟨e1, -, e2, e3, -⟩ <;>
      rcases hv.ends with ⟨k1, -, k2, k3, -⟩ | ⟨k1, -, k2, k3, -⟩
    · exact ⟨k2.trans e2.symm, k3.trans e3.symm⟩
    · rw [h.stalled, e1] at k1; cases k1
    · rw [h.stalled, e1] at k1; cases k1
    · exact ⟨k2.trans e2.symm, k3.trans e3.symm⟩
  exact ⟨h.dev, h.env, h.draws, (hv.inputs.trans hin).trans hu.inputs.symm, h.csN, hsb.1, hsb.2, h.stalled, h.frame⟩

/-- What the command and result registers hold, and where the sequencer stands, is nothing to the agreement. -/
theorem Agree.finish (h : Agree s t) (r r' : Res) : Agree (finish { s with res := r }) (finish { t with res := r' }) :=
  { h with busy := rfl }

theorem Agree.accept (h : Agree s t) (f : Cmd → Cmd) : Agree (accept f s) (accept f t) :=
  { h with busy := rfl }

theorem Agree.deselect (h : Agree s t) : Agree (deselect s) (deselect t) := by
  have hd := h.coupled.deselect
  exact ⟨hd.dev, hd.env, hd.draws, h.inputs, rfl, rfl, h.busy, h.stalled, rfl⟩

/-- `raise` with a session open closes it (R186). -/
theorem raise_selected (h : s.ses = .selected) (k : ErrKind) :
    raise k s = finish { Machine.deselect s with res := s.res.fail k } := by
  simp only [raise, h, if_true]
  rfl

/-- The rejection with a session open, a state PSS never is in (R105 d). -/
theorem reject_selected (hs : s.stalled = false) (hsel : s.ses = .selected) :
    reject s = Machine.finish { Machine.deselect s with res := { s.res with ok := false, err := .invalidArgument, count := 0 } } := by
  rw [reject, enter_live hs, putRes_live (by exact hs), raise_selected (by exact hsel)]
  rfl

/-- Two states agree and have made the same events since. -/
def AgreeSince (s t s' t' : State) : Prop :=
  Agree s' t' ∧ ∃ es, s'.trace = s.trace ++ es ∧ t'.trace = t.trace ++ es

/-- A request that uses no bus keeps the agreement, whatever the session state. -/
theorem BuslessRun.agreeSince {run : State → State} (hr : BuslessRun run) (h : Agree s t) (hs : s.stalled = false) :
    AgreeSince s t (run s) (run t) := by
  have ht := h.stalled.trans hs
  cases hr with
  | rejection =>
    cases hses : s.ses
    case idle =>
      rw [reject_idle hs hses, reject_idle ht (h.ses.trans hses)]
      exact ⟨h.finish _ _, [], (List.append_nil _).symm, (List.append_nil _).symm⟩
    case selected =>
      rw [reject_selected hs hses, reject_selected ht (h.ses.trans hses)]
      exact ⟨h.deselect.finish _ _, [.desel], rfl, rfl⟩
  | decoding v =>
    dsimp only
    rw [putRes_live hs, putRes_live ht]
    exact ⟨h.finish _ _, [], (List.append_nil _).symm, (List.append_nil _).symm⟩

/-- An operation or frame that does not stop keeps the agreement. -/
theorem exec_agreeSince {i : Instr} (hi : isHostOp i = true ∨ isFrame i = true) {s' : State} (h : Agree s t)
    (hidle : s.heldOff = false) (he : exec i s = .next s') : ∃ t', exec i t = .next t' ∧ AgreeSince s t s' t' := by
  have hst : s.stalled = false := by
    simp only [State.heldOff, Bool.or_eq_false_iff] at hidle
    exact hidle.2
  have hbusy : s.busy = false := by
    simp only [State.heldOff, Bool.or_eq_false_iff] at hidle
    exact hidle.1
  cases exec_shape hi with
  | bus f hm hr hexec =>
    have hready : s.ready := by
      refine ⟨hbusy, hst, ?_⟩
      cases hses : s.ses
      · rfl
      · rw [hexec, onBus, hidle, hses] at he; cases he
    rw [hexec, onBus_ready hready] at he
    cases he
    refine ⟨_, (hexec t).trans (onBus_ready (h.ready hready) _ _), ?_⟩
    have ha := h.accept f
    have hstep := hr.inStep ha.coupled hst
    exact ⟨hstep.agree h.inputs (hr.concluded (s := accept f s) rfl hst).ofAccept
      (hr.concluded (s := accept f t) rfl (ha.stalled.trans hst)).ofAccept, hstep.trace⟩
  | busless f hr hexec =>
    rw [hexec, offBus_idle hbusy hst] at he
    cases he
    exact ⟨_, (hexec t).trans (offBus_idle (h.busy.trans hbusy) (h.stalled.trans hst) _ _), hr.agreeSince (h.accept f) hst⟩

theorem AgreeSince.refl (h : Agree s t) : AgreeSince s t s t :=
  ⟨h, [], (List.append_nil _).symm, (List.append_nil _).symm⟩

/-- A reset of PSS keeps the agreement, since it looks at the frame in progress alone (R210). -/
theorem Agree.pssReset (h : Agree s t) : Agree (pssReset s) (pssReset t) where
  dev := by
    simp only [Machine.pssReset]
    rw [h.ses, h.frame, h.draws, h.coupled.onDevice, h.dev]
  env := h.env
  draws := by
    show t.draws + t.work.frame.length + 1 = s.draws + s.work.frame.length + 1
    rw [h.draws, h.frame]
  inputs := h.inputs
  csN := rfl
  ses := rfl
  busy := rfl
  stalled := rfl
  frame := rfl

theorem Agree.powerUp (h : Agree s t) : Agree (powerUp s) (powerUp t) :=
  { h with dev := congrArg Dev.powerUp h.draws, draws := congrArg (· + 1) h.draws }

/-! ## The obligations -/

/-- Settles O52: each of the five acts of a step keeps the agreement. -/
theorem stepKeepsAgreement : Obligations.StepKeepsAgreement := by
  intro s t s' h hstep
  have hkeep : ∀ {u v : State}, step t = .next v → AgreeSince s t u v → ∃ t', step t = .next t' ∧ Agree u t' ∧
      ((∃ es, u.trace = s.trace ++ es ∧ t'.trace = t.trace ++ es) ∨ (u.trace = [] ∧ t'.trace = [])) :=
    fun hv hu => ⟨_, hv, hu.1, .inl hu.2⟩
  cases hin : s.inputs with
  | nil =>
    rw [step_noInput hin] at hstep
    cases hstep
    exact hkeep (step_noInput (h.inputs.trans hin)) (.refl h)
  | cons x rest =>
    have hin' := h.inputs.trans hin
    have hd := h.dropInput
    cases x with
    | request c =>
      cases hf : s.heldOff
      case true =>
        rw [step_request_heldOff hin hf] at hstep
        cases hstep
        exact hkeep (step_request_heldOff hin' (h.heldOff.trans hf)) (.refl h)
      case false =>
        cases hc : decode c with
        | bad e => rw [step_undecodable hin hf hc] at hstep; cases hstep
        | instr i =>
          rw [step_request hin hf hc] at hstep
          rcases decode_kinds hc with hi | hrefused
          · obtain ⟨t', he, ht'⟩ := exec_agreeSince hi hd hf hstep
            exact hkeep ((step_request hin' (h.heldOff.trans hf) hc).trans he) ht'
          · obtain ⟨r, hr⟩ := hrefused (dropInput s)
            rw [hr] at hstep
            cases hstep
    | buffer bytes =>
      cases hf : s.heldOff
      case true =>
        rw [step_buffer_heldOff hin hf] at hstep
        cases hstep
        exact hkeep (step_buffer_heldOff hin' (h.heldOff.trans hf)) (.refl h)
      case false =>
        rw [step_buffer hin hf] at hstep
        cases hstep
        exact hkeep (step_buffer hin' (h.heldOff.trans hf)) ⟨{ hd with }, (AgreeSince.refl h).2⟩
    | reset =>
      rw [step_reset hin] at hstep
      cases hstep
      exact ⟨_, step_reset hin', hd.pssReset, .inr ⟨rfl, rfl⟩⟩
    | powerUp =>
      rw [step_powerUp hin] at hstep
      cases hstep
      exact hkeep (step_powerUp hin') ⟨hd.powerUp, (AgreeSince.refl h).2⟩

end Sys2Proof.Machine
end

section
/-!
PROOFS. What an operation reports, as a function of what it received and what it could send; and that nothing else carries over
from one operation to the next (10_state R16, R17, R21).
-/

namespace Sys2Proof.Machine

variable {a b : List BusEvent} {s t : State}

/-! ## The three ways of a setter (R150) -/

theorem coupled_enter (hs : s.stalled = false) (p : Phase) : Coupled [] [] s (enter p s) := by
  rw [enter_live hs]
  exact ⟨rfl, rfl, rfl, rfl, s.trace, rfl, rfl⟩

/-- The first session of a setter. -/
def setterRead (s : State) : State := readSession readStatusHeader 2 (enter .check s)

/-- Both bytes of the register were received. -/
def statusReceived (s : State) : Bool :=
  decide ((callDraw s).limit 1 = 1) && decide ((receivedBytes readStatusHeader 2 s).length = 2)

/-- What the first session of a setter leaves, if it does not stall. -/
theorem setterRead_live (hs : s.stalled = false) (ht : (setterRead s).stalled = false) :
    ReadEnded readStatusHeader 2 s (setterRead s) := by
  have hlive : (enter .check s).stalled = false := by rw [enter_live hs]; exact hs
  have hc := coupled_enter hs .check
  have h := readSession_live readStatusHeader 2 hlive ht
  refine ⟨h.ses, h.res.trans ?_, h.work.trans ?_⟩
  · rw [enter_live hs]
  · rw [hc.callDraw, hc.receivedBytes]

theorem runSetter_stalled {f : Field} {arg : BitVec 3} (ht : (setterRead s).stalled = true) :
    runSetter f arg s = setterRead s :=
  if_pos ht

/-- A setter whose read failed writes nothing back (D11). -/
theorem runSetter_readFailed {f : Field} {arg : BitVec 3} (hs : s.stalled = false) (ht : (setterRead s).stalled = false)
    (hr : statusReceived s = false) :
    runSetter f arg s = finish { setterRead s with
      res := ({ s.res with count := 0, val16 := receivedStatus (receivedBytes readStatusHeader 2 s) } : Res).verdict false } := by
  have h := setterRead_live hs ht
  have hall : receivedAll readStatusHeader 2 (setterRead s).work = false := by rw [h.work]; exact hr
  unfold runSetter
  dsimp only
  rw [← setterRead, if_neg (by rw [ht]; decide), if_neg (by rw [hall]; decide), settle_putRes ht h.ses, h.work, h.res]

/-- A setter whose read succeeded writes back the value with the field inserted. -/
theorem runSetter_read {f : Field} {arg : BitVec 3} (hs : s.stalled = false) (ht : (setterRead s).stalled = false)
    (hr : statusReceived s = true) :
    runSetter f arg s = runWriteBack
      (insertField f (receivedStatus (receivedBytes readStatusHeader 2 s)) (arg.setWidth 16)) (setterRead s) := by
  have h := setterRead_live hs ht
  have hall : receivedAll readStatusHeader 2 (setterRead s).work = true := by rw [h.work]; exact hr
  unfold runSetter
  dsimp only
  rw [← setterRead, if_neg (by rw [ht]; decide), if_pos hall, h.work]

/-! ## Results of coupled runs -/

theorem runWrite_alike (h : Coupled a b s t) (hs : s.stalled = false) {frame : List Byte}
    (hlive : (runWrite frame s).stalled = false) :
    ∃ n ok, (runWrite frame s).res = ({ s.res with count := n } : Res).verdict ok ∧
      (runWrite frame t).res = ({ t.res with count := n } : Res).verdict ok := by
  have hk := not_stalls_of_runWrite hs hlive
  have hk' : (callDraw t).stalls frame.length = false := by rw [h.callDraw, hk]
  refine ⟨_, _, by rw [runWrite_live hs hk, finish_res], ?_⟩
  rw [runWrite_live (h.stalled.trans hs) hk', finish_res, h.callDraw]

theorem runRead_alike (h : Coupled a b s t) (hs : s.stalled = false) {hdr : List Byte} {len : Nat}
    {f g : Work → Res → Res} (hlive : (runRead hdr len f s).stalled = false) :
    ∃ w ok, (ok = true → w.r.length = len) ∧ (runRead hdr len f s).res = (f w s.res).verdict ok ∧
      (runRead hdr len g t).res = (g w t.res).verdict ok := by
  have hk : (readSession hdr len s).stalled = false := by
    cases hk : (readSession hdr len s).stalled
    case false => rfl
    case true => rw [runRead_stalled f hk, hk] at hlive; cases hlive
  refine ⟨⟨(callDraw s).limit hdr.length, receivedBytes hdr len s, [], 0⟩, _, fun hok => ?_,
    by rw [runRead_live f hs hk, finish_res], ?_⟩
  · rw [Bool.and_eq_true, decide_eq_true_iff, decide_eq_true_iff] at hok
    exact hok.2
  rw [runRead_live g (h.stalled.trans hs) ((h.readSession hs hdr len).stalled.trans hk), finish_res, h.callDraw,
    h.receivedBytes]

theorem runWriteBack_alike (h : Coupled a b s t) (hs : s.stalled = false) {v : StatusWord}
    (hlive : (runWriteBack v s).stalled = false) :
    ∃ n ok, (runWriteBack v s).res = ({ s.res with count := n, val16 := v } : Res).verdict ok ∧
      (runWriteBack v t).res = ({ t.res with count := n, val16 := v } : Res).verdict ok := by
  have hk := not_stalls_of_runWriteBack hs hlive
  have hk' : (callDraw t).stalls 3 = false := by rw [h.callDraw, hk]
  refine ⟨_, _, by rw [runWriteBack_live hs hk, finish_res], ?_⟩
  rw [runWriteBack_live (h.stalled.trans hs) hk', finish_res, h.callDraw]

theorem runSetter_alike (h : Coupled a b s t) (hs : s.stalled = false) {f : Field} {arg : BitVec 3}
    (hlive : (runSetter f arg s).stalled = false) :
    ∃ n v ok, (runSetter f arg s).res = ({ s.res with count := n, val16 := v } : Res).verdict ok ∧
      (runSetter f arg t).res = ({ t.res with count := n, val16 := v } : Res).verdict ok := by
  have ht := h.stalled.trans hs
  have hstep : InStep a b (setterRead s) (setterRead t) :=
    (h.enter .check).readSession (by rw [enter_live hs]; exact hs) readStatusHeader 2
  have hrec : receivedBytes readStatusHeader 2 t = receivedBytes readStatusHeader 2 s := h.receivedBytes _ _
  have hall : statusReceived t = statusReceived s := by rw [statusReceived, h.callDraw, hrec, statusReceived]
  cases hu : (setterRead s).stalled
  case true => rw [runSetter_stalled hu, hu] at hlive; cases hlive
  case false =>
    have hv := hstep.stalled.trans hu
    cases hr : statusReceived s
    case false =>
      exact ⟨_, _, false, by rw [runSetter_readFailed hs hu hr, finish_res],
        by rw [runSetter_readFailed ht hv (hall.trans hr), finish_res, hrec]⟩
    case true =>
      rw [runSetter_read hs hu hr] at hlive
      obtain ⟨n, ok, e1, e2⟩ := runWriteBack_alike hstep.toCoupled hu hlive
      rw [(setterRead_live hs hu).res] at e1
      rw [(setterRead_live ht hv).res] at e2
      exact ⟨n, _, ok, by rw [runSetter_read hs hu hr, e1], by rw [runSetter_read ht hv (hall.trans hr), hrec, e2]⟩

/-! ## The obligations -/

/-- Two verdicts over reports that agree on the registers written agree on them. -/
theorem sameReport_verdict {i : Instr} {r r' : Res} (ok : Bool) (hc : (writesOf i).count = true → r'.count = r.count)
    (h8 : (writesOf i).val8 = true → r'.val8 = r.val8) (h16 : (writesOf i).val16 = true → r'.val16 = r.val16)
    (hf : (writesOf i).fields = true → r'.fields = r.fields)
    (hb : (writesOf i).rbuf = true → r'.rbuf.take r.count = r.rbuf.take r.count) :
    SameReport i (r.verdict ok) (r'.verdict ok) := by
  cases ok <;> exact ⟨rfl, rfl, hc, h8, h16, hf, hb⟩

theorem Coupled.accept (h : Coupled a b s t) (f g : Cmd → Cmd) : Coupled a b (accept f s) (accept g t) :=
  ⟨h.dev, h.env, h.draws, h.stalled, h.trace⟩

section
variable {i : Instr} {s' t' : State}

theorem next_of_onBus {f : Cmd → Cmd} {run : State → State} (he : ∀ s, exec i s = onBus f run s) (hs : s.ready)
    (hs' : exec i s = .next s') : s' = run (accept f s) := by
  rw [he, onBus_ready hs] at hs'
  cases hs'
  rfl

theorem next_of_offBus {f : Cmd → Cmd} {run : State → State} (he : ∀ s, exec i s = offBus f run s) (hs : s.ready)
    (hs' : exec i s = .next s') : s' = run (accept f s) := by
  rw [he, offBus_idle hs.1 hs.2.1] at hs'
  cases hs'
  rfl

variable (h : Coupled a b s t) (hs : s.ready) (ht : t.ready) (hs' : exec i s = .next s') (ht' : exec i t = .next t')
include h hs ht hs' ht'

theorem write_sameReport {f : Cmd → Cmd} {frame : List Byte} (he : ∀ s, exec i s = onBus f (runWrite frame) s)
    (hw : writesOf i = ⟨true, false, false, false, false⟩) (hlive : s'.stalled = false) : SameReport i s'.res t'.res := by
  obtain rfl := next_of_onBus he hs hs'
  obtain rfl := next_of_onBus he ht ht'
  obtain ⟨n, ok, e1, e2⟩ := runWrite_alike (h.accept f f) hs.2.1 hlive
  rw [e1, e2]
  exact sameReport_verdict ok (fun _ => rfl) (by rw [hw]; nofun) (by rw [hw]; nofun) (by rw [hw]; nofun) (by rw [hw]; nofun)

theorem read_sameReport {f : Cmd → Cmd} {hdr : List Byte} {len : Nat} {g : Work → Res → Res}
    (he : ∀ s, exec i s = onBus f (runRead hdr len g) s)
    (hg : ∀ w r r' ok, SameReport i ((g w r).verdict ok) ((g w r').verdict ok)) (hlive : s'.stalled = false) :
    SameReport i s'.res t'.res := by
  obtain rfl := next_of_onBus he hs hs'
  obtain rfl := next_of_onBus he ht ht'
  obtain ⟨w, ok, -, e1, e2⟩ := runRead_alike (h.accept f f) hs.2.1 (g := g) hlive
  rw [e1, e2]
  exact hg _ _ _ _

omit h in
theorem reject_sameReport {f : Cmd → Cmd} (he : ∀ s, exec i s = offBus f reject s)
    (hw : writesOf i = ⟨true, false, false, false, false⟩) : SameReport i s'.res t'.res := by
  obtain rfl := next_of_offBus he hs hs'
  obtain rfl := next_of_offBus he ht ht'
  rw [reject_idle (by exact hs.2.1) (by exact hs.2.2), reject_idle (by exact ht.2.1) (by exact ht.2.2)]
  exact ⟨rfl, rfl, fun _ => rfl, by rw [hw]; nofun, by rw [hw]; nofun, by rw [hw]; nofun, by rw [hw]; nofun⟩

/-- Two setters, valid or not. -/
theorem setter_sameReport {op : BitVec 4} {f : Field} {arg : BitVec 3} (he : ∀ s, exec i s = setter op f arg s)
    (hw : writesOf i = ⟨true, false, argValid f arg, false, false⟩) (hlive : s'.stalled = false) :
    SameReport i s'.res t'.res := by
  cases ha : argValid f arg
  case true =>
    have he' : ∀ s, exec i s = onBus (fun c => { c with op := op, arg := arg }) (runSetter f arg) s :=
      fun s => (he s).trans (if_pos ha)
    obtain rfl := next_of_onBus he' hs hs'
    obtain rfl := next_of_onBus he' ht ht'
    obtain ⟨n, v, ok, e1, e2⟩ := runSetter_alike (h.accept _ _) hs.2.1 hlive
    rw [e1, e2]
    exact sameReport_verdict ok (fun _ => rfl) (by rw [hw]; nofun) (fun _ => rfl) (by rw [hw]; nofun) (by rw [hw]; nofun)
  case false =>
    have he' : ∀ s, exec i s = offBus (fun c => { c with op := op, arg := arg }) reject s :=
      fun s => (he s).trans (if_neg (by rw [ha]; decide))
    exact reject_sameReport hs ht hs' ht' he' (by rw [hw, ha])

/-- A host operation that ends has put the same values into every register it writes (R16, R21). -/
theorem exec_sameReport (hi : isHostOp i = true) (hlive : s'.stalled = false) : SameReport i s'.res t'.res := by
  cases i with
  | writeByte | sequentialWrite | setStatus => exact write_sameReport h hs ht hs' ht' (fun _ => rfl) rfl hlive
  | readByte =>
    refine read_sameReport h hs ht hs' ht' (fun _ => rfl) (fun w r r' ok => ?_) hlive
    exact sameReport_verdict ok (fun _ => rfl) (fun _ => rfl) nofun nofun nofun
  | sequentialRead =>
    refine read_sameReport h hs ht hs' ht' (fun _ => rfl) (fun w r r' ok => ?_) hlive
    refine sameReport_verdict ok (fun _ => rfl) nofun nofun nofun fun _ => ?_
    exact (List.take_left' rfl).trans (List.take_left' rfl).symm
  | getStatus =>
    refine read_sameReport h hs ht hs' ht' (fun _ => rfl) (fun w r r' ok => ?_) hlive
    exact sameReport_verdict ok (fun _ => rfl) nofun (fun _ => rfl) nofun nofun
  | setMode | setPageSize | setSlewRate | setDriveStrength =>
    exact setter_sameReport h hs ht hs' ht' (fun _ => rfl) rfl hlive
  | decodeStatus v =>
    rw [exec_decodeStatus_idle v hs.1 hs.2.1] at hs'
    rw [exec_decodeStatus_idle v ht.1 ht.2.1] at ht'
    cases hs'
    cases ht'
    exact ⟨rfl, rfl, nofun, nofun, nofun, fun _ => rfl, nofun⟩
  | reservedOpB | reservedOpCToF => exact reject_sameReport hs ht hs' ht' (fun _ => rfl) rfl
  | _ => cases hi

end

/-- Coupled ready states do the same. -/
theorem exec_coupled {i : Instr} (hi : isHostOp i = true ∨ isFrame i = true) (h : Coupled a b s t) (hs : s.ready) (ht : t.ready) :
    ∃ s' t', exec i s = .next s' ∧ exec i t = .next t' ∧ Coupled a b s' t' := by
  cases exec_shape hi with
  | bus f hm hr he =>
    exact ⟨_, _, (he s).trans (onBus_ready hs _ _), (he t).trans (onBus_ready ht _ _), (hr.inStep (h.accept f f) hs.2.1).toCoupled⟩
  | busless f hr he =>
    refine ⟨_, _, (he s).trans (offBus_idle hs.1 hs.2.1 _ _), (he t).trans (offBus_idle ht.1 ht.2.1 _ _), ?_⟩
    cases hr with
    | rejection =>
      rw [reject_idle (by exact hs.2.1) (by exact hs.2.2), reject_idle (by exact ht.2.1) (by exact ht.2.2)]
      exact ⟨h.dev, h.env, h.draws, h.stalled, h.trace⟩
    | decoding v =>
      dsimp only
      rw [putRes_live (by exact hs.2.1), putRes_live (by exact ht.2.1)]
      exact ⟨h.dev, h.env, h.draws, h.stalled, h.trace⟩

/-- Settles O51: the two states are coupled, and an operation from them does and reports the same. -/
theorem nothingCarriesOverBetweenOperations : Obligations.NothingCarriesOverBetweenOperations := by
  intro i s t hi hs ht hdev henv hdraws
  have h : Coupled s.trace t.trace s t :=
    ⟨hdev, henv, hdraws, ht.2.1.trans hs.2.1.symm, [], (List.append_nil _).symm, (List.append_nil _).symm⟩
  obtain ⟨s', t', hs', ht', h'⟩ := exec_coupled hi h hs ht
  obtain ⟨es, hes, hes'⟩ := h'.trace
  refine ⟨s', t', es, hs', ht', h'.dev, h'.env, h'.draws, h'.stalled, hes, hes', fun hlive => ?_,
    fun hhost hlive => exec_sameReport h hs ht hs' ht' hhost hlive⟩
  have hend : ∀ {s s' : State}, s.ready → exec i s = .next s' → s'.stalled = false → s'.ready := by
    intro s s' hs hs' hl
    obtain ⟨u, he, hu⟩ := exec_concluded hi hs
    rw [he] at hs'
    cases hs'
    rcases hu.ends with ⟨-, -, e1, e2, -⟩ | ⟨e, -⟩
    · exact ⟨e2, hl, e1⟩
    · rw [hl] at e; cases e
  exact ⟨hend hs hs' hlive, hend ht ht' (h'.stalled.trans hlive)⟩

/-! ## One byte: two operations, one frame (R79) -/

/-- Two operations that take the same state differ in the command registers alone. -/
theorem coupled_accept (f g : Cmd → Cmd) (s : State) : Coupled s.trace s.trace (accept f s) (accept g s) :=
  ⟨rfl, rfl, rfl, rfl, [], (List.append_nil _).symm, (List.append_nil _).symm⟩

theorem InStep.trace_eq {u v : State} (h : InStep s.trace s.trace u v) : u.trace = v.trace := by
  obtain ⟨es, hu, hv⟩ := h.trace
  rw [hu, hv]

/-- A request that hangs has written no result. -/
theorem BusRun.res_of_stalled {n : Nat} {run : State → State} (hr : BusRun n run) (hb : s.busy = true) (hs : s.stalled = false)
    (ht : (run s).stalled = true) : (run s).res = s.res := by
  rcases (hr.concluded hb hs).ends with ⟨e, -⟩ | ⟨-, -, -, -, e⟩
  · rw [ht] at e; cases e
  · exact e

theorem writes_share {frame : List Byte} {n : Nat} (hr : BusRun n (runWrite frame)) (f g : Cmd → Cmd) (hs : s.ready) :
    InStep s.trace s.trace (runWrite frame (accept f s)) (runWrite frame (accept g s)) ∧
      (runWrite frame (accept f s)).res = (runWrite frame (accept g s)).res := by
  have h := coupled_accept f g s
  have hstep := h.runWrite hs.2.1 frame
  refine ⟨hstep, ?_⟩
  cases hlive : (runWrite frame (accept f s)).stalled
  case false =>
    obtain ⟨n, ok, e1, e2⟩ := runWrite_alike h hs.2.1 hlive
    rw [e1, e2]
    rfl
  case true =>
    exact (hr.res_of_stalled (s := accept f s) rfl hs.2.1 hlive).trans
      (hr.res_of_stalled (s := accept g s) rfl hs.2.1 (hstep.stalled.trans hlive)).symm

/-- What read_byte reports (R122). -/
def byteReport (w : Work) (r : Res) : Res := { r with count := w.r.length, val8 := receivedByte w.r 0 }

/-- What sequential_read reports (R123). -/
def bufferReport (w : Work) (r : Res) : Res := { r with count := w.r.length, rbuf := fillBuffer w.r r.rbuf }

theorem reads_share (A : Address) (f g : Cmd → Cmd) (hs : s.ready) :
    let t := runRead (readHeader A) 1 byteReport (accept f s)
    let u := runRead (readHeader A) 1 bufferReport (accept g s)
    InStep s.trace s.trace t u ∧ t.res.ok = u.res.ok ∧ t.res.count = u.res.count ∧
      (t.stalled = false → t.res.ok = true → u.res.rbuf = t.res.val8 :: s.res.rbuf.drop 1) := by
  intro t u
  have h := coupled_accept f g s
  have hstep : InStep s.trace s.trace t u := h.runRead hs.2.1 (readHeader A) 1 byteReport bufferReport
  refine ⟨hstep, ?_⟩
  cases hlive : t.stalled
  case false =>
    obtain ⟨w, ok, hok, e1, e2⟩ := runRead_alike h hs.2.1 (g := bufferReport) hlive
    rw [show t.res = _ from e1, show u.res = _ from e2]
    cases ok with
    | false => exact ⟨rfl, rfl, nofun⟩
    | true =>
      refine ⟨rfl, rfl, fun _ _ => ?_⟩
      obtain ⟨v, hv⟩ := List.length_eq_one_iff.mp (hok rfl)
      simp [Res.verdict, Res.succeed, byteReport, bufferReport, fillBuffer, receivedByte, hv]
  case true =>
    have ht : BusRun 5 (runRead (readHeader A) 1 byteReport) := .readOp codeRead [_, _, _] 1 _ rfl fun _ _ => rfl
    have hu : BusRun 5 (runRead (readHeader A) 1 bufferReport) := .readOp codeRead [_, _, _] 1 _ rfl fun _ _ => rfl
    rw [show t.res = s.res from ht.res_of_stalled (s := accept f s) rfl hs.2.1 hlive,
      show u.res = s.res from hu.res_of_stalled (s := accept g s) rfl hs.2.1 (hstep.stalled.trans hlive)]
    exact ⟨rfl, rfl, nofun⟩

/-- Settles O45: the two operations of each pair run the same frame from states that differ in CMD alone. -/
theorem oneByteOperationsShareTheirFrame : Obligations.OneByteOperationsShareTheirFrame := by
  intro A s hs
  refine ⟨fun V => ?_, ?_⟩
  · have hr : BusRun 5 (runWrite (writeFrame A [V])) := .writeOp codeWrite [_, _, _, _] rfl
    obtain ⟨h, hres⟩ := writes_share hr (fun c => { c with op := 0x0, addr := A, val8 := V })
      (fun c => { c with op := 0x1, addr := A, len := 1, wdata := [V] }) hs
    exact ⟨_, _, onBus_ready hs _ _, onBus_ready hs _ _, h.trace_eq, h.dev.symm, hres, h.stalled.symm⟩
  · obtain ⟨h, hok, hcount, hbuf⟩ := reads_share A (fun c => { c with op := 0x2, addr := A })
      (fun c => { c with op := 0x3, addr := A, len := 1 }) hs
    exact ⟨_, _, onBus_ready hs _ _, onBus_ready hs _ _, h.trace_eq, h.dev.symm, hok, hcount, h.stalled.symm, hbuf⟩

end Sys2Proof.Machine
end

section
/-!
PROOFS. The chip's side of a frame's first bytes, of a status write and of a cut frame (20_memory section 7), and what a reset of
PSS and a power-up of the chip leave (70_reset_and_hazards R210, R211).
-/

namespace Sys2Proof.Machine

/-! ## The pointer and the array's addresses -/

theorem nextPtr_sequential (page : BitVec 1) (p : Location) :
    (nextPtr modeSequential page p).toNat = (p.toNat + 1) % arraySize := by
  rw [nextPtr, if_pos rfl, BitVec.toNat_add]
  rfl

/-- The location of an address field: its low 19 bits (R53, D18). -/
theorem locationOf_toNat (ah am al : Byte) :
    (locationOf ah am al).toNat = (ah.toNat * 65536 + am.toNat * 256 + al.toNat) % arraySize := by
  have h1 := am.isLt
  have h2 := al.isLt
  have h3 : ah.toNat <<< 8 ||| am.toNat = ah.toNat * 256 + am.toNat := by
    rw [← Nat.shiftLeft_add_eq_or_of_lt h1, Nat.shiftLeft_eq]
  have h4 : (ah.toNat * 256 + am.toNat) <<< 8 ||| al.toNat = (ah.toNat * 256 + am.toNat) * 256 + al.toNat := by
    rw [← Nat.shiftLeft_add_eq_or_of_lt h2, Nat.shiftLeft_eq]
  rw [locationOf, joinAddress, BitVec.toNat_setWidth, BitVec.toNat_append, BitVec.toNat_append, h3, h4]
  show _ % 524288 = _ % 524288
  omega

/-- The code of an array frame in the given direction (R70). -/
def Dir.code : Dir → Byte
  | .write => codeWrite
  | .read => codeRead

/-- A started SPI frame takes in the code and any three address bytes (R57). -/
theorem Dev.exchanges_addressBytes (d : Dev) (k : Dir) (ah am al : Byte) (hp : protocolOf d.config = protocolSpi)
    (hm : modeOf d.config ≠ modeReserved) :
    d.startFrame.exchanges [k.code, ah, am, al] =
      { d with frm := .data k, fetched := .nothing, ptr := locationOf ah am al } := by
  cases k <;>
    simp [Dir.code, Dev.startFrame, hp, Dev.exchange, Dev.afterCode, Dev.arrayFrame, hm, codeWrite, codeRead]

/-- Settles O9. -/
theorem sequentialPointerAdvances : Obligations.SequentialPointerAdvances := nextPtr_sequential

/-- Settles O10: the chip after the four bytes is known, and only its frame position and pointer have moved. -/
theorem headerLoadsPointer : Obligations.HeaderLoadsPointer := by
  intro d k ah am al hp hm
  have h := Dev.exchanges_addressBytes d k ah am al hp hm
  cases k <;>
  · intro c e
    have he : e = _ := h
    rw [he]
    exact ⟨locationOf_toNat ah am al, rfl, rfl, fun _ => rfl⟩

/-! ## The register bit by bit (R22, R64) -/

/-- ECS's mask has bit 13 alone (R22). -/
theorem Field.not_mem_ecs_mask {i : Nat} (h : i ≠ 13) : Field.ecs.mask.getLsbD i = false := by
  rw [Field.mask_getLsbD, decide_eq_false_iff_not]
  simp only [Field.shift, Field.width]
  omega

/-- The whole register: ECS from its own place, every other bit from the rest. -/
theorem Dev.status_getLsbD (d : Dev) (i : Nat) :
    d.status.getLsbD i = if i = 13 then d.ecs.getLsbD 0 else d.config.getLsbD i := by
  rw [Dev.status, insertField_getLsbD]
  by_cases hi : i = 13
  · subst hi
    simp [Field.mask, Field.shift]
  · simp [Field.not_mem_ecs_mask hi, hi]

/-- A mask without ECS's place sees of the register its configuration alone. -/
theorem Dev.status_and_of_ecs {m : StatusWord} (h : m.getLsbD 13 = false) (d : Dev) : d.status &&& m = d.config &&& m := by
  apply BitVec.eq_of_getLsbD_eq
  intro i _
  rw [BitVec.getLsbD_and, BitVec.getLsbD_and, Dev.status_getLsbD]
  split
  next hi => rw [hi, h, Bool.and_false, Bool.and_false]
  next => rfl

theorem reservedAfter_eq (w old : StatusWord) :
    reservedAfter w old = if Config.reservedStored then w &&& reservedMask else old &&& reservedMask := by
  unfold reservedAfter
  split
  next h => rw [h, ite_self]
  next => rfl

/-- The register after a completed status write (R64). -/
theorem Dev.status_afterWrite (d : Dev) (w : StatusWord) (p : FramePos) (f : Fetched) :
    ({ d with config := configAfterWrite w d.config, frm := p, fetched := f } : Dev).status =
      (w &&& 0xD91F) ||| (d.status &&& 0x2000) |||
        (if Config.reservedStored then w &&& 0x06E0 else d.status &&& 0x06E0) := by
  have hres : (if Config.reservedStored then w &&& 0x06E0 else d.status &&& 0x06E0) = reservedAfter w d.config := by
    rw [Dev.status_and_of_ecs (by decide), reservedAfter_eq]
    rfl
  have hecs : (reservedAfter w d.config).getLsbD 13 = false := by
    rw [reservedAfter_eq]
    split <;> rw [BitVec.getLsbD_and] <;> simp [reservedMask]
  rw [hres]
  apply BitVec.eq_of_getLsbD_eq
  intro i hi
  rw [Dev.status_getLsbD, BitVec.getLsbD_or, BitVec.getLsbD_or, BitVec.getLsbD_and, BitVec.getLsbD_and, Dev.status_getLsbD]
  split
  next h13 =>
    have hw : (0xD91F : StatusWord).getLsbD 13 = false := rfl
    have he : (0x2000 : StatusWord).getLsbD 13 = true := rfl
    rw [h13, hecs, hw, he, Bool.and_false, Bool.and_true, Bool.false_or, Bool.or_false]
  next h13 =>
    have h2000 : (0x2000 : StatusWord).getLsbD i = false := Field.not_mem_ecs_mask h13
    rw [h2000, Bool.and_false, Bool.or_false, configAfterWrite, BitVec.getLsbD_or, BitVec.getLsbD_and]
    rfl

/-- Settles O11: the completed write by the law of the register, the short ones by running the frame. -/
theorem statusWriteAtChip : Obligations.StatusWriteAtChip := by
  refine ⟨fun d sh sl hf => ?_, fun d n e hp => ⟨?_, fun sh => ?_⟩⟩
  · have he : d.exchange sl = { d with config := configAfterWrite (joinStatus sh sl) d.config, frm := .complete } := by
      rw [Dev.exchange, hf]
    rw [he]
    exact Dev.status_afterWrite d (joinStatus sh sl) .complete d.fetched
  · simp [Dev.startFrame, hp, Dev.exchange, Dev.afterCode, Dev.endFrame, codeWrite, codeRead, codeReadStatus, codeWriteStatus]
  · simp [Dev.startFrame, hp, Dev.exchange, Dev.afterCode, Dev.endFrame, codeWrite, codeRead, codeReadStatus, codeWriteStatus]

/-! ## A cut frame (R210, U10) -/

/-- What a reset leaves of the chip in the middle of an array frame. -/
theorem Dev.abandon_array (d : Dev) (k : Dir) (A : Address) (out : List Byte) (n : Nat) (e : BitVec 1)
    (hl : d.frm ≠ .lost) (hr : d.frm ≠ .reservedMode) (hm : modeOf d.config ≠ modeReserved) :
    let t := d.abandon (header k.code A ++ out) n e
    t.config = d.config ∧
    (∀ a, (∀ j, j < out.length → a ≠ payloadLocation d A j) → t.byteAt a = d.byteAt a) ∧
    (d.frm ≠ .noFrame → ∀ j, j < out.length → ∃ m, t.byteAt (payloadLocation d A j) = Config.freeByte m) := by
  intro t
  by_cases h0 : d.frm = .noFrame
  · have ht : t = d := by simp [t, Dev.abandon, h0]
    rw [ht]
    exact ⟨rfl, fun _ _ => rfl, fun h => absurd h0 h⟩
  · have hg := Dev.garble_header { d with frm := .code } k k.code A n (by cases k <;> rfl) rfl hm
    obtain ⟨g1, -, g3, g4, g5⟩ := Dev.garble_data k out (n + (header k.code A).length)
      (d := { d with frm := .data k, ptr := A.setWidth 19 }) rfl
    have ht : t = (Dev.garble out (n + (header k.code A).length)
        { d with frm := .data k, ptr := A.setWidth 19 }).endFrame (n + (header k.code A ++ out).length) e := by
      rw [← show Dev.garble (header k.code A) n { d with frm := .code } = _ from hg, ← Dev.garble_append]
      exact Dev.abandon_ordinary _ _ _ h0 hl hr
    rw [ht, Dev.endFrame_ordinary _ _ (by rw [g3]; nofun) (by rw [g3]; nofun)]
    exact ⟨g1, g4, fun _ => g5⟩

/-- What a reset leaves of the chip in the middle of a status frame. -/
theorem Dev.abandon_status (d : Dev) {c b1 b2 : Byte} (n : Nat) (e : BitVec 1) (hc : c = codeWriteStatus ∨ c = codeReadStatus)
    (hl : d.frm ≠ .lost) (hr : d.frm ≠ .reservedMode) :
    let t := d.abandon [c, b1, b2] n e
    (∀ a, t.byteAt a = d.byteAt a) ∧
    (d.frm ≠ .noFrame → ∃ m, t.config = Config.freeStatus m &&& ~~~Field.ecs.mask) := by
  intro t
  by_cases h0 : d.frm = .noFrame
  · have ht : t = d := by simp [t, Dev.abandon, h0]
    rw [ht]
    exact ⟨fun _ => rfl, fun h => absurd h0 h⟩
  · obtain ⟨g1, g2, g3, g4⟩ := Dev.garble_status { d with frm := .code } c b1 b2 n rfl hc
    have ht : t = _ := Dev.abandon_ordinary [c, b1, b2] n e h0 hl hr
    rw [ht, Dev.endFrame_ordinary _ _ (by rw [g4]; nofun) (by rw [g4]; nofun)]
    exact ⟨fun a => Dev.byteAt_congr g2 g3 a, fun _ => g1⟩

/-- The chip after a reset of PSS in a session. -/
theorem pssReset_dev {s : State} (hsel : s.ses = .selected) (hp : s.env.plugged = true) :
    (pssReset s).dev = s.dev.abandon s.work.frame s.draws (Config.freeEcs s.draws) := by
  simp only [pssReset, hsel, if_true]
  exact onDevice_plugged hp _

/-! ## The obligations on reset and power-up -/

/-- Settles O57, value by value. -/
theorem resetValues : Obligations.ResetValues := ⟨by decide, rfl, rfl, rfl, rfl, rfl, rfl, rfl⟩

/-- Settles O58: the reset puts PSS where `State.reset` is; with no session open the chip is left alone. -/
theorem pssResetAbandonsOperation : Obligations.PssResetAbandonsOperation := by
  intro s rest hin
  refine ⟨_, step_reset hin, rfl, rfl, rfl, rfl, rfl, rfl, rfl, ?_, rfl, fun hidle => ?_⟩
  · exact congrArg List.tail hin
  · simp [pssReset, hidle]

/-- Settles O59, from what a reset leaves of the chip in the middle of an array or a status frame. -/
theorem pssResetSparesOtherLocations : Obligations.PssResetSparesOtherLocations := by
  intro s rest hin hsel hspi hl hr
  have hdev := pssReset_dev (s := dropInput s) hsel hspi.1
  refine ⟨_, step_reset hin, fun A k out hm hframe => ?_, fun c b1 b2 hc hframe => ?_⟩
  · have hf : (dropInput s).work.frame = header k.code A ++ out := by
      rw [dropInput_work, hframe]
      cases k <;> rfl
    rw [hdev, hf]
    obtain ⟨h1, h2, h3⟩ := Dev.abandon_array s.dev k A out s.draws (Config.freeEcs s.draws) hl hr hm
    exact ⟨h1, h2, h3, fun hseq j => payloadLocation_sequential hseq A j⟩
  · rw [hdev, dropInput_work, hframe]
    exact Dev.abandon_status s.dev s.draws (Config.freeEcs s.draws) hc hl hr

/-- Settles O60: the power-up is an act of the chip alone. -/
theorem chipPowerUpRestoresDefault : Obligations.ChipPowerUpRestoresDefault := by
  intro s rest hin
  refine ⟨_, step_powerUp hin, ?_, rfl, congrArg List.tail hin, rfl, rfl, rfl, rfl, rfl, rfl, rfl, rfl, rfl, rfl⟩
  exact (by decide : insertField .ecs 0x4014 ((0 : BitVec 1).setWidth 16) = 0x4014)

end Sys2Proof.Machine
end

section
/-!
PROOFS. The Transport primitives Deselect, Transfer and Receive (40_transport R101 to R103, R109), and one byte exchange bit by
bit (R104, R110).
-/

namespace Sys2Proof.Machine

/-! ## Deselect (R101) -/

/-- The end of a frame that has a meaning leaves all of the chip but its frame position and ECS (R57, R62). -/
theorem sameButEcs_endFrame {d : Dev} (n : Nat) (e : BitVec 1) (h1 : d.frm ≠ .lost) (h2 : d.frm ≠ .reservedMode) :
    SameButEcs d (d.endFrame n e) := by
  rw [Dev.endFrame_ordinary n e h1 h2]
  exact ⟨rfl, fun _ => rfl⟩

theorem exec_deselect_of_selected {s : State} (hs : s.stalled = false) (hsel : s.ses = .selected) :
    exec .deselect s = .next (deselect s) := by
  simp [exec, execDeselect, hs, hsel]

theorem exec_transfer_of_selected (bytes : List Byte) {s : State} (hsel : s.ses = .selected) :
    exec (.transfer bytes) s = .next (transfer bytes s) := by
  simp [exec, execTransfer, hsel]

theorem exec_receive_of_selected (len : Nat) {s : State} (hsel : s.ses = .selected) :
    exec (.receive len) s = .next (receive len s) := by
  simp [exec, execReceive, hsel]

/-- Settles O13: inside a session Deselect is the update `deselect`, field by field. -/
theorem deselectClosesSession : Obligations.DeselectClosesSession := by
  intro s hs hsel
  refine ⟨_, exec_deselect_of_selected hs hsel, rfl, rfl, rfl, rfl, rfl, rfl, rfl, rfl, rfl, Env.frameEnded_calls _ _,
    Env.frameEnded_plugged _ _, rfl, fun hp => ?_, fun h1 h2 => ?_⟩
  · rw [deselect_dev, onDevice_plugged hp, Dev.endFrame_frm]
  · cases hp : s.env.plugged
    case true => rw [deselect_dev, onDevice_plugged hp]; exact sameButEcs_endFrame _ _ h1 h2
    case false => rw [deselect_dev, onDevice_unplugged hp]; exact ⟨rfl, fun _ => rfl⟩

/-! ## Transfer and Receive (R102, R103, R109) -/

/-- A call that does not stall: where the environment stalls it, it does so past its length. -/
theorem CallDraw.stalls_eq_false {c : CallDraw} {len : Nat} (h : ∀ n b, c = .stall n b → len ≤ n) : c.stalls len = false := by
  cases c with
  | full | short => rfl
  | stall n b =>
    have hn := h n b rfl
    simp only [CallDraw.stalls, decide_eq_false_iff_not]
    omega

/-- SEQ inside a call that did not stall: its phase, the bytes exchanged, bit 7. -/
theorem Called.seq_live {os rest : List Byte} {s t : State} (h : Called os rest s t)
    (hk : (callDraw s).stalls os.length = false) : t.seq = ⟨s.seq.phase, (callDraw s).limit os.length, 7⟩ := by
  rw [← h.phase, ← h.idx, ← h.bit hk]

/-- SEQ inside a call that stalled. -/
theorem Called.seq_stalled {os rest : List Byte} {s t : State} (h : Called os rest s t) {n : Nat} {b : Fin 8}
    (hc : callDraw s = .stall n b) (hn : n < os.length) : t.seq = ⟨s.seq.phase, n, 7 - b⟩ := by
  have hidx : t.seq.idx = n := by rw [h.idx, hc, CallDraw.limit, Nat.min_eq_left hn.le]
  rw [← h.phase, ← h.bitStalled n b hc hn, ← hidx]

/-- What a call that stalled leaves: the completed exchanges in TRACE, chip-select and BUSY as they were, no result. -/
theorem Called.hung {os rest : List Byte} {s t : State} (h : Called os rest s t) (hsel : s.ses = .selected) {n : Nat}
    {b : Fin 8} (hc : callDraw s = .stall n b) (hn : n < os.length) :
    ∃ inc : List Byte, t.stalled = true ∧ t.csN = s.csN ∧ t.ses = .selected ∧ t.busy = s.busy ∧ t.res = s.res ∧
      t.seq = ⟨s.seq.phase, n, 7 - b⟩ ∧ inc.length = n ∧ t.trace = s.trace ++ List.zipWith .x (os.take n) inc := by
  have hlim : (callDraw s).limit os.length = n := by rw [hc, CallDraw.limit, Nat.min_eq_left hn.le]
  have htrace := h.trace
  rw [hlim] at htrace
  refine ⟨_, h.stalled.trans (CallDraw.stalls_iff.2 ⟨n, b, hc, hn⟩), h.csN, h.ses.trans hsel, h.busy, h.res,
    h.seq_stalled hc hn, ?_, htrace⟩
  rw [incoming_length, List.length_take, Nat.min_eq_left hn.le]

/-- A run of the same byte, as the events of TRACE. -/
theorem zipWith_replicate_x (o : Byte) (inc : List Byte) :
    List.zipWith BusEvent.x (List.replicate inc.length o) inc = inc.map (.x o) := by
  induction inc with
  | nil => rfl
  | cons i inc ih => rw [List.length_cons, List.replicate_succ, List.zipWith_cons_cons, ih, List.map_cons]

/-- Settles O14, from all that a Transfer can do. -/
theorem transferSendsPrefix : Obligations.TransferSendsPrefix := by
  intro bytes s hs hsel hdraw n
  have hk := CallDraw.stalls_eq_false hdraw
  obtain ⟨h, hn, hr⟩ := transfer_called bytes hs
  have hle : n ≤ bytes.length := (callDraw s).limit_le bytes.length
  refine ⟨hle, _, _, exec_transfer_of_selected bytes hsel, hn, ?_, h.trace, h.seq_live hk, hr, h.csN, h.ses, h.busy, ?_, h.cmd,
    h.res, h.inputs, h.calls, h.plugged, fun hp => ?_, fun hp hall => ?_, fun hp hshort => ?_⟩
  · rw [incoming_length, List.length_take, Nat.min_eq_left hle]
  · rw [h.stalled, hk, hs]
  · rw [h.dev, hp]; rfl
  · rw [h.dev, if_pos hp, if_pos (.inl hall), show (callDraw s).limit bytes.length = _ from hall, List.take_length]
  · have hnot : ¬ ((callDraw s).limit bytes.length = bytes.length ∨ (callDraw s).stalls bytes.length = true) := by
      rw [hk]
      rintro (h | h)
      · exact hshort.ne h
      · cases h
    rw [h.dev, if_pos hp, if_neg hnot]

/-- Settles O15, from all that a Receive can do. -/
theorem receiveCollectsPrefix : Obligations.ReceiveCollectsPrefix := by
  intro len s hs hsel hdraw m
  have hk := CallDraw.stalls_eq_false hdraw
  obtain ⟨h, hr, hn⟩ := receive_called len hs
  have hl : (List.replicate len Config.fill).length = len := List.length_replicate ..
  have hle : m ≤ len := (callDraw s).limit_le len
  have hlen : (receive len s).work.r.length = m := by rw [hr, incoming_length, List.length_replicate]
  have hstalled := h.stalled
  have htrace := h.trace
  have hseq := h.seq_live (by rw [hl]; exact hk)
  have hdev := h.dev
  rw [hl] at hstalled htrace hseq hdev
  rw [List.take_replicate, Nat.min_eq_left hle, ← hr] at htrace
  refine ⟨hle, _, exec_receive_of_selected len hsel, hlen, ?_, hseq, hn, h.csN, h.ses, h.busy, ?_, h.cmd, h.res, h.inputs,
    h.calls, h.plugged, fun hp => ?_, fun hp hall => ?_⟩
  · rw [htrace, ← zipWith_replicate_x, hlen]
  · rw [hstalled, hk, hs]
  · rw [hdev, hp]; rfl
  · rw [hdev, if_pos hp, if_pos (.inl hall), show (callDraw s).limit len = _ from hall, List.take_replicate, Nat.min_self]

/-- Settles O18, for either call by what a stalled call leaves. -/
theorem stalledCallHangs : Obligations.StalledCallHangs := by
  intro s n b hs hsel hc
  refine ⟨fun bytes hn => ?_, fun len hn => ?_⟩
  · obtain ⟨inc, h⟩ := (transfer_called bytes hs).1.hung hsel hc hn
    exact ⟨_, inc, exec_transfer_of_selected bytes hsel, h⟩
  · have hl : n < (List.replicate len Config.fill).length := by rwa [List.length_replicate]
    obtain ⟨inc, h⟩ := (receive_called len hs).1.hung hsel hc hl
    rw [List.take_replicate, Nat.min_eq_left hn.le] at h
    exact ⟨_, inc, exec_receive_of_selected len hsel, h⟩

/-! ## One exchange, bit by bit (R104, R110) -/

/-- The cycles one after the other: after `k` of them the next one brings bit `7 - k` of the byte that comes in. -/
theorem clockBits_succ {k : Nat} (hk : k < 8) (i : Byte) (l : Lines) :
    clockBits (k + 1) i l = clockBit (i.getLsbD (7 - k)) (clockBits k i l) := by
  induction k generalizing i l with
  | zero => simp [clockBits, BitVec.msb, BitVec.getMsbD]
  | succ k ih =>
    have hbit : (i <<< 1).getLsbD (7 - k) = i.getLsbD (7 - (k + 1)) := by
      rw [BitVec.getLsbD_shiftLeft]
      have h1 : 7 - k < 8 := by omega
      have h2 : ¬ 7 - k < 1 := by omega
      simp [h1, h2, show 7 - k - 1 = 7 - (k + 1) by omega]
    rw [clockBits, ih (by omega), hbit, clockBits]

/-- SHR after `k` cycles: the bits that came in at the bottom, what is left of the byte sent above them. -/
theorem clockBits_shr_getLsbD {k : Nat} (hk : k ≤ 8) (i : Byte) (l : Lines) {j : Nat} (hj : j < 8) :
    (clockBits k i l).shr.getLsbD j = if j < k then i.getLsbD (8 - k + j) else l.shr.getLsbD (j - k) := by
  induction k generalizing j with
  | zero => simp [clockBits]
  | succ k ih =>
    rw [clockBits_succ (by omega), clockBit_eq, BitVec.getLsbD_or, BitVec.getLsbD_shiftLeft, BitVec.getLsbD_setWidth]
    cases j with
    | zero => simp [show 8 - (k + 1) = 7 - k by omega]
    | succ j =>
      have hbool : (BitVec.ofBool (i.getLsbD (7 - k))).getLsbD (j + 1) = false := BitVec.getLsbD_of_ge _ _ (by omega)
      rw [hbool, Nat.add_sub_cancel, ih (by omega) (by omega)]
      simp [hj, show 7 - k + (j + 1) = 8 - k + j by omega, show j + 1 - (k + 1) = j - k by omega]

/-- After `k` cycles the bit that goes out next is bit `7 - k` of the byte sent. -/
theorem clockBits_shr_msb {k : Nat} (hk : k < 8) (i : Byte) (l : Lines) :
    (clockBits k i l).shr.msb = l.shr.getLsbD (7 - k) := by
  rw [BitVec.msb_eq_getLsbD_last, clockBits_shr_getLsbD hk.le i l (by decide), if_neg (by omega)]

/-- The levels of MOSI and MISO in cycle `k`. -/
theorem clockBits_lines {k : Nat} (hk : k < 8) (i : Byte) (l : Lines) :
    (clockBits (k + 1) i l).mosi = l.shr.getLsbD (7 - k) ∧ (clockBits (k + 1) i l).miso = i.getLsbD (7 - k) := by
  rw [clockBits_succ hk, clockBit_eq]
  exact ⟨clockBits_shr_msb hk i l, rfl⟩

theorem shiftByte_shr (o i : Byte) (l : Lines) : (shiftByte 8 o i l).shr = i := by
  apply BitVec.eq_of_getLsbD_eq
  intro j hj
  rw [shiftByte, clockBits_shr_getLsbD le_rfl _ _ hj, if_pos hj, Nat.sub_self, Nat.zero_add]

/-- The acts of the first `k` cycles, in the order of R110, are what the cycles do. -/
theorem foldl_bitActs {k : Nat} (hk : k ≤ 8) (o i : Byte) (l : Lines) :
    ((List.range k).flatMap fun k => bitActs Config.cpha (o.getLsbD (7 - k)) (i.getLsbD (7 - k))).foldl WireAct.apply
      { l with shr := o } = shiftByte k o i l := by
  induction k with
  | zero => rfl
  | succ k ih =>
    have hmsb := clockBits_shr_msb (show k < 8 by omega) i { l with shr := o }
    rw [List.range_succ, List.flatMap_append, List.foldl_append, ih (by omega), List.flatMap_singleton, shiftByte, shiftByte,
      clockBits_succ (by omega), clockBit, hmsb]

theorem byteActs_apply (o i : Byte) (l : Lines) :
    (byteActs Config.cpha o i).foldl WireAct.apply { l with shr := o } = shiftByte 8 o i l :=
  foldl_bitActs le_rfl o i l

/-- Settles O17: the cycles by induction, the acts of an exchange by counting them in both clock modes. -/
theorem exchangeShiftsBothBytesMsbFirst : Obligations.ExchangeShiftsBothBytesMsbFirst := by
  refine ⟨fun o i l => ⟨shiftByte_shr o i l, shiftByte_sck o i l, fun k hk => clockBits_lines hk i _⟩, fun cpha o i => ?_,
    fun o s => ⟨answer s, rfl, shiftByte_shr o (answer s) s.lines, ?_⟩⟩
  · cases cpha <;> exact ⟨rfl, rfl, rfl⟩
  · rw [xchg_lines, byteActs_apply]

end Sys2Proof.Machine
end

section
/-!
PROOFS. The write operations and the two write frames, complete and cut short (41_memory_ops R120, R121; 42_status_ops R141;
30_encoding R74, R77; 20_memory R58, R64, R68).
-/

namespace Sys2Proof.Machine

/-! ## A request with one session -/

/-- What a request with one session leaves of a ready state: PSS ready, one session in TRACE, and the chip, if it is plugged in,
as `d` is when chip-select rises. -/
structure OneSession (out inc : List Byte) (calls : Nat) (d : Dev) (s t : State) : Prop where
  ended : Ended s t
  length : inc.length = out.length
  trace : t.trace = s.trace ++ sessionEvents out inc
  calls : t.env.calls = s.env.calls.drop calls
  unplugged : s.env.plugged = false → t.dev = s.dev
  dev : s.env.plugged = true → ∃ n e, t.dev = d.endFrame n e

/-- A session that ended, with its results written. -/
theorem SessionEnded.oneSession {out inc : List Byte} {calls : Nat} {d : Dev} {f : Cmd → Cmd} {s u : State}
    (h : SessionEnded out inc calls d (accept f s) u) (r : Res) :
    OneSession out inc calls d s (finish { u with res := r }) where
  ended := ⟨h.csN, h.ses, rfl, h.stalled, rfl, h.sck, h.inputs, h.plugged⟩
  length := h.length
  trace := h.trace
  calls := h.calls
  unplugged := fun hp => by
    obtain ⟨n, e, he⟩ := h.dev
    exact he.trans (if_neg (by rw [accept_env, hp]; decide))
  dev := fun hp => by
    obtain ⟨n, e, he⟩ := h.dev
    exact ⟨n, e, he.trans (if_pos hp)⟩

theorem endSession_live {s : State} (hs : s.stalled = false) : endSession s = finish s := by
  rw [endSession, hs]
  rfl

section
variable {frame : List Byte} {s : State}

/-- The session of a write frame that is sent as a whole. -/
theorem writeSession_complete (sel tx desel : Phase) (hs : s.stalled = false)
    (hk : (callDraw s).limit frame.length = frame.length) :
    ∃ inc, SessionEnded frame inc 1 (s.dev.startFrame.exchanges frame) s (writeSession sel tx desel frame s) := by
  obtain ⟨-, -, inc, n, hend, -⟩ := writeSession_cases sel tx desel frame hs
  have h := hend (CallDraw.not_stalls hk)
  rw [afterCall, if_pos (.inl hk), hk, List.take_length] at h
  exact ⟨inc, h⟩

/-- The session of a write frame that falls short (R68; log 17). -/
theorem writeSession_short (sel tx desel : Phase) (hs : s.stalled = false) {n : Nat} (hc : callDraw s = .short n)
    (hn : n < frame.length) :
    ∃ inc m, SessionEnded (frame.take n) inc 1
      ((s.dev.startFrame.exchanges (frame.take n)).fallShort (frame.drop n) m) s (writeSession sel tx desel frame s) := by
  obtain ⟨-, -, inc, m, hend, -⟩ := writeSession_cases sel tx desel frame hs
  have hk : (callDraw s).stalls frame.length = false := by rw [hc]; rfl
  have hlim : (callDraw s).limit frame.length = n := by rw [hc, CallDraw.limit, Nat.min_eq_left hn.le]
  have h := hend hk
  have hnot : ¬ (n = frame.length ∨ (callDraw s).stalls frame.length = true) := by
    rw [hk]
    rintro (h | h)
    · exact hn.ne h
    · cases h
  rw [afterCall, hlim, if_neg hnot] at h
  exact ⟨inc, m, h⟩

theorem limit_of_faultFree (hf : s.faultFree) (len : Nat) : (callDraw s).limit len = len := by
  rw [callDraw_faultFree hf]
  rfl

variable {f : Cmd → Cmd} (hs : s.ready)
include hs

/-- A fault-free write operation (R120, R121, R141). -/
theorem writeOp_completes (hf : s.faultFree) :
    ∃ t inc, onBus f (runWrite frame) s = .next t ∧
      t.res = { s.res with ok := true, err := .success, count := frame.length } ∧ t.cmd = f s.cmd ∧
      OneSession frame inc 1 (s.dev.startFrame.exchanges frame) s t := by
  have hk := limit_of_faultFree hf frame.length
  obtain ⟨inc, h⟩ := writeSession_complete (s := accept f s) .sel1 .tx1 .desel1 hs.2.1 hk
  have hrun := runWrite_live (s := accept f s) hs.2.1 (CallDraw.not_stalls hk)
  rw [show (callDraw (accept f s)).limit frame.length = _ from hk, decide_eq_true rfl] at hrun
  refine ⟨_, inc, (onBus_ready hs f _).trans (congrArg _ hrun), rfl, h.cmd, h.oneSession _⟩

/-- A write operation that falls short reports the bytes sent (R120, R121, R141). -/
theorem writeOp_fallsShort {n : Nat} (hc : callDraw s = .short n) (hn : n < frame.length) :
    ∃ t inc m, onBus f (runWrite frame) s = .next t ∧
      t.res = { s.res with ok := false, err := .shortTransfer, count := n } ∧ t.cmd = f s.cmd ∧
      OneSession (frame.take n) inc 1 ((s.dev.startFrame.exchanges (frame.take n)).fallShort (frame.drop n) m) s t := by
  obtain ⟨inc, m, h⟩ := writeSession_short (s := accept f s) .sel1 .tx1 .desel1 hs.2.1 hc hn
  have hlim : (callDraw (accept f s)).limit frame.length = n := by
    rw [show callDraw (accept f s) = _ from hc, CallDraw.limit, Nat.min_eq_left hn.le]
  have hrun := runWrite_live (frame := frame) (s := accept f s) hs.2.1 (by rw [show callDraw (accept f s) = _ from hc]; rfl)
  rw [hlim, decide_eq_false hn.ne] at hrun
  exact ⟨_, inc, m, (onBus_ready hs f _).trans (congrArg _ hrun), rfl, h.cmd, h.oneSession _⟩

/-- A fault-free bare write frame (R74, R77; log 3). -/
theorem writeFrame_completes (hf : s.faultFree) :
    ∃ t inc, onBus id (fun t => endSession (writeSession .sel1 .tx1 .desel1 frame t)) s = .next t ∧ t.res = s.res ∧
      t.cmd = s.cmd ∧ t.work.n = frame.length ∧ OneSession frame inc 1 (s.dev.startFrame.exchanges frame) s t := by
  have hk := limit_of_faultFree hf frame.length
  obtain ⟨inc, h⟩ := writeSession_complete (s := accept id s) .sel1 .tx1 .desel1 hs.2.1 hk
  have hn := (writeSession_cases (s := accept id s) .sel1 .tx1 .desel1 frame hs.2.1).1
  exact ⟨_, inc, (onBus_ready hs id _).trans (congrArg _ (endSession_live h.stalled)), h.res, h.cmd, hn.trans hk,
    h.oneSession _⟩

end

/-! ## The array after a payload -/

/-- In Sequential mode each payload byte is where the run put it, no payload longer than the array. -/
theorem byteAt_writtenRun {d e : Dev} {A : Address} {D : List Byte} (hm : e.mem = writtenRun A 0 D d.mem)
    (hl : D.length ≤ arraySize) {j : Nat} {b : Byte} (hb : D[j]? = some b) : e.byteAt (sequentialLocation A j) = b := by
  have h := (writtenRun_read A D 0 d.mem (by rwa [Nat.zero_add])).1 j b hb
  rw [Nat.zero_add] at h
  rw [Dev.byteAt, hm, h]
  rfl

theorem modeNamed_of_sequential {s : State} (h : s.sequential) : s.modeNamed := by
  rw [State.modeNamed, show modeOf s.dev.config = modeSequential from h]
  decide

/-- Where one knows the locations of a payload: in Sequential mode, or of the first byte in any (R53, R60). -/
theorem payloadLocation_of_sequential_or_one {s : State} (A : Address) {L j : Nat} (h : s.sequential ∨ L ≤ 1) (hj : j < L) :
    payloadLocation s.dev A j = sequentialLocation A j := by
  rcases h with hseq | hl
  · exact payloadLocation_sequential hseq A j
  · rw [Nat.lt_one_iff.mp (hj.trans_le hl), payloadLocation_zero]

/-- One payload byte goes to `A[18:0]`, in every mode (R53). -/
theorem ne_payloadLocation_one {d : Dev} {A : Address} {a : Nat} (ha : a ≠ sequentialLocation A 0) {j : Nat} (hj : j < 1) :
    a ≠ payloadLocation d A j := by
  rwa [Nat.lt_one_iff.mp hj, payloadLocation_zero]

theorem writeFrame_length (A : Address) (D : List Byte) : (writeFrame A D).length = 4 + D.length :=
  (List.length_append ..).trans rfl

/-- What a request with a whole WRITE frame leaves of the chip (R58). -/
theorem OneSession.writeFrame_chip {A : Address} {D inc : List Byte} {calls : Nat} {s t : State}
    (h : OneSession (writeFrame A D) inc calls (s.dev.startFrame.exchanges (writeFrame A D)) s t) (hspi : s.spi) :
    t.dev.config = s.dev.config ∧ (s.modeNamed → t.dev.status = s.dev.status ∧
      (∀ a, (∀ j, j < D.length → a ≠ payloadLocation s.dev A j) → t.dev.byteAt a = s.dev.byteAt a) ∧
      (s.sequential ∨ D.length ≤ 1 → t.dev.mem = writtenRun A 0 D s.dev.mem)) := by
  obtain ⟨n, e, hdev⟩ := h.dev hspi.1
  obtain ⟨hc, hnamed⟩ := Dev.writeFrame_done s.dev A D n e hspi.2
  rw [hdev]
  refine ⟨hc, fun hm => ?_⟩
  obtain ⟨hst, hoff, -, hmem⟩ := hnamed hm
  exact ⟨hst, hoff, hmem⟩

/-- A status write cut short leaves the array (R141; log 17). -/
theorem Dev.writeStatus_cut (d : Dev) (v : StatusWord) {n : Nat} (m x : Nat) (e : BitVec 1) (hn : n < 3)
    (hp : protocolOf d.config = protocolSpi) (a : Nat) :
    (((d.startFrame.exchanges ((writeStatusFrame v).take n)).fallShort ((writeStatusFrame v).drop n) m).endFrame x e).byteAt a =
      d.byteAt a := by
  apply Dev.byteAt_congr <;> interval_cases n <;>
    simp [writeStatusFrame, Dev.startFrame, hp, Dev.fallShort, Dev.garble, Dev.garbleByte, Dev.exchange, Dev.afterCode,
      codeWrite, codeRead, codeReadStatus, codeWriteStatus, FramePos.cutShort, Dev.endFrame, Dev.setStatus]

/-! ## The obligations on write operations -/

/-- Settles O20: a fault-free write operation, whose frame is known to put one byte at `A[18:0]`. -/
theorem writeByteCompletes : Obligations.WriteByteCompletes := by
  intro A V s hs hf
  obtain ⟨t, inc, he, hres, hcmd, h⟩ := writeOp_completes (frame := writeFrame A [V])
    (f := fun c => { c with op := 0x0, addr := A, val8 := V }) hs hf
  refine ⟨t, inc, he, h.ended, hres, hcmd, h.length, h.trace, h.calls, h.unplugged,
    fun hspi => (h.writeFrame_chip hspi).1, fun hspi hm => ?_⟩
  obtain ⟨hst, hoff, hmem⟩ := (h.writeFrame_chip hspi).2 hm
  have hone : ([V] : List Byte).length ≤ arraySize := by simp [arraySize]
  exact ⟨hst, byteAt_writtenRun (j := 0) (hmem (.inr le_rfl)) hone rfl,
    fun a ha => hoff a fun j hj => ne_payloadLocation_one ha hj⟩

/-- Settles O21, from what a cut WRITE frame leaves. -/
theorem shortWriteByteFails : Obligations.ShortWriteByteFails := by
  intro A V s n hs hc hn
  obtain ⟨t, inc, m, he, hres, hcmd, h⟩ := writeOp_fallsShort (frame := writeFrame A [V])
    (f := fun c => { c with op := 0x0, addr := A, val8 := V }) hs hc hn
  refine ⟨t, inc, he, h.ended, hres, hcmd, ?_, h.trace, fun hspi hm => ?_⟩
  · rw [h.length, List.length_take, Nat.min_eq_left (by exact hn.le)]
  · obtain ⟨x, e, hdev⟩ := h.dev hspi.1
    obtain ⟨hst, hoff, -⟩ := Dev.writeFrame_cut s.dev A [V] n m x e hn hspi.2 hm
    rw [hdev]
    exact ⟨hst, fun a ha => hoff a fun j hj => ne_payloadLocation_one ha hj⟩

/-- Settles O22, from what a whole WRITE frame leaves. -/
theorem sequentialWriteCompletes : Obligations.SequentialWriteCompletes := by
  intro A D s hs hf
  obtain ⟨t, inc, he, hres, hcmd, h⟩ := writeOp_completes (frame := writeFrame A D)
    (f := fun c => { c with op := 0x1, addr := A, len := D.length, wdata := D }) hs hf
  have hlen := writeFrame_length A D
  have hinc := h.length
  rw [hlen] at hres hinc
  refine ⟨t, inc, he, h.ended, hres, hcmd, hinc, h.trace, h.calls, h.unplugged,
    fun hspi => (h.writeFrame_chip hspi).1, fun hspi hm => ?_, fun hspi hseq => ?_⟩
  · obtain ⟨hst, hoff, -⟩ := (h.writeFrame_chip hspi).2 hm
    exact ⟨hst, hoff⟩
  · obtain ⟨-, -, hmem⟩ := (h.writeFrame_chip hspi).2 (modeNamed_of_sequential hseq)
    exact ⟨hmem (.inl hseq), payloadLocation_sequential hseq A, fun hl j b hb => byteAt_writtenRun (hmem (.inl hseq)) hl hb⟩

/-- Settles O23, from what a cut WRITE frame leaves. -/
theorem shortSequentialWriteFails : Obligations.ShortSequentialWriteFails := by
  intro A D s n hs hc hn
  have hlen := writeFrame_length A D
  obtain ⟨t, inc, m, he, hres, hcmd, h⟩ := writeOp_fallsShort (frame := writeFrame A D)
    (f := fun c => { c with op := 0x1, addr := A, len := D.length, wdata := D }) hs hc (hn.trans_eq hlen.symm)
  refine ⟨t, inc, he, h.ended, hres, hcmd, ?_, h.trace, h.unplugged, fun hspi hm => ?_, fun hspi hseq => ?_⟩
  · rw [h.length, List.length_take, hlen, Nat.min_eq_left hn.le]
  all_goals
    obtain ⟨x, e, hdev⟩ := h.dev hspi.1
    rw [hdev]
  · obtain ⟨hst, hoff, -⟩ := Dev.writeFrame_cut s.dev A D n m x e hn hspi.2 hm
    exact ⟨hst, hoff⟩
  · obtain ⟨-, -, hsent⟩ := Dev.writeFrame_cut s.dev A D n m x e hn hspi.2 (modeNamed_of_sequential hseq)
    exact ⟨payloadLocation_sequential hseq A, hsent hseq⟩

/-- Settles O31, from what a whole WRITE_STATUS frame leaves. -/
theorem setStatusCompletes : Obligations.SetStatusCompletes := by
  intro S s hs hf
  obtain ⟨t, inc, he, hres, hcmd, h⟩ := writeOp_completes (frame := writeStatusFrame S)
    (f := fun c => { c with op := 0x5, val16 := S }) hs hf
  refine ⟨t, inc, he, h.ended, hres, hcmd, h.length, h.trace, h.calls, h.unplugged, fun hspi => ?_⟩
  obtain ⟨n, e, hdev⟩ := h.dev hspi.1
  rw [hdev, Dev.writeStatus_done s.dev S n e hspi.2]
  exact ⟨Dev.status_afterWrite s.dev S _ _, fun _ => rfl⟩

/-- Settles O32, from what a cut WRITE_STATUS frame leaves. -/
theorem shortSetStatusFails : Obligations.ShortSetStatusFails := by
  intro S s n hs hc hn
  obtain ⟨t, inc, m, he, hres, -, h⟩ := writeOp_fallsShort (frame := writeStatusFrame S)
    (f := fun c => { c with op := 0x5, val16 := S }) hs hc hn
  refine ⟨t, inc, he, h.ended, hres, ?_, h.trace, fun hspi a => ?_⟩
  · rw [h.length, List.length_take, Nat.min_eq_left (by exact hn.le)]
  · obtain ⟨x, e, hdev⟩ := h.dev hspi.1
    rw [hdev]
    exact Dev.writeStatus_cut s.dev S m x e hn hspi.2 a

/-- Settles O41, from what a whole WRITE frame leaves. -/
theorem writeFrameCompletes : Obligations.WriteFrameCompletes := by
  intro A D s hs hf
  obtain ⟨t, inc, he, hres, hcmd, hn, h⟩ := writeFrame_completes (frame := writeFrame A D) hs hf
  have hlen := writeFrame_length A D
  refine ⟨t, inc, he, h.ended, hres, hcmd, h.length.trans hlen, hn.trans hlen, h.trace, h.unplugged,
    fun hspi => (h.writeFrame_chip hspi).1, fun hspi hm => ?_⟩
  obtain ⟨hst, hoff, hmem⟩ := (h.writeFrame_chip hspi).2 hm
  exact ⟨hst, hoff, fun hone => ⟨hmem hone, fun j hj => payloadLocation_of_sequential_or_one A hone hj⟩⟩

end Sys2Proof.Machine
end

section
/-!
PROOFS. The read operations and the two read frames, complete and cut short (41_memory_ops R122, R123, R125; 42_status_ops R140;
30_encoding R75, R76; 20_memory R59, R63).
-/

namespace Sys2Proof.Machine

/-! ## The session of a read frame -/

/-- The bytes that come in during the session of a read frame with `m` response bytes. -/
def readAnswers (hdr : List Byte) (m : Nat) (s : State) : List Byte :=
  incoming (hdr ++ List.replicate m Config.fill) (select s)

/-- The response among them. -/
def response (hdr : List Byte) (m : Nat) (s : State) : List Byte := (readAnswers hdr m s).drop hdr.length

/-- The chip when chip-select rises at the end of a read frame with `m` response bytes. -/
def Dev.afterRead (hdr : List Byte) (m : Nat) (d : Dev) : Dev :=
  d.startFrame.exchanges (hdr ++ List.replicate m Config.fill)

theorem readAnswers_length (hdr : List Byte) (m : Nat) (s : State) : (readAnswers hdr m s).length = hdr.length + m := by
  rw [readAnswers, incoming_length, List.length_append, List.length_replicate]

theorem response_length (hdr : List Byte) (m : Nat) (s : State) : (response hdr m s).length = m := by
  rw [response, List.length_drop, readAnswers_length, Nat.add_sub_cancel_left]

/-- What comes in during the header, then the response. -/
theorem readAnswers_split (hdr : List Byte) (m : Nat) (s : State) :
    readAnswers hdr m s = (readAnswers hdr m s).take hdr.length ++ response hdr m s :=
  (List.take_append_drop _ _).symm

theorem readAnswers_take_length (hdr : List Byte) (m : Nat) (s : State) :
    ((readAnswers hdr m s).take hdr.length).length = hdr.length := by
  rw [List.length_take, readAnswers_length, Nat.min_eq_left (Nat.le_add_right _ _)]

/-- The operands taken are nothing to what comes in. -/
theorem sameAnswers_accept (f : Cmd → Cmd) (s : State) : SameAnswers (select s) (select (accept f s)) := by
  constructor <;> rfl

/-- What a request with a read session whose header was sent leaves: the session, ECS by the environment's choice where the
frame read the register (R51, R62; log 9), and what is left of the environment's bytes. -/
structure ReadSession (hdr : List Byte) (m : Nat) (s t : State) : Prop
    extends OneSession (hdr ++ List.replicate m Config.fill) (readAnswers hdr m s) 2 (s.dev.afterRead hdr m) s t where
  ecs : s.env.plugged = true →
    ∃ n, t.dev = (s.dev.afterRead hdr m).endFrame n (s.env.ecsAfter (s.dev.afterRead hdr m) n)
  miso : s.env.plugged = false → t.env.miso = s.env.miso.drop (hdr.length + m)

section
variable {hdr : List Byte} {len : Nat} {g : Work → Res → Res} {f : Cmd → Cmd} {s : State} (hs : s.ready)
include hs

/-- The session of a read frame whose header is sent and whose Receive does not stall. -/
theorem readSession_readSession (hk : (callDraw s).limit hdr.length = hdr.length) (hst : (secondDraw s).stalls len = false)
    (r : Res) :
    ReadSession hdr ((secondDraw s).limit len) s (finish { readSession hdr len (accept f s) with res := r }) ∧
      (readSession hdr len (accept f s)).stalled = false ∧ (readSession hdr len (accept f s)).cmd = f s.cmd ∧
      (readSession hdr len (accept f s)).res = s.res ∧
      (readSession hdr len (accept f s)).work.r = response hdr ((secondDraw s).limit len) s := by
  obtain ⟨h, hr, hmiso⟩ := readSession_received hdr len (s := accept f s) hs.2.1 hk hst
  have htrace := h.trace
  rw [(sameAnswers_accept f s).incoming] at hr htrace
  have hdev := h.dev
  rw [accept_env] at hdev
  refine ⟨⟨⟨⟨h.csN, h.ses, rfl, h.stalled, rfl, h.sck, h.inputs, h.plugged⟩, incoming_length _ _, htrace, h.calls,
    fun hp => hdev.trans (if_neg (by rw [hp]; decide)), fun hp => ⟨_, _, hdev.trans (if_pos hp)⟩⟩,
    fun hp => ⟨_, hdev.trans (if_pos hp)⟩, hmiso⟩, h.stalled, h.cmd, h.res, hr⟩

/-- A read operation whose header is sent and whose Receive does not stall reports what came (R122, R123, R140). -/
theorem readOp_received (hk : (callDraw s).limit hdr.length = hdr.length) (hst : (secondDraw s).stalls len = false) :
    ∃ t, onBus f (runRead hdr len g) s = .next t ∧
      t.res = (g ⟨hdr.length, response hdr ((secondDraw s).limit len) s, [], 0⟩ s.res).verdict
        (decide ((secondDraw s).limit len = len)) ∧
      t.cmd = f s.cmd ∧ ReadSession hdr ((secondDraw s).limit len) s t := by
  obtain ⟨h, hlive, hcmd, -⟩ := readSession_readSession (f := f) hs hk hst
    ((g ⟨hdr.length, response hdr ((secondDraw s).limit len) s, [], 0⟩ s.res).verdict
        (decide ((secondDraw s).limit len = len)))
  have hbytes : receivedBytes hdr len (accept f s) = response hdr ((secondDraw s).limit len) s := by
    rw [receivedBytes, if_pos (by exact hk), (sameAnswers_accept f s).incoming]
    rfl
  have hrun := runRead_live g (s := accept f s) hs.2.1 hlive
  rw [show (callDraw (accept f s)).limit hdr.length = _ from hk, hbytes, response_length, decide_eq_true rfl,
    Bool.true_and] at hrun
  exact ⟨_, (onBus_ready hs f _).trans (congrArg _ hrun), rfl, hcmd, h⟩

/-- A read operation whose header falls short receives nothing (R125). -/
theorem readOp_shortHeader {n : Nat} (hc : callDraw s = .short n) (hn : n < hdr.length) :
    ∃ t inc m, onBus f (runRead hdr len g) s = .next t ∧ t.res = (g ⟨n, [], [], 0⟩ s.res).fail .shortTransfer ∧
      t.cmd = f s.cmd ∧
      OneSession (hdr.take n) inc 1 ((s.dev.startFrame.exchanges (hdr.take n)).fallShort (hdr.drop n) m) s t := by
  have hlim : (callDraw (accept f s)).limit hdr.length = n := by
    rw [show callDraw (accept f s) = _ from hc, CallDraw.limit, Nat.min_eq_left hn.le]
  have hst : (callDraw (accept f s)).stalls hdr.length = false := by rw [show callDraw (accept f s) = _ from hc]; rfl
  obtain ⟨-, hlive, inc, m, hend, -⟩ := readSession_shortHeader hdr len (s := accept f s) hs.2.1 (hlim.trans_lt hn)
  obtain ⟨-, h⟩ := hend hst
  have hnot : ¬ (n = hdr.length ∨ (callDraw (accept f s)).stalls hdr.length = true) := by
    rw [hst]
    rintro (h | h)
    · exact hn.ne h
    · cases h
  rw [afterCall, hlim, if_neg hnot] at h
  have hbytes : receivedBytes hdr len (accept f s) = [] := if_neg (by rw [hlim]; exact hn.ne)
  have hrun := runRead_live g (s := accept f s) hs.2.1 (hlive.trans hst)
  rw [hlim, hbytes, decide_eq_false hn.ne, Bool.false_and] at hrun
  exact ⟨_, inc, m, (onBus_ready hs f _).trans (congrArg _ hrun), rfl, h.cmd, h.oneSession _⟩

omit hs in
theorem secondDraw_faultFree (hf : s.faultFree) : secondDraw s = .full := by
  have ht : State.faultFree { s with env := { s.env with calls := s.env.calls.tail } } := faultFree_of_tail hf rfl
  exact callDraw_faultFree ht

/-- A fault-free read operation (R122, R123, R140). -/
theorem readOp_completes (hf : s.faultFree) :
    ∃ t, onBus f (runRead hdr len g) s = .next t ∧ t.res = (g ⟨hdr.length, response hdr len s, [], 0⟩ s.res).succeed ∧
      t.cmd = f s.cmd ∧ ReadSession hdr len s t := by
  have h2 := secondDraw_faultFree hf
  obtain ⟨t, he, hres, hcmd, h⟩ := readOp_received (hdr := hdr) (len := len) (g := g) (f := f) hs
    (limit_of_faultFree hf _) (by rw [h2]; rfl)
  rw [h2, show CallDraw.full.limit len = len from rfl, decide_eq_true rfl] at hres
  rw [h2] at h
  exact ⟨t, he, hres, hcmd, h⟩

/-- A fault-free bare read frame (R75, R76; log 3). -/
theorem readFrame_completes (hf : s.faultFree) :
    ∃ t, onBus id (fun t => endSession (readSession hdr len t)) s = .next t ∧ t.res = s.res ∧ t.cmd = s.cmd ∧
      t.work.r = response hdr len s ∧ ReadSession hdr len s t := by
  have h2 := secondDraw_faultFree hf
  obtain ⟨h, hlive, hcmd, hres, hr⟩ := readSession_readSession (f := id) (hdr := hdr) (len := len) hs
    (limit_of_faultFree hf _) (by rw [h2]; rfl) (readSession hdr len (accept id s)).res
  rw [h2] at h hr
  exact ⟨_, (onBus_ready hs id _).trans (congrArg _ (endSession_live hlive)), hres, hcmd, hr, h⟩

/-- A read operation whose header is sent and whose Receive falls short after `m` bytes. -/
theorem readOp_shortReceive {m : Nat} {rest : List CallDraw} (hc : s.env.calls = .full :: .short m :: rest) (hm : m < len) :
    ∃ t, onBus f (runRead hdr len g) s = .next t ∧
      t.res = (g ⟨hdr.length, response hdr m s, [], 0⟩ s.res).fail .shortTransfer ∧
      t.cmd = f s.cmd ∧ ReadSession hdr m s t := by
  have h1 : callDraw s = .full := by rw [callDraw, hc]; rfl
  have h2 : secondDraw s = .short m := by rw [secondDraw, hc]; rfl
  have hlim : (secondDraw s).limit len = m := by rw [h2, CallDraw.limit, Nat.min_eq_left hm.le]
  obtain ⟨t, he, hres, hcmd, h⟩ := readOp_received (hdr := hdr) (len := len) (g := g) (f := f) hs (by rw [h1]; rfl)
    (by rw [h2]; rfl)
  rw [hlim, decide_eq_false hm.ne] at hres
  rw [hlim] at h
  exact ⟨t, he, hres, hcmd, h⟩

end

/-! ## The chip's side of a read of the array (R59) -/

/-- What a READ frame with `m` response bytes leaves of the chip, and what it answered. -/
theorem ReadSession.array_chip {A : Address} {m : Nat} {s t : State} (h : ReadSession (readHeader A) m s t) (hspi : s.spi) :
    t.dev.config = s.dev.config ∧ (s.modeNamed → SameButEcs s.dev t.dev ∧ (m = 0 → SameChip s.dev t.dev) ∧
      ∀ j, j < m → (response (readHeader A) m s)[j]? = some (s.dev.byteAt (payloadLocation s.dev A j))) := by
  obtain ⟨n, e, hdev⟩ := h.dev hspi.1
  obtain ⟨hc, hnamed⟩ := Dev.readFrame_cut s.dev A (List.replicate m Config.fill) 0 n e hspi.2
  rw [Dev.endFrame_fallShort_nil, ← Dev.afterRead, ← hdev] at hc hnamed
  refine ⟨hc, fun hm => ?_⟩
  obtain ⟨hsame, hchip⟩ := hnamed hm
  exact ⟨hsame, fun h0 => hchip (by rw [h0]; rfl), incoming_readFrame A m hspi hm⟩

/-- What a READ frame cut in its header leaves of the chip. -/
theorem OneSession.readHeader_chip {A : Address} {n m calls : Nat} {inc : List Byte} {s t : State} (hn : n < 4)
    (h : OneSession ((readHeader A).take n) inc calls
      ((s.dev.startFrame.exchanges ((readHeader A).take n)).fallShort ((readHeader A).drop n) m) s t) (hspi : s.spi) :
    t.dev.config = s.dev.config ∧ (s.modeNamed → SameChip s.dev t.dev) := by
  obtain ⟨x, e, hdev⟩ := h.dev hspi.1
  rw [hdev]
  exact Dev.readHeader_cut s.dev A n m x e hn hspi.2

/-- The incoming bytes of a header cut after `n` bytes. -/
theorem OneSession.length_take {hdr inc : List Byte} {n calls : Nat} {d : Dev} {s t : State}
    (h : OneSession (hdr.take n) inc calls d s t) (hn : n < hdr.length) : inc.length = n := by
  rw [h.length, List.length_take, Nat.min_eq_left hn.le]

/-- The trace of a read session, the incoming bytes split where the response begins. -/
theorem ReadSession.trace_split {hdr : List Byte} {m : Nat} {s t : State} (h : ReadSession hdr m s t) :
    t.trace = s.trace ++ sessionEvents (hdr ++ List.replicate m Config.fill)
      ((readAnswers hdr m s).take hdr.length ++ response hdr m s) := by
  rw [← readAnswers_split]
  exact h.trace

theorem readFrame_length (A : Address) (L : Nat) : (readHeader A ++ List.replicate L Config.fill).length = 4 + L := by
  rw [List.length_append, List.length_replicate]
  rfl

/-! ## The obligations on reads of the array -/

/-- Settles O24, from what a READ frame with one response byte answers and leaves. -/
theorem readByteCompletes : Obligations.ReadByteCompletes := by
  intro A s hs hf
  obtain ⟨t, he, hres, hcmd, h⟩ := readOp_completes (hdr := readHeader A) (len := 1) (g := byteReport)
    (f := fun c => { c with op := 0x2, addr := A }) hs hf
  obtain ⟨v, hv⟩ := List.length_eq_one_iff.mp (response_length (readHeader A) 1 s)
  have htrace := h.trace_split
  rw [hv] at hres htrace
  refine ⟨t, _, v, he, h.ended, hres, hcmd, readAnswers_take_length (readHeader A) 1 s, htrace, h.calls, h.unplugged,
    fun hspi => (h.array_chip hspi).1, fun hspi hm => ?_⟩
  obtain ⟨hsame, -, hread⟩ := (h.array_chip hspi).2 hm
  have h0 := hread 0 Nat.one_pos
  rw [hv, payloadLocation_zero] at h0
  exact ⟨Option.some.inj h0, hsame⟩

/-- Settles O25: a header cut short, or a Receive that gets nothing, leaves the chip and reports no byte. -/
theorem shortReadByteReturnsZero : Obligations.ShortReadByteReturnsZero := by
  intro A s n rest hs hcases
  rcases hcases with ⟨hc, hn⟩ | ⟨hc, rfl⟩
  · have hdraw : callDraw s = .short n := by rw [callDraw, hc]; rfl
    obtain ⟨t, inc, m, he, hres, -, h⟩ := readOp_shortHeader (hdr := readHeader A) (len := 1) (g := byteReport)
      (f := fun c => { c with op := 0x2, addr := A }) hs hdraw hn
    exact ⟨t, inc, he, h.ended, hres, h.length_take hn, h.trace, fun hspi => (h.readHeader_chip hn hspi).2⟩
  · obtain ⟨t, he, hres, -, h⟩ := readOp_shortReceive (hdr := readHeader A) (len := 1) (g := byteReport)
      (f := fun c => { c with op := 0x2, addr := A }) hs hc Nat.one_pos
    have h0 := List.length_eq_zero_iff.mp (response_length (readHeader A) 0 s)
    have htrace := h.trace
    rw [h0] at hres
    refine ⟨t, _, he, h.ended, hres, readAnswers_length (readHeader A) 0 s, htrace, fun hspi hm => ?_⟩
    obtain ⟨-, hchip, -⟩ := (h.array_chip hspi).2 hm
    exact hchip rfl

/-- Settles O26, from what a READ frame answers and leaves. -/
theorem sequentialReadCompletes : Obligations.SequentialReadCompletes := by
  intro A L s hs hf
  obtain ⟨t, he, hres, hcmd, h⟩ := readOp_completes (hdr := readHeader A) (len := L) (g := bufferReport)
    (f := fun c => { c with op := 0x3, addr := A, len := L }) hs hf
  have hlen := response_length (readHeader A) L s
  simp only [bufferReport, Res.succeed, fillBuffer, hlen] at hres
  refine ⟨t, _, _, he, h.ended, hres, hcmd, readAnswers_take_length (readHeader A) L s, hlen, h.trace_split, h.calls,
    h.unplugged, fun hspi => (h.array_chip hspi).1, fun hspi hm => ?_, fun hspi hseq => payloadLocation_sequential hseq A⟩
  obtain ⟨hsame, -, hread⟩ := (h.array_chip hspi).2 hm
  exact ⟨hsame, hread⟩

/-- Settles O27: a Receive cut short, and a header cut short. -/
theorem shortSequentialReadKeepsTail : Obligations.ShortSequentialReadKeepsTail := by
  intro A L s rest hs
  refine ⟨fun m hc hm => ?_, fun n hc hn => ?_⟩
  · obtain ⟨t, he, hres, hcmd, h⟩ := readOp_shortReceive (hdr := readHeader A) (len := L) (g := bufferReport)
      (f := fun c => { c with op := 0x3, addr := A, len := L }) hs hc hm
    have hlen := response_length (readHeader A) m s
    simp only [bufferReport, Res.fail, fillBuffer, hlen] at hres
    exact ⟨t, _, _, he, h.ended, hlen, readAnswers_take_length (readHeader A) m s, hres, hcmd, h.trace_split, h.unplugged,
      fun hspi => (h.array_chip hspi).1, fun hspi => (h.array_chip hspi).2,
      fun hspi hseq => payloadLocation_sequential hseq A⟩
  · have hdraw : callDraw s = .short n := by rw [callDraw, hc]; rfl
    obtain ⟨t, inc, m, he, hres, hcmd, h⟩ := readOp_shortHeader (hdr := readHeader A) (len := L) (g := bufferReport)
      (f := fun c => { c with op := 0x3, addr := A, len := L }) hs hdraw hn
    exact ⟨t, inc, he, h.ended, h.length_take hn, hres, hcmd, h.trace, h.unplugged,
      fun hspi => (h.readHeader_chip hn hspi).1, fun hspi => (h.readHeader_chip hn hspi).2⟩

/-- With no device plugged in, what comes in are the environment's bytes (R56 a; log 6). -/
theorem incoming_unplugged (os : List Byte) {s : State} (hp : s.env.plugged = false) (hl : os.length ≤ s.env.miso.length) :
    incoming os s = s.env.miso.take os.length := by
  induction os generalizing s with
  | nil => rfl
  | cons o os ih =>
    cases hm : s.env.miso with
    | nil => simp [hm] at hl
    | cons i is =>
      have henv : (xchg o s).env.miso = is := by
        rw [xchg_env, Env.answered, hp, hm]
        rfl
      have hans : answer s = i := by rw [answer, hp, hm]; rfl
      rw [hm] at hl
      rw [incoming, hans, ih ((Env.answered_plugged _).trans hp) (by rw [henv]; exact Nat.le_of_succ_le_succ hl), henv]
      rfl

/-- Settles O28: the environment's bytes are taken one for each exchange. -/
theorem unpluggedReadReturnsEnvironmentBytes : Obligations.UnpluggedReadReturnsEnvironmentBytes := by
  intro A s skipped data rest hs hf hp hskip hmiso
  obtain ⟨t, he, hres, -, h⟩ := readOp_completes (hdr := readHeader A) (len := data.length) (g := bufferReport)
    (f := fun c => { c with op := 0x3, addr := A, len := data.length }) hs hf
  have hhdr : (readHeader A).length = 4 := rfl
  have hdata : response (readHeader A) data.length s = data := by
    rw [response, readAnswers, incoming_unplugged _ (by exact hp) (by rw [select_env, hmiso, readFrame_length]; simp [hskip]), select_env,
      hmiso, readFrame_length, ← hskip, ← List.length_append, List.take_left, hhdr, ← hskip, List.drop_left]
  refine ⟨t, he, by rw [hres]; rfl, by rw [hres, hdata]; rfl, ?_, h.unplugged hp⟩
  rw [h.miso hp, hmiso, hhdr, ← hskip, ← List.length_append, List.drop_left]

/-- Settles O42, from what a READ frame answers and leaves. -/
theorem readFrameCompletes : Obligations.ReadFrameCompletes := by
  intro A L s hs hf
  obtain ⟨t, he, hres, hcmd, hr, h⟩ := readFrame_completes (hdr := readHeader A) (len := L) hs hf
  have htrace := h.trace_split
  rw [← hr] at htrace
  refine ⟨t, _, he, h.ended, hres, hcmd, readAnswers_take_length (readHeader A) L s, ?_, htrace, h.unplugged,
    fun hspi => (h.array_chip hspi).1, fun hspi hm => ?_⟩
  · rw [hr, response_length]
  · obtain ⟨hsame, -, hread⟩ := (h.array_chip hspi).2 hm
    rw [hr]
    exact ⟨hsame, hread, fun hone j hj => payloadLocation_of_sequential_or_one A hone hj⟩

end Sys2Proof.Machine
end

section
/-!
PROOFS. The operations on the Status Register that read it: get_status, the two bare status frames and the field setters, complete
and cut short (42_status_ops R140, R150 to R155; 30_encoding R76, R77; 20_memory R63, R64).
-/

namespace Sys2Proof.Machine

/-! ## The chip's side of a status read (R63) -/

/-- What comes in during a read cut short is the beginning of what comes in during a longer one. -/
theorem readAnswers_take (hdr : List Byte) {m k : Nat} (h : m ≤ k) (s : State) :
    readAnswers hdr m s = (readAnswers hdr k s).take (hdr.length + m) := by
  have hk : List.replicate k Config.fill = List.replicate m Config.fill ++ List.replicate (k - m) Config.fill := by
    rw [List.replicate_append_replicate, Nat.add_sub_cancel' h]
  have hlen : (incoming (hdr ++ List.replicate m Config.fill) (select s)).length = hdr.length + m := readAnswers_length hdr m s
  rw [readAnswers, readAnswers, hk, ← List.append_assoc, incoming_split (hdr ++ List.replicate m Config.fill),
    List.take_left' hlen]

theorem response_take (hdr : List Byte) {m k : Nat} (h : m ≤ k) (s : State) : response hdr m s = (response hdr k s).take m := by
  rw [response, readAnswers_take hdr h, List.drop_take, Nat.add_sub_cancel_left, ← response]

/-- What a status read answers, as far as it goes. -/
theorem response_status {m : Nat} (hm : m ≤ 2) {s : State} (hspi : s.spi) :
    response readStatusHeader m s = [statusHigh s.dev.status, statusLow s.dev.status].take m := by
  rw [response_take _ hm, ← incoming_statusFrame hspi]
  rfl

/-- The chip after the exchanges of a status read, as far as it goes. -/
theorem Dev.afterRead_status (d : Dev) {m : Nat} (hm : m ≤ 2) (hp : protocolOf d.config = protocolSpi) :
    ∃ p, p ≠ .lost ∧ p ≠ .reservedMode ∧ d.afterRead readStatusHeader m =
      { d with frm := p, fetched := if m = 0 then .nothing else .status } := by
  rw [Dev.afterRead, Dev.exchanges_append, Dev.exchanges_readStatus d hp]
  interval_cases m
  · exact ⟨.statusOutHigh, by decide, by decide, rfl⟩
  · exact ⟨.statusOutLow, by decide, by decide, rfl⟩
  · exact ⟨.complete, by decide, by decide, rfl⟩

/-- What a status read leaves of the chip, as far as it goes (log 17). -/
theorem ReadSession.status_chip {m : Nat} {s t : State} (h : ReadSession readStatusHeader m s t) (hm : m ≤ 2) (hspi : s.spi) :
    SameAfterStatusRead s t ∧ (m = 0 → SameChip s.dev t.dev) := by
  obtain ⟨n, hdev⟩ := h.ecs hspi.1
  obtain ⟨p, hl, hr, hd⟩ := s.dev.afterRead_status hm hspi.2
  rw [hd, Dev.endFrame_ordinary _ _ hl hr] at hdev
  refine ⟨⟨⟨by rw [hdev], fun a => by rw [hdev]; rfl⟩, fun hnone => ?_⟩, fun h0 => ⟨?_, fun a => by rw [hdev]; rfl⟩⟩
  · rw [hdev]
    simp +contextual [Env.ecsAfter, hnone]
  · rw [hdev, h0]
    rfl

/-- A status read of which not even the code was sent leaves the chip (log 17). -/
theorem Dev.statusCode_cut (d : Dev) (m x : Nat) (e : BitVec 1) (hp : protocolOf d.config = protocolSpi) :
    SameChip d ((d.startFrame.fallShort readStatusHeader m).endFrame x e) := by
  constructor
  · simp [readStatusHeader, Dev.startFrame, hp, Dev.fallShort, Dev.garble, Dev.garbleByte, Dev.exchange, Dev.afterCode,
      codeWrite, codeRead, codeReadStatus, FramePos.cutShort, Dev.endFrame, Dev.status]
  · intro a
    apply Dev.byteAt_congr <;>
      simp [readStatusHeader, Dev.startFrame, hp, Dev.fallShort, Dev.garble, Dev.garbleByte, Dev.exchange, Dev.afterCode,
        codeWrite, codeRead, codeReadStatus, FramePos.cutShort, Dev.endFrame]

/-! ## A status read that falls short, with any report (R140, R150) -/

section
variable {f : Cmd → Cmd} {g : Work → Res → Res} {s : State} {rest : List CallDraw} (hs : s.ready)
include hs

theorem statusRead_codeNotSent (hc : s.env.calls = .short 0 :: rest) :
    ∃ t, onBus f (runRead readStatusHeader 2 g) s = .next t ∧ Ended s t ∧ t.trace = s.trace ++ [.sel, .desel] ∧
      t.res = (g ⟨0, [], [], 0⟩ s.res).fail .shortTransfer ∧ t.cmd = f s.cmd ∧ (s.env.plugged = false → t.dev = s.dev) ∧
      (s.spi → SameChip s.dev t.dev) := by
  have hdraw : callDraw s = .short 0 := by rw [callDraw, hc]; rfl
  obtain ⟨t, inc, m, he, hres, hcmd, h⟩ := readOp_shortHeader (hdr := readStatusHeader) (len := 2) (g := g) (f := f) hs hdraw
    Nat.one_pos
  have hinc : inc = [] := List.length_eq_zero_iff.mp (h.length_take Nat.one_pos)
  refine ⟨t, he, h.ended, by rw [h.trace, hinc]; rfl, hres, hcmd, h.unplugged, fun hspi => ?_⟩
  obtain ⟨x, e, hdev⟩ := h.dev hspi.1
  rw [hdev]
  exact Dev.statusCode_cut s.dev m x e hspi.2

theorem statusRead_nothingReceived (hc : s.env.calls = .full :: .short 0 :: rest) :
    ∃ t x, onBus f (runRead readStatusHeader 2 g) s = .next t ∧ Ended s t ∧
      t.trace = s.trace ++ [.sel, .x 0x05 x, .desel] ∧
      t.res = (g ⟨1, [], [], 0⟩ s.res).fail .shortTransfer ∧ t.cmd = f s.cmd ∧ (s.env.plugged = false → t.dev = s.dev) ∧
      (s.spi → SameChip s.dev t.dev) := by
  obtain ⟨t, he, hres, hcmd, h⟩ := readOp_shortReceive (hdr := readStatusHeader) (len := 2) (g := g) (f := f) hs hc
    Nat.two_pos
  obtain ⟨x, hx⟩ := List.length_eq_one_iff.mp (readAnswers_take_length readStatusHeader 0 s)
  have h0 := List.length_eq_zero_iff.mp (response_length readStatusHeader 0 s)
  have htrace := h.trace_split
  rw [hx, h0] at htrace
  rw [h0] at hres
  exact ⟨t, x, he, h.ended, htrace, hres, hcmd, h.unplugged, fun hspi => (h.status_chip (by decide) hspi).2 rfl⟩

theorem statusRead_oneByteReceived (hc : s.env.calls = .full :: .short 1 :: rest) :
    ∃ t x h, onBus f (runRead readStatusHeader 2 g) s = .next t ∧ Ended s t ∧
      t.trace = s.trace ++ [.sel, .x 0x05 x, .x Config.fill h, .desel] ∧
      t.res = (g ⟨1, [h], [], 0⟩ s.res).fail .shortTransfer ∧ t.cmd = f s.cmd ∧ (s.env.plugged = false → t.dev = s.dev) ∧
      (s.spi → h = statusHigh s.dev.status ∧ SameAfterStatusRead s t) := by
  obtain ⟨t, he, hres, hcmd, hd⟩ := readOp_shortReceive (hdr := readStatusHeader) (len := 2) (g := g) (f := f) hs hc
    Nat.one_lt_two
  obtain ⟨x, hx⟩ := List.length_eq_one_iff.mp (readAnswers_take_length readStatusHeader 1 s)
  obtain ⟨h, hh⟩ := List.length_eq_one_iff.mp (response_length readStatusHeader 1 s)
  have htrace := hd.trace_split
  rw [hx, hh] at htrace
  rw [hh] at hres
  refine ⟨t, x, h, he, hd.ended, htrace, hres, hcmd, hd.unplugged, fun hspi => ⟨?_, (hd.status_chip (by decide) hspi).1⟩⟩
  have hresp := response_status (m := 1) (by decide) hspi
  rw [hh] at hresp
  exact (List.cons.inj hresp).1

end

/-! ## get_status and the bare status frames -/

/-- The three bytes that come in during a whole status read. -/
theorem readAnswers_status (s : State) :
    ∃ x h l, (readAnswers readStatusHeader 2 s).take 1 = [x] ∧ response readStatusHeader 2 s = [h, l] := by
  obtain ⟨x, hx⟩ := List.length_eq_one_iff.mp (readAnswers_take_length readStatusHeader 2 s)
  obtain ⟨h, l, hr⟩ := List.length_eq_two.mp (response_length readStatusHeader 2 s)
  exact ⟨x, h, l, hx, hr⟩

theorem joinStatus_response {s : State} (hspi : s.spi) {h l : Byte} (hr : response readStatusHeader 2 s = [h, l]) :
    joinStatus h l = s.dev.status := by
  have hresp := response_status le_rfl hspi
  rw [hr] at hresp
  obtain ⟨rfl, hl⟩ := List.cons.inj hresp
  obtain ⟨rfl, -⟩ := List.cons.inj hl
  exact joinStatus_split _

/-- Settles O29, from what a status read answers and leaves. -/
theorem getStatusCompletes : Obligations.GetStatusCompletes := by
  intro s hs hf
  obtain ⟨t, he, hres, hcmd, hd⟩ := readOp_completes (hdr := readStatusHeader) (len := 2)
    (g := fun w r => { r with count := w.r.length, val16 := receivedStatus w.r }) (f := fun c => { c with op := 0x4 }) hs hf
  obtain ⟨x, h, l, hx, hr⟩ := readAnswers_status s
  have htrace := hd.trace_split
  rw [show readStatusHeader.length = 1 from rfl, hx, hr] at htrace
  rw [hr] at hres
  exact ⟨t, x, h, l, he, hd.ended, hres, hcmd, htrace, hd.calls, hd.unplugged,
    fun hspi => ⟨joinStatus_response hspi hr, (hd.status_chip le_rfl hspi).1⟩⟩

/-- Settles O30: the three places where a status read can fall short. -/
theorem shortGetStatusFails : Obligations.ShortGetStatusFails := by
  intro s rest hs
  refine ⟨fun hc => ?_, fun hc => ?_, fun hc => ?_⟩
  · obtain ⟨t, he, hend, htrace, hres, -, -, hchip⟩ := statusRead_codeNotSent hs hc
    exact ⟨t, he, hend, htrace, hres, hchip⟩
  · obtain ⟨t, x, he, hend, htrace, hres, -, -, hchip⟩ := statusRead_nothingReceived hs hc
    exact ⟨t, x, he, hend, htrace, hres, hchip⟩
  · obtain ⟨t, x, h, he, hend, htrace, hres, -, -, hchip⟩ := statusRead_oneByteReceived hs hc
    exact ⟨t, x, h, he, hend, htrace, hres, hchip⟩

/-- Settles O43: the two frames, as in get_status and set_status. -/
theorem statusFramesComplete : Obligations.StatusFramesComplete := by
  intro s hs hf
  refine ⟨?_, fun S => ?_⟩
  · obtain ⟨t, he, hres, hcmd, hwork, hd⟩ := readFrame_completes (hdr := readStatusHeader) (len := 2) hs hf
    obtain ⟨x, h, l, hx, hr⟩ := readAnswers_status s
    have htrace := hd.trace_split
    rw [show readStatusHeader.length = 1 from rfl, hx, hr] at htrace
    exact ⟨t, x, h, l, he, hd.ended, hres, hcmd, hwork.trans hr, htrace,
      fun hspi => ⟨joinStatus_response hspi hr, (hd.status_chip le_rfl hspi).1⟩⟩
  · obtain ⟨t, inc, he, hres, hcmd, -, h⟩ := writeFrame_completes (frame := writeStatusFrame S) hs hf
    refine ⟨t, inc, he, h.ended, hres, hcmd, h.length, h.trace, fun hspi => ?_⟩
    obtain ⟨n, e, hdev⟩ := h.dev hspi.1
    rw [hdev, Dev.writeStatus_done s.dev S n e hspi.2]
    exact ⟨Dev.status_afterWrite s.dev S _ _, fun _ => rfl⟩

/-! ## The two sessions of a setter -/

theorem enter_enter (p q : Phase) (s : State) : enter p (enter q s) = enter p s := by
  cases hs : s.stalled
  case true => rw [enter_stalled hs]
  case false => rw [enter_live hs, enter_live (by exact hs), enter_live hs]

/-- The phase before it is nothing to a session. -/
theorem setterRead_eq (s : State) : setterRead s = readSession readStatusHeader 2 s := by
  rw [setterRead, readSession, enter_enter, ← readSession]

/-- A second session goes as the one session of an operation that begins where the first session ended. -/
theorem writeSession_afterFinish {s : State} (hs : s.stalled = false) (hb : s.busy = true) (p sel tx desel : Phase)
    (frame : List Byte) :
    writeSession sel tx desel frame (enter p s) = writeSession sel tx desel frame (accept id (finish s)) := by
  have h : enter sel s = enter sel (accept id (finish s)) := by
    rw [enter_live hs, enter_live (by exact hs), accept, finish, ← hb]
    rfl
  rw [writeSession, enter_enter, h, ← writeSession]

/-- Both bytes of the register are received exactly when neither call falls short. -/
theorem statusReceived_eq (s : State) :
    statusReceived s = (decide ((callDraw s).limit 1 = 1) && decide ((secondDraw s).limit 2 = 2)) := by
  by_cases h : (callDraw s).limit 1 = 1
  · have hlen : (receivedBytes readStatusHeader 2 s).length = (secondDraw s).limit 2 :=
      (congrArg List.length (if_pos h)).trans (response_length readStatusHeader _ s)
    rw [statusReceived, hlen]
  · rw [statusReceived, decide_eq_false h, Bool.false_and, Bool.false_and]

/-- What a setter whose read failed reports (D10, D11). -/
def failedSetterReport (w : Work) (r : Res) : Res := { r with count := 0, val16 := receivedStatus w.r }

/-- A setter whose read falls short is a read operation, with a report of its own. -/
theorem runSetter_eq_runRead {f : Field} {arg : BitVec 3} {s : State} (hs : s.stalled = false)
    (hr : statusReceived s = false) : runSetter f arg s = runRead readStatusHeader 2 failedSetterReport s := by
  cases ht : (setterRead s).stalled
  case true =>
    have h := setterRead_eq s ▸ ht
    rw [runSetter_stalled ht, setterRead_eq, runRead_stalled _ h]
  case false =>
    have h := setterRead_eq s ▸ ht
    rw [runSetter_readFailed hs ht hr, setterRead_eq, runRead_live _ hs h]
    rw [statusReceived] at hr
    rw [show readStatusHeader.length = 1 from rfl, hr]
    rfl

/-- A setter with a valid argument runs on the bus (R149). -/
theorem exec_validSetter {f : Field} {arg : BitVec 3} {i : Instr} (hi : isSetter f arg i) (ha : argValid f arg = true)
    (s : State) : exec i s = onBus (fun c => { c with op := setterOp f, arg := arg }) (runSetter f arg) s := by
  rw [exec_of_isSetter hi, setter, if_pos ha]

theorem exec_setter_readFailed {f : Field} {arg : BitVec 3} {i : Instr} (hi : isSetter f arg i) (ha : argValid f arg = true)
    {s : State} (hs : s.ready) (hr : (callDraw s).limit 1 ≠ 1 ∨ (secondDraw s).limit 2 ≠ 2) :
    exec i s = onBus (fun c => { c with op := setterOp f, arg := arg })
      (runRead readStatusHeader 2 failedSetterReport) s := by
  have hno : ∀ g, statusReceived (accept g s) = false := fun g => by
    rw [statusReceived_eq, Bool.and_eq_false_iff, decide_eq_false_iff_not, decide_eq_false_iff_not]
    exact hr
  rw [exec_validSetter hi ha, onBus_ready hs, onBus_ready hs]
  exact congrArg _ (runSetter_eq_runRead (s := accept _ s) hs.2.1 (hno _))

/-- Settles O35: such a setter is a status read that falls short. -/
theorem fieldSetterFailedReadWritesNothing : Obligations.FieldSetterFailedReadWritesNothing := by
  intro f arg i s rest hi ha hs
  refine ⟨fun hc => ?_, fun hc => ?_, fun hc => ?_⟩
  · rw [exec_setter_readFailed hi ha hs (.inl (by rw [callDraw, hc]; simp [CallDraw.limit]))]
    exact statusRead_codeNotSent hs hc
  · rw [exec_setter_readFailed hi ha hs (.inr (by rw [secondDraw, hc]; simp [CallDraw.limit]))]
    exact statusRead_nothingReceived hs hc
  · rw [exec_setter_readFailed hi ha hs (.inr (by rw [secondDraw, hc]; simp [CallDraw.limit]))]
    exact statusRead_oneByteReceived hs hc

/-! ## A setter whose read succeeds -/

section
variable {f : Field} {arg : BitVec 3} {g : Cmd → Cmd} {s : State} (hs : s.ready) (h1 : callDraw s = .full)
  (h2 : secondDraw s = .full)

/-- The value a setter writes back (R150). -/
def setterValue (f : Field) (arg : BitVec 3) (s : State) : StatusWord :=
  insertField f (receivedStatus (response readStatusHeader 2 s)) (arg.setWidth 16)

include hs h1 h2

/-- Between its two sessions a setter is where a bare status read leaves PSS; what follows is one write session from there. -/
theorem runSetter_secondSession :
    ∃ u, ReadSession readStatusHeader 2 s u ∧ u.cmd = g s.cmd ∧ ((callDraw u).stalls 3 = false →
      runSetter f arg (accept g s) = finish { writeSession .sel2 .tx2 .desel2 (writeStatusFrame (setterValue f arg s))
          (accept id u) with
        res := ({ s.res with count := (callDraw u).limit 3, val16 := setterValue f arg s } : Res).verdict
          (decide ((callDraw u).limit 3 = 3)) }) := by
  obtain ⟨h, hlive, hcmd, hres, hr⟩ := readSession_readSession (f := g) (hdr := readStatusHeader) (len := 2) hs
    (by rw [h1]; rfl) (by rw [h2]; rfl) (readSession readStatusHeader 2 (accept g s)).res
  have hbusy : (readSession readStatusHeader 2 (accept g s)).busy = true := by
    obtain ⟨hd, -⟩ := readSession_received readStatusHeader 2 (s := accept g s) hs.2.1 (by exact h1 ▸ rfl) (by exact h2 ▸ rfl)
    exact hd.busy
  rw [h2, show CallDraw.full.limit 2 = 2 from rfl] at h hr
  have hrec : statusReceived (accept g s) = true := by
    rw [statusReceived_eq]
    exact Bool.and_eq_true_iff.mpr ⟨decide_eq_true (by exact h1 ▸ rfl), decide_eq_true (by exact h2 ▸ rfl)⟩
  have hbytes : receivedBytes readStatusHeader 2 (accept g s) = response readStatusHeader 2 s := by
    rw [← hr, (readSession_live readStatusHeader 2 (s := accept g s) hs.2.1 hlive).work]
  refine ⟨finish (readSession readStatusHeader 2 (accept g s)), h, hcmd, fun hk => ?_⟩
  rw [runSetter_read (s := accept g s) hs.2.1 (by rw [setterRead_eq]; exact hlive) hrec, hbytes, setterRead_eq,
    runWriteBack_live hlive hk, writeSession_afterFinish hlive hbusy, hres]
  rfl

/-- A setter whose two sessions are complete (R150). -/
theorem setter_completes (h3 : (s.env.calls.drop 2).headD .full = .full) :
    ∃ u t inc, onBus g (runSetter f arg) s = .next t ∧
      t.res = { s.res with ok := true, err := .success, count := 3, val16 := setterValue f arg s } ∧ t.cmd = g s.cmd ∧
      ReadSession readStatusHeader 2 s u ∧
      OneSession (writeStatusFrame (setterValue f arg s)) inc 1
        (u.dev.startFrame.exchanges (writeStatusFrame (setterValue f arg s))) u t := by
  obtain ⟨u, h, hcmd, hrun⟩ := runSetter_secondSession (f := f) (arg := arg) (g := g) hs h1 h2
  have hc : callDraw u = .full := by
    rw [callDraw, h.calls]
    exact h3
  rw [hc] at hrun
  obtain ⟨inc, hw⟩ := writeSession_complete (s := accept id u) (frame := writeStatusFrame (setterValue f arg s)) .sel2 .tx2
    .desel2 h.ended.stalled (by exact hc ▸ rfl)
  exact ⟨u, _, inc, (onBus_ready hs g _).trans (congrArg _ (hrun rfl)), rfl, hw.cmd.trans hcmd, h, hw.oneSession _⟩

/-- A setter whose second session falls short (R150). -/
theorem setter_writeFallsShort {n : Nat} (h3 : (s.env.calls.drop 2).headD .full = .short n) (hn : n < 3) :
    ∃ u t inc m, onBus g (runSetter f arg) s = .next t ∧
      t.res = { s.res with ok := false, err := .shortTransfer, count := n, val16 := setterValue f arg s } ∧
      ReadSession readStatusHeader 2 s u ∧
      OneSession ((writeStatusFrame (setterValue f arg s)).take n) inc 1
        ((u.dev.startFrame.exchanges ((writeStatusFrame (setterValue f arg s)).take n)).fallShort
          ((writeStatusFrame (setterValue f arg s)).drop n) m) u t := by
  obtain ⟨u, h, -, hrun⟩ := runSetter_secondSession (f := f) (arg := arg) (g := g) hs h1 h2
  have hc : callDraw u = .short n := by
    rw [callDraw, h.calls]
    exact h3
  rw [hc, show (CallDraw.short n).limit 3 = n from Nat.min_eq_left hn.le, decide_eq_false hn.ne] at hrun
  obtain ⟨inc, m, hw⟩ := writeSession_short (s := accept id u) (frame := writeStatusFrame (setterValue f arg s)) .sel2 .tx2
    .desel2 h.ended.stalled hc hn
  exact ⟨u, _, inc, m, (onBus_ready hs g _).trans (congrArg _ (hrun rfl)), rfl, h, hw.oneSession _⟩

end

theorem Ended.trans {s u t : State} (h : Ended s u) (h' : Ended u t) : Ended s t :=
  ⟨h'.csN, h'.ses, h'.busy, h'.stalled, h'.seq, fun hsck => h'.sck (h.sck hsck), h'.inputs.trans h.inputs,
    h'.plugged.trans h.plugged⟩

/-- A read of the register leaves PROTOCOL. -/
theorem ReadSession.spi {m : Nat} {s t : State} (h : ReadSession readStatusHeader m s t) (hm : m ≤ 2) (hspi : s.spi) : t.spi :=
  ⟨h.ended.plugged.trans hspi.1, (congrArg protocolOf (h.status_chip hm hspi).1.rest.config).trans hspi.2⟩

/-- The trace and the value of a setter's read. -/
theorem ReadSession.status_trace {s u : State} (h : ReadSession readStatusHeader 2 s u) :
    ∃ x b l, u.trace = s.trace ++ sessionEvents [0x05, Config.fill, Config.fill] [x, b, l] ∧
      response readStatusHeader 2 s = [b, l] ∧
      ∀ f arg, setterValue f arg s = insertField f (joinStatus b l) (arg.setWidth 16) := by
  obtain ⟨x, b, l, hx, hr⟩ := readAnswers_status s
  have htrace := h.trace_split
  rw [show readStatusHeader.length = 1 from rfl, hx, hr] at htrace
  exact ⟨x, b, l, htrace, hr, fun f arg => by rw [setterValue, hr]; rfl⟩

/-- Settles O36, from the second session cut short. -/
theorem fieldSetterFailedWriteReported : Obligations.FieldSetterFailedWriteReported := by
  intro f arg i s n rest hi ha hs hc hn
  obtain ⟨u, t, inc, m, he, hres, hread, hw⟩ := setter_writeFallsShort (f := f) (arg := arg)
    (g := fun c => { c with op := setterOp f, arg := arg }) hs (by rw [callDraw, hc]; rfl) (by rw [secondDraw, hc]; rfl)
    (n := n) (by rw [hc]; rfl) hn
  obtain ⟨x, b, l, htrace, -, hv⟩ := hread.status_trace
  rw [hv] at hres hw
  refine ⟨t, x, b, l, inc, (exec_validSetter hi ha s).trans he, hread.ended.trans hw.ended, hw.length_take hn, hres, ?_,
    fun hspi a => ?_⟩
  · rw [hw.trace, htrace]
    rfl
  · obtain ⟨y, e, hdev⟩ := hw.dev (hread.spi le_rfl hspi).1
    rw [hdev, Dev.writeStatus_cut u.dev _ m y e hn (hread.spi le_rfl hspi).2 a]
    exact (hread.status_chip le_rfl hspi).1.rest.array a

/-! ## What a setter writes into the register (R64, R155) -/

/-- Where the reserved bits written are those of the register, a status write puts the whole value but ECS (R64). -/
theorem configAfterWrite_of_reserved {w old : StatusWord} (h : w &&& reservedMask = old &&& reservedMask) :
    configAfterWrite w old = w &&& ~~~Field.ecs.mask := by
  have hm : writableMask ||| reservedMask = ~~~Field.ecs.mask := by decide
  rw [configAfterWrite, reservedAfter, if_pos h, ← h, ← hm, BitVec.and_or_distrib_left]

/-- No field shares a bit with the reserved ones (R22). -/
theorem Field.mask_reserved (f : Field) : f.mask &&& reservedMask = 0 := by
  cases f <;> decide

/-- A mask with no bit of the field's sees nothing of an insertion. -/
theorem insertField_and {f : Field} {m : StatusWord} (h : f.mask &&& m = 0) (S v : StatusWord) :
    insertField f S v &&& m = S &&& m := by
  apply BitVec.eq_of_getLsbD_eq
  intro i _
  have hi : (f.mask.getLsbD i && m.getLsbD i) = false := by
    rw [← BitVec.getLsbD_and, h]
    exact BitVec.getLsbD_zero
  rw [BitVec.getLsbD_and, BitVec.getLsbD_and, insertField_getLsbD]
  split
  next hm =>
    rw [hm, Bool.true_and] at hi
    rw [hi, Bool.and_false, Bool.and_false]
  next => rfl

/-- A status write of the register with a field inserted puts just that, but ECS, which stays. -/
theorem configAfterWrite_insertField (f : Field) (d : Dev) (v : StatusWord) :
    configAfterWrite (insertField f d.status v) d.config = insertField f d.status v &&& ~~~Field.ecs.mask :=
  configAfterWrite_of_reserved
    ((insertField_and f.mask_reserved _ _).trans (Dev.status_and_of_ecs (by decide) d))

/-- The register from its parts. -/
theorem Dev.status_eq {d : Dev} {w : StatusWord} (hconfig : d.config = w &&& ~~~Field.ecs.mask)
    (hecs : d.ecs.getLsbD 0 = w.getLsbD 13) : d.status = w := by
  apply BitVec.eq_of_getLsbD_eq
  intro i hi
  rw [Dev.status_getLsbD]
  split
  next h13 => rw [hecs, h13]
  next h13 =>
    rw [hconfig, BitVec.getLsbD_and, BitVec.getLsbD_not, Field.not_mem_ecs_mask h13]
    simp [hi]

theorem ne_ecs_of_isSetter {f : Field} {arg : BitVec 3} {i : Instr} (hi : isSetter f arg i) : f ≠ .ecs := by
  rcases hi with ⟨rfl, -⟩ | ⟨rfl, -⟩ | ⟨rfl, -⟩ | ⟨rfl, -⟩ <;> decide

theorem ne_protocol_of_isSetter {f : Field} {arg : BitVec 3} {i : Instr} (hi : isSetter f arg i) : f ≠ .protocol := by
  rcases hi with ⟨rfl, -⟩ | ⟨rfl, -⟩ | ⟨rfl, -⟩ | ⟨rfl, -⟩ <;> decide

theorem argValid_iff (f : Field) (arg : BitVec 3) :
    argValid f arg = true ↔ arg.toNat < 2 ^ f.width ∧ (f = .mode → arg ≠ 0b011) := by
  simp [argValid, imp_iff_not_or]

/-- The chip after the two sessions of a setter. -/
theorem setter_chip {f : Field} (hf : f ≠ .ecs) {v : StatusWord} {inc : List Byte} {s u t : State} (hspi : s.spi)
    (hread : ReadSession readStatusHeader 2 s u)
    (hw : OneSession (writeStatusFrame (insertField f s.dev.status v)) inc 1
      (u.dev.startFrame.exchanges (writeStatusFrame (insertField f s.dev.status v))) u t) :
    t.dev.config = insertField f s.dev.status v &&& ~~~Field.ecs.mask ∧
      (s.env.ecsAfterStatus = [] → t.dev.status = insertField f s.dev.status v) ∧ ∀ a, t.dev.byteAt a = s.dev.byteAt a := by
  obtain ⟨hu, -⟩ := hread.status_chip le_rfl hspi
  obtain ⟨n, e, hdev⟩ := hw.dev (hread.spi le_rfl hspi).1
  rw [Dev.writeStatus_done u.dev _ n e (hread.spi le_rfl hspi).2, hu.rest.config, configAfterWrite_insertField] at hdev
  have hconfig : t.dev.config = insertField f s.dev.status v &&& ~~~Field.ecs.mask := by rw [hdev]
  refine ⟨hconfig, fun hnone => Dev.status_eq hconfig ?_, fun a => by rw [hdev]; exact hu.rest.array a⟩
  have h13 : f.mask.getLsbD 13 = false := by simpa [Field.mask, Field.shift] using f.not_mem_both_masks hf 13
  rw [insertField_getLsbD, h13, Dev.status_getLsbD, hdev]
  simp [hu.ecs hnone]

/-- Settles O33, from the two sessions of a setter. -/
theorem fieldSetterCompletes : Obligations.FieldSetterCompletes := by
  intro f arg i s hi hw hm hs hf
  obtain ⟨u, t, inc, he, hres, hcmd, hread, hwrite⟩ := setter_completes (f := f) (arg := arg)
    (g := fun c => { c with op := setterOp f, arg := arg }) hs (callDraw_faultFree hf) (secondDraw_faultFree hf)
    (callDraw_faultFree (s := { s with env := { s.env with calls := s.env.calls.drop 2 } })
      fun c hc => hf c (List.mem_of_mem_drop hc))
  obtain ⟨x, b, l, htrace, hr, hv⟩ := hread.status_trace
  rw [hv] at hres hwrite
  refine ⟨t, x, b, l, inc, (exec_validSetter hi ((argValid_iff f arg).mpr ⟨hw, hm⟩) s).trans he,
    hread.ended.trans hwrite.ended, hres, hcmd, hwrite.length, ?_, ?_, fun hp => ?_, fun hspi => ?_⟩
  · rw [hwrite.trace, htrace]
    rfl
  · rw [hwrite.calls, hread.calls, List.drop_drop]
  · exact (hwrite.unplugged (hread.ended.plugged.trans hp)).trans (hread.unplugged hp)
  · have hreg := joinStatus_response hspi hr
    rw [hreg] at hwrite
    obtain ⟨hconfig, hstatus, harray⟩ := setter_chip (ne_ecs_of_isSetter hi) hspi hread hwrite
    refine ⟨hreg, ?_, hstatus, harray⟩
    rw [Dev.status_and_of_ecs (by decide), hconfig, BitVec.and_assoc, BitVec.and_self]

/-! ## Isolation (R155) -/

theorem extractField_congr {f : Field} {S T : StatusWord} (h : S &&& f.mask = T &&& f.mask) :
    extractField f S = extractField f T := by
  rw [extractField, h, extractField]

theorem protocolOf_congr {S T : StatusWord} (h : S &&& Field.protocol.mask = T &&& Field.protocol.mask) :
    protocolOf S = protocolOf T :=
  congrArg (BitVec.setWidth 2) (extractField_congr h)

/-- Words alike but in one field's bits are alike in another field's. -/
theorem and_mask_congr {f g : Field} (h : f ≠ g) {S T : StatusWord} (hST : S &&& ~~~g.mask = T &&& ~~~g.mask) :
    S &&& f.mask = T &&& f.mask := by
  have hm : ~~~g.mask &&& f.mask = f.mask := by
    revert h
    cases f <;> cases g <;> decide
  rw [← hm, ← BitVec.and_assoc, hST, BitVec.and_assoc]

theorem and_not_or (S a b : StatusWord) : S &&& ~~~(a ||| b) = S &&& ~~~a &&& ~~~b := by
  rw [BitVec.not_or, BitVec.and_assoc]

/-- Settles O37, from what a fault-free setter leaves of the register but ECS. -/
theorem fieldSetterIsolation : Obligations.FieldSetterIsolation := by
  intro f arg i s hi ha hs hf hspi
  obtain ⟨hw, hm⟩ := (argValid_iff f arg).mp ha
  obtain ⟨t, x, b, l, inc, he, -, hres, -, -, -, -, -, hchip⟩ := fieldSetterCompletes f arg i s hi hw hm hs hf
  obtain ⟨hreg, hstatus, hnone, -⟩ := hchip hspi
  rw [hreg] at hres
  refine ⟨t, he, ?_, fun h => by rw [hnone h, insertField_outside], by rw [hres, insertField_outside], ?_, ?_⟩
  · rw [BitVec.or_comm, and_not_or, hstatus, ← and_not_or, BitVec.or_comm, and_not_or, insertField_outside, and_not_or]
  · rw [extractField_congr (and_mask_congr (ne_ecs_of_isSetter hi) hstatus)]
    exact extractField_insertField _ (by rwa [BitVec.toNat_setWidth_of_le (by decide)])
  · refine (protocolOf_congr ?_).trans hspi.2
    calc t.dev.config &&& Field.protocol.mask
        = t.dev.status &&& Field.protocol.mask := (Dev.status_and_of_ecs (by decide) _).symm
      _ = insertField f s.dev.status (arg.setWidth 16) &&& Field.protocol.mask := and_mask_congr (by decide) hstatus
      _ = s.dev.status &&& Field.protocol.mask := insertField_and (Field.masks_disjoint (ne_protocol_of_isSetter hi)) _ _
      _ = s.dev.config &&& Field.protocol.mask := Dev.status_and_of_ecs (by decide) _

end Sys2Proof.Machine
end

section
/-!
PROOFS. Rules about whole fault-free operations: the round trip of a payload, the clock cycles, and that PROTOCOL stays SPI
(41_memory_ops R126; 70_reset_and_hazards R224, R230; 10_state R25).
-/

namespace Sys2Proof.Machine

theorem Ended.ready {s t : State} (h : Ended s t) : t.ready := ⟨h.busy, h.stalled, h.ses⟩

theorem faultFree_of_drop {s t : State} {n : Nat} (hf : s.faultFree) (h : t.env.calls = s.env.calls.drop n) : t.faultFree :=
  fun c hc => hf c (List.mem_of_mem_drop (h ▸ hc))

/-! ## The round trip (R126) -/

/-- Settles O46: the write puts each byte on the pointer's run, and the read goes along the same run. -/
theorem roundTripReturnsPayload : Obligations.RoundTripReturnsPayload := by
  intro A P s hs hf hspi hseq hl
  obtain ⟨t, -, he, hend, hres, -, -, -, hcalls, -, hconfig, -, hmem⟩ := sequentialWriteCompletes A P s hs hf
  obtain ⟨-, -, hput⟩ := hmem hspi hseq
  have hcfg := hconfig hspi
  have hspi' : t.spi := ⟨hend.plugged.trans hspi.1, (congrArg protocolOf hcfg).trans hspi.2⟩
  have hseq' : t.sequential := (congrArg modeOf hcfg).trans hseq
  obtain ⟨u, hin, got, he', -, hres', -, -, hlen, -, -, -, -, hread, hrun⟩ :=
    sequentialReadCompletes A P.length t hend.ready (faultFree_of_drop hf hcalls)
  obtain ⟨-, hbytes⟩ := hread hspi' (modeNamed_of_sequential hseq')
  have hgot : got = P := by
    apply List.ext_getElem hlen
    intro j hj hj'
    have hj'' := hbytes j (hlen ▸ hj)
    rw [hrun hspi' hseq' j, hput hl j P[j] (List.getElem?_eq_getElem hj'), List.getElem?_eq_getElem hj] at hj''
    exact Option.some.inj hj''
  refine ⟨t, u, he, he', by rw [hres], by rw [hres'], by rw [hres'], ?_⟩
  rw [hres', hgot]
  exact List.take_left

/-! ## The clock cycles (R230) -/

/-- Eight cycles for each byte of a session. -/
theorem clockCycles_sessionEvents {out inc : List Byte} (h : inc.length = out.length) :
    clockCycles (sessionEvents out inc) = 8 * out.length := by
  rw [clockCycles_eq, outBytes_sessionEvents h]

theorem clockCycles_append (es fs : List BusEvent) : clockCycles (es ++ fs) = clockCycles es + clockCycles fs := by
  rw [clockCycles_eq, clockCycles_eq, clockCycles_eq, outBytes_append, List.length_append, Nat.mul_add]

/-- A request that adds to TRACE events with eight clock cycles for each of `n` exchanges. -/
def Clocked (n : Nat) (e : State → Host.Outcome State Fault Refusal) (s : State) : Prop :=
  ∃ t es, e s = .next t ∧ t.trace = s.trace ++ es ∧ clockCycles es = 8 * n

section
variable {n : Nat} {e : State → Host.Outcome State Fault Refusal} {s t : State} (he : e s = .next t)
include he

theorem OneSession.clocked {out inc : List Byte} {calls : Nat} {d : Dev} (h : OneSession out inc calls d s t)
    (hn : out.length = n) : Clocked n e s :=
  ⟨t, _, he, h.trace, by rw [clockCycles_sessionEvents h.length, hn]⟩

theorem clocked_zero (h : t.trace = s.trace) : Clocked 0 e s := ⟨t, [], he, by rw [h, List.append_nil], rfl⟩

end

section
variable {n : Nat} {s : State} (hs : s.ready) (hf : s.faultFree)
include hs hf

theorem writeOp_clocked {f : Cmd → Cmd} {frame : List Byte} (hn : frame.length = n) : Clocked n (onBus f (runWrite frame)) s := by
  obtain ⟨t, inc, he, -, -, h⟩ := writeOp_completes hs hf
  exact h.clocked he hn

theorem writeFrame_clocked {frame : List Byte} (hn : frame.length = n) :
    Clocked n (onBus id fun t => endSession (writeSession .sel1 .tx1 .desel1 frame t)) s := by
  obtain ⟨t, inc, he, -, -, -, h⟩ := writeFrame_completes hs hf
  exact h.clocked he hn

theorem readOp_clocked {f : Cmd → Cmd} {hdr : List Byte} {len : Nat} {g : Work → Res → Res}
    (hn : (hdr ++ List.replicate len Config.fill).length = n) : Clocked n (onBus f (runRead hdr len g)) s := by
  obtain ⟨t, he, -, -, h⟩ := readOp_completes hs hf
  exact h.clocked he hn

theorem readFrame_clocked {hdr : List Byte} {len : Nat} (hn : (hdr ++ List.replicate len Config.fill).length = n) :
    Clocked n (onBus id fun t => endSession (readSession hdr len t)) s := by
  obtain ⟨t, he, -, -, -, h⟩ := readFrame_completes hs hf
  exact h.clocked he hn

end

/-- A fault-free setter with a valid argument has two sessions of three bytes. -/
theorem setter_clocked {f : Field} {arg : BitVec 3} {i : Instr} {s : State} (hi : isSetter f arg i) (ha : argValid f arg = true)
    (hs : s.ready) (hf : s.faultFree) : Clocked 6 (exec i) s := by
  obtain ⟨hw, hm⟩ := (argValid_iff f arg).mp ha
  obtain ⟨t, x, b, l, inc, he, -, -, -, hinc, htrace, -⟩ := fieldSetterCompletes f arg i s hi hw hm hs hf
  refine ⟨t, _, he, by rw [htrace, List.append_assoc], ?_⟩
  rw [clockCycles_append, clockCycles_sessionEvents (by rfl), clockCycles_sessionEvents hinc]
  rfl

/-- A reserved selector changes nothing but the registers (R89). -/
theorem exec_reserved_quiet {i : Instr} (hi : i = .reservedOpB ∨ ∃ low, i = .reservedOpCToF low) {s : State} (hs : s.ready) :
    ∃ t, exec i s = .next t ∧ t.trace = s.trace ∧ t.dev = s.dev ∧ t.env = s.env := by
  obtain ⟨op, -, he⟩ := exec_reserved hi hs.1 hs.2.1
  rw [reject_idle (by exact hs.2.1) (by exact hs.2.2)] at he
  exact ⟨_, he, rfl, rfl, rfl⟩

theorem reserved_clocked {i : Instr} (hi : i = .reservedOpB ∨ ∃ low, i = .reservedOpCToF low) {s : State} (hs : s.ready) :
    Clocked 0 (exec i) s := by
  obtain ⟨t, he, htrace, -⟩ := exec_reserved_quiet hi hs
  exact clocked_zero he htrace

/-- Settles O55: each operation's sessions are known, and each exchange has eight cycles. -/
theorem clockCyclesOfOperations : Obligations.ClockCyclesOfOperations := by
  intro i s hi hvalid hs hf
  have hset : ∀ f arg, isSetter f arg i → Clocked 6 (exec i) s := fun f arg h => setter_clocked h (hvalid f arg h) hs hf
  show Clocked (maxExchanges i) (exec i) s
  cases i with
  | writeByte A V => exact writeOp_clocked hs hf rfl
  | sequentialWrite A D => exact writeOp_clocked hs hf (writeFrame_length A D)
  | write A D => exact writeFrame_clocked hs hf (writeFrame_length A D)
  | setStatus S => exact writeOp_clocked hs hf rfl
  | writeStatus S => exact writeFrame_clocked hs hf rfl
  | readByte A => exact readOp_clocked hs hf rfl
  | sequentialRead A L => exact readOp_clocked hs hf (readFrame_length A L)
  | read A L => exact readFrame_clocked hs hf (readFrame_length A L)
  | getStatus => exact readOp_clocked hs hf rfl
  | readStatus => exact readFrame_clocked hs hf rfl
  | setMode arg => exact hset .mode arg (.inl ⟨rfl, rfl⟩)
  | setPageSize arg => exact hset .pageSize arg (.inr (.inl ⟨rfl, rfl⟩))
  | setSlewRate arg => exact hset .slew arg (.inr (.inr (.inl ⟨rfl, rfl⟩)))
  | setDriveStrength arg => exact hset .drive arg (.inr (.inr (.inr ⟨rfl, rfl⟩)))
  | decodeStatus S => exact clocked_zero (exec_decodeStatus_idle S hs.1 hs.2.1) rfl
  | reservedOpB => exact reserved_clocked (.inl rfl) hs
  | reservedOpCToF low => exact reserved_clocked (.inr ⟨low, rfl⟩) hs
  | fastRead | enterDualIo | enterQuadIo | resetIo | select | deselect | transfer | receive => simp [isHostOp, isFrame] at hi

/-! ## PROTOCOL stays SPI (R25, R224) -/

/-- A request that leaves the chip speaking SPI. -/
def KeepsSpi (e : State → Host.Outcome State Fault Refusal) (s : State) : Prop := ∃ t, e s = .next t ∧ t.spi

theorem keepsSpi_of_config {e : State → Host.Outcome State Fault Refusal} {s t : State} (hspi : s.spi) (he : e s = .next t)
    (hp : t.env.plugged = s.env.plugged) (hc : t.dev.config = s.dev.config) : KeepsSpi e s :=
  ⟨t, he, hp.trans hspi.1, (congrArg protocolOf hc).trans hspi.2⟩

section
variable {s : State} (hs : s.ready) (hf : s.faultFree) (hspi : s.spi)
include hs hf hspi

theorem writeOp_keepsSpi {f : Cmd → Cmd} {A : Address} {D : List Byte} : KeepsSpi (onBus f (runWrite (writeFrame A D))) s := by
  obtain ⟨t, inc, he, -, -, h⟩ := writeOp_completes (frame := writeFrame A D) (f := f) hs hf
  exact keepsSpi_of_config hspi he h.ended.plugged (h.writeFrame_chip hspi).1

theorem readOp_keepsSpi {f : Cmd → Cmd} {A : Address} {L : Nat} {g : Work → Res → Res} :
    KeepsSpi (onBus f (runRead (readHeader A) L g)) s := by
  obtain ⟨t, he, -, -, h⟩ := readOp_completes (hdr := readHeader A) (len := L) (f := f) (g := g) hs hf
  exact keepsSpi_of_config hspi he h.ended.plugged (h.array_chip hspi).1

/-- A fault-free setter keeps PROTOCOL: a valid argument by isolation, any other by rejection. -/
theorem setter_keepsSpi {f : Field} {arg : BitVec 3} {i : Instr} (hi : isSetter f arg i) : KeepsSpi (exec i) s := by
  cases ha : argValid f arg
  case false =>
    obtain ⟨t, he, -, -, -, -, -, -, -, -, -, hdev, henv, -⟩ := fieldSetterRejectsInvalidArgument.2 f arg i s hi ha hs
    exact keepsSpi_of_config hspi he (by rw [henv]) (by rw [hdev])
  case true =>
    obtain ⟨hw, hm⟩ := (argValid_iff f arg).mp ha
    obtain ⟨t, he, -, -, -, -, hp⟩ := fieldSetterIsolation f arg i s hi ha hs hf hspi
    obtain ⟨t', _, _, _, _, he', hend, -⟩ := fieldSetterCompletes f arg i s hi hw hm hs hf
    obtain rfl : t = t' := Host.Outcome.next.inj (he.symm.trans he')
    exact ⟨t, he, hend.plugged.trans hspi.1, hp⟩

end

/-- A reserved selector leaves the chip (R89). -/
theorem reserved_keepsSpi {i : Instr} (hi : i = .reservedOpB ∨ ∃ low, i = .reservedOpCToF low) {s : State} (hs : s.ready)
    (hspi : s.spi) : KeepsSpi (exec i) s := by
  obtain ⟨t, he, -, hdev, henv⟩ := exec_reserved_quiet hi hs
  exact keepsSpi_of_config hspi he (by rw [henv]) (by rw [hdev])

/-- Settles O56, operation by operation. -/
theorem onlyStatusWritesChangeProtocol : Obligations.OnlyStatusWritesChangeProtocol := by
  intro i s t hi hset hwrite hs hf hspi ht
  have hsetter : ∀ f arg, isSetter f arg i → KeepsSpi (exec i) s := fun f arg h => setter_keepsSpi hs hf hspi h
  suffices h : KeepsSpi (exec i) s by
    obtain ⟨u, hu, hspi'⟩ := h
    obtain rfl : t = u := Host.Outcome.next.inj (ht.symm.trans hu)
    exact hspi'
  cases i with
  | writeByte A V => exact writeOp_keepsSpi hs hf hspi
  | sequentialWrite A D => exact writeOp_keepsSpi hs hf hspi
  | write A D =>
    obtain ⟨t, inc, he, -, -, -, h⟩ := writeFrame_completes hs hf
    exact keepsSpi_of_config hspi he h.ended.plugged (h.writeFrame_chip hspi).1
  | readByte A => exact readOp_keepsSpi hs hf hspi
  | sequentialRead A L => exact readOp_keepsSpi hs hf hspi
  | read A L =>
    obtain ⟨t, he, -, -, -, h⟩ := readFrame_completes hs hf
    exact keepsSpi_of_config hspi he h.ended.plugged (h.array_chip hspi).1
  | getStatus =>
    obtain ⟨t, he, -, -, h⟩ := readOp_completes hs hf
    exact ⟨t, he, h.spi le_rfl hspi⟩
  | readStatus =>
    obtain ⟨t, he, -, -, -, h⟩ := readFrame_completes hs hf
    exact ⟨t, he, h.spi le_rfl hspi⟩
  | setStatus S => exact absurd rfl (hset S)
  | writeStatus S => exact absurd rfl (hwrite S)
  | setMode arg => exact hsetter .mode arg (.inl ⟨rfl, rfl⟩)
  | setPageSize arg => exact hsetter .pageSize arg (.inr (.inl ⟨rfl, rfl⟩))
  | setSlewRate arg => exact hsetter .slew arg (.inr (.inr (.inl ⟨rfl, rfl⟩)))
  | setDriveStrength arg => exact hsetter .drive arg (.inr (.inr (.inr ⟨rfl, rfl⟩)))
  | decodeStatus S => exact keepsSpi_of_config hspi (exec_decodeStatus_idle S hs.1 hs.2.1) rfl rfl
  | reservedOpB => exact reserved_keepsSpi (.inl rfl) hs hspi
  | reservedOpCToF low => exact reserved_keepsSpi (.inr ⟨low, rfl⟩) hs hspi
  | fastRead | enterDualIo | enterQuadIo | resetIo | select | deselect | transfer | receive => simp [isHostOp, isFrame] at hi

end Sys2Proof.Machine
end
